-- ==== Sys2Proof/Word.lean ====
section
/-! DEFINITION. The word types of the block (rules R7, R8, R12). -/

namespace Sys2Proof

/-- A bus word in its container. The widest container is 32 bits (R7); the block forms no word with a
bit at or above the bus width (R7, D36). -/
abbrev Word := BitVec 32

/-- An opcode or a parameter byte of a wire command, or one channel of a pixel (R29, R75). -/
abbrev Byte := BitVec 8

/-- A 16-bit coordinate or extent (R29). -/
abbrev Coord := BitVec 16

/-- The electrical level of a line: false is 0 (low), true is 1 (high) (R12). -/
abbrev Level := Bool

end Sys2Proof
end

