-- ==== Sys2Proof/Config.lean ====
section
/-! DEFINITION. The parameters of the block (R6, R7) and the free values of the model (log 5, 6, 7, 8). -/

namespace Sys2Proof

/-- The bus word width in bits, which is the number of data pins (R6). -/
inductive Width where
  | w8
  | w16
  | w18
  deriving DecidableEq, Repr

/-- `W` as a number. -/
def Width.bits : Width → Nat
  | .w8 => 8
  | .w16 => 16
  | .w18 => 18

/-- `BUS_KIND` (R6). The width of a serial bus is an open parameter (P2, R135), so the constructor
carries one. -/
inductive BusKind where
  | parallel8
  | parallel16
  | parallel18
  | serial (w : Width)
  deriving DecidableEq, Repr

/-- `PIN_VARIANT` (R6, R95). -/
inductive PinVariant where
  | bidirectional
  | outputOnly
  deriving DecidableEq, Repr

/-- `PACK565` (R6, R134): the normative RGB565 packing, or the formulas as the source prints them. -/
inductive Pack565 where
  | consistent
  | sourceLiteral
  deriving DecidableEq, Repr

/-- The parameters of R6. They are fixed when the block is built; no step changes one. -/
structure Config where
  /-- `BUS_KIND`. -/
  busKind : BusKind
  /-- `PIN_VARIANT`. -/
  pinVariant : PinVariant
  /-- `PANEL_W`. -/
  panelW : Coord
  /-- `PANEL_H`. -/
  panelH : Coord
  /-- `T_RESET_LOW_US`. -/
  tResetLowUs : Nat
  /-- `T_STAB_US`, which the spec leaves OPEN. -/
  tStabUs : Nat
  /-- `PACK565`. -/
  pack565 : Pack565
  deriving DecidableEq, Repr

namespace Config

/-- `W`: fixed by `BUS_KIND` on a parallel bus (R6). -/
def width (c : Config) : Width :=
  match c.busKind with
  | .parallel8 => .w8
  | .parallel16 => .w16
  | .parallel18 => .w18
  | .serial w => w

/-- The bus is serial: only the rules above the pins hold (R113). -/
def isSerial (c : Config) : Bool :=
  match c.busKind with
  | .serial _ => true
  | _ => false

/-- The parameters to which R6 gives one value have that value. -/
abbrev Valid (c : Config) : Prop :=
  c.panelW = 320 ∧ c.panelH = 480 ∧ c.tResetLowUs = 20

/-- A block with a given bus kind and pin variant, every other parameter at the value of R6
(`T_STAB_US` at its default, `PACK565` at its normative value). -/
def standard (kind : BusKind) (pins : PinVariant) : Config :=
  { busKind := kind
    pinVariant := pins
    panelW := 320
    panelH := 480
    tResetLowUs := 20
    tStabUs := 120000
    pack565 := .consistent }

/-- FREE VALUE (R93, U7; log 5): the level the device drives at the `n`-th draw that the state's list of
levels does not answer. -/
opaque freeLevel : Nat → Level

/-- FREE VALUE (R144, U10; log 6): what the requester finds in the read buffer after a read request that
ended with an error. -/
opaque freeSamples : Nat → List Word

/-- FREE VALUE (R36, U11; log 7): the ghost count `OWED` after raw words from which the spec does not let
pixels be counted. -/
opaque freeOwed : Nat → Int

/-- FREE VALUE (R36; log 8): the ghost count `OWED` for a window whose end lies below its start, where
`(c1-c0+1)*(p1-p0+1)` is no number of pixels. -/
opaque freeWindowCount : Coord → Coord → Coord → Coord → Int

end Config

end Sys2Proof
end

