-- ==== Sys2Proof/Syntax.lean ====
section
/-! DEFINITION. The instructions of the block: the thirteen requests of R74 and the twelve wire commands of
R76, one constructor for each row of the opcode table; and the forms in which they are presented. -/

namespace Sys2Proof

/-- The mode of a bus transaction (R12). -/
inductive Mode where
  | command
  | data
  deriving DecidableEq, Repr

/-- A pixel: three 8-bit channel intensities (R29, R30). -/
structure Pixel where
  r : Byte
  g : Byte
  b : Byte
  deriving DecidableEq, Repr

/-- The rows of the opcode table. The first thirteen are requests (R74). The payload elements of
WRITE_COMMAND and BUS_WRITE and the continuation's answers of BUS_READ are streamed (R73), so they are
no operands: `State` holds those streams. The last twelve are the wire commands of R76, each with its
parameters; on the request port each one is a WRITE_COMMAND (R86, R150 to R161). -/
inductive Instr where
  /-- INIT, R171. -/
  | init (fmt : BitVec 3)
  /-- WRITE_COMMAND, R141. -/
  | writeCommand (opc : Byte) (len : BitVec 32)
  /-- READ_COMMAND, R143. -/
  | readCommand (opc : Byte) (len : BitVec 32)
  /-- SET_PIXEL_FORMAT, R146. -/
  | setPixelFormat (fmt : BitVec 3)
  /-- COLUMN_ADDRESS_SET, R147. -/
  | columnAddressSet (a0 a1 : Coord)
  /-- PAGE_ADDRESS_SET, R148. -/
  | pageAddressSet (a0 a1 : Coord)
  /-- WRITE_PIXELS, R127. -/
  | writePixels (p1 : Pixel) (p2 : Option Pixel)
  /-- WRITE_REPEATED_PIXEL, R129. -/
  | writeRepeatedPixel (p1 : Pixel) (len : BitVec 32)
  /-- DRAW_PIXEL, R174. -/
  | drawPixel (x y : Coord) (p1 : Pixel)
  /-- DRAW_RECT, R175. -/
  | drawRect (x y w h : Coord) (p1 : Pixel)
  /-- CLEAR_SCREEN, R149. -/
  | clearScreen
  /-- BUS_WRITE, R101. -/
  | busWrite (mode : Mode) (len : BitVec 32)
  /-- BUS_READ, R106. -/
  | busRead
  /-- CMD.NOP, R150. -/
  | cmdNop
  /-- CMD.SOFTWARE_RESET, R151. -/
  | cmdSoftwareReset
  /-- CMD.SLEEP_OUT, R152. -/
  | cmdSleepOut
  /-- CMD.NORMAL_DISPLAY_MODE, R153. -/
  | cmdNormalDisplayMode
  /-- CMD.DISPLAY_INVERSION_OFF, R154. -/
  | cmdDisplayInversionOff
  /-- CMD.DISPLAY_ON, R155. -/
  | cmdDisplayOn
  /-- CMD.COLUMN_ADDRESS_SET, R156. -/
  | cmdColumnAddressSet (a0 a1 : Coord)
  /-- CMD.PAGE_ADDRESS_SET, R157. -/
  | cmdPageAddressSet (a0 a1 : Coord)
  /-- CMD.MEMORY_WRITE, R158. -/
  | cmdMemoryWrite
  /-- CMD.MEMORY_ACCESS_CONTROL, R159. -/
  | cmdMemoryAccessControl (mask : Byte)
  /-- CMD.IDLE_MODE_OFF, R160. -/
  | cmdIdleModeOff
  /-- CMD.INTERFACE_PIXEL_FORMAT, R161. -/
  | cmdInterfacePixelFormat (param : Byte)
  deriving DecidableEq, Repr

/-- What stands on the request port when a request is presented (R71), with what the requester will
supply on the streaming ports `pl_word` and `rd_more` while it runs (R73). -/
structure PortRequest where
  /-- `req_op`. -/
  op : BitVec 4
  /-- `req_fmt`. -/
  fmt : BitVec 3
  /-- `req_opc`. -/
  opc : Byte
  /-- `req_mode`. -/
  mode : BitVec 1
  /-- `req_len`. -/
  len : BitVec 32
  /-- `req_a0`. -/
  a0 : Coord
  /-- `req_a1`. -/
  a1 : Coord
  /-- `req_x`. -/
  x : Coord
  /-- `req_y`. -/
  y : Coord
  /-- `req_w`. -/
  w : Coord
  /-- `req_h`. -/
  h : Coord
  /-- `req_p1`, `R1 : G1 : B1`. -/
  p1 : BitVec 24
  /-- `req_p2`, the same layout. -/
  p2 : BitVec 24
  /-- `req_has2`. -/
  has2 : BitVec 1
  /-- The elements the requester will supply on `pl_word`, in order. -/
  payload : List Word
  /-- The answers the requester will give on `rd_more`, in order: true is "want more". -/
  answers : List Bool
  deriving DecidableEq, Repr

/-- How an instruction is presented: on the request port (format REQ), or written as a wire command with
its parameter bytes (format CMD), which is presented as the WRITE_COMMAND it expands to (R86). -/
inductive Presented where
  | port (r : PortRequest)
  | wire (opc : Byte) (params : List Byte)
  deriving DecidableEq, Repr

end Sys2Proof
end

