-- ==== Sys2Proof/Machine/State.lean ====
section
/-! DEFINITION. The state of the block (file 10_state.md), as plain data; its faults, its refusals, its reset. -/

namespace Sys2Proof.Machine

/-- `PIXFMT` (R20): the current pixel format. -/
inductive PixFmt where
  | rgb565
  | rgb666
  deriving DecidableEq, Repr

/-- The six statuses a request can end with (R190, U21). -/
inductive Status where
  | ok
  | busWriteError
  | busReadError
  | invalidFormatError
  | dataFormatNotImplemented
  | inputNotAvailable
  deriving DecidableEq, Repr

/-- A pin direction (R12). -/
inductive Dir where
  | input
  | output
  deriving DecidableEq, Repr

/-- The pins of the block: five control outputs and the data pins (R52, R90). -/
inductive Pin where
  | cs
  | dcx
  | rdx
  | wrx
  | resx
  | d (i : Nat)
  deriving DecidableEq, Repr

/-- The events of the trace (R11). The last two are the opaque transactions of a serial bus (R113). -/
inductive Event where
  /-- `Mode(D[i], dir)`. -/
  | mode (i : Nat) (dir : Dir)
  /-- `Set(p, level)`. -/
  | set (p : Pin) (level : Level)
  /-- `Get(D[i]) = level`. -/
  | get (i : Nat) (level : Level)
  /-- `Delay(us)`. -/
  | delay (us : Nat)
  /-- `Done(status)`. -/
  | done (st : Status)
  /-- A write transaction on a serial bus. -/
  | serialWrite (mode : Mode) (words : List Word)
  /-- A read transaction on a serial bus. -/
  | serialRead (samples : List Word)
  deriving DecidableEq, Repr

/-- Ghost `PHASE` (R33). -/
inductive Phase where
  | unknown
  | reset
  | sleepOut
  | formatSet
  | normalDisplay
  | displayOn
  deriving DecidableEq, Repr

/-- Ghost `DEVFMT` (R34). -/
inductive DevFmt where
  | unknown
  | rgb565
  | rgb666
  deriving DecidableEq, Repr

/-- Ghost `DEVWIN` (R35). -/
structure DevWin where
  c0 : Coord
  c1 : Coord
  p0 : Coord
  p1 : Coord
  deriving DecidableEq, Repr

/-- What the monitor knows of a word that is driven on the bus: a word of its own, or a word of the
encoder with which `k` pixels become complete (log 9). -/
inductive Mark where
  | raw
  | pixels (k : Nat)
  deriving DecidableEq, Repr

/-- The ghost state: what the monitor records of the device. No rule of the block reads it (R33 to R36). The
last four fields are the monitor's own (log 9). -/
structure Ghost where
  /-- `PHASE` (R33). -/
  phase : Phase
  /-- `DEVFMT` (R34). -/
  devFmt : DevFmt
  /-- `DEVWIN` (R35). -/
  devWin : DevWin
  /-- `OWED` (R36), an integer so that pixels sent beyond the window show (log 9). -/
  owed : Option Int
  /-- The wire opcode captured last. -/
  opcode : Option Byte
  /-- The parameter bytes captured after it, while they matter. -/
  args : List Byte
  /-- The mark of the word that is driven on the data pins. -/
  mark : Mark
  /-- How many raw words of an unfinished pixel were captured. -/
  frag : Nat
  deriving DecidableEq, Repr

/-- The operand latches (R29), loaded at acceptance (R72). -/
structure Latches where
  /-- `OP`. -/
  op : BitVec 4
  /-- `FMT`. -/
  fmt : BitVec 3
  /-- `OPC`. -/
  opc : Byte
  /-- `MODE`. -/
  mode : BitVec 1
  /-- `LEN`. -/
  len : BitVec 32
  /-- `A0`. -/
  a0 : Coord
  /-- `A1`. -/
  a1 : Coord
  /-- `X`. -/
  x : Coord
  /-- `Y`. -/
  y : Coord
  /-- `WD`. -/
  wd : Coord
  /-- `HT`. -/
  ht : Coord
  /-- `P1` = (`R1`,`G1`,`B1`). -/
  p1 : Pixel
  /-- `P2` = (`R2`,`G2`,`B2`). -/
  p2 : Pixel
  /-- `HAS2`. -/
  has2 : BitVec 1
  deriving DecidableEq, Repr

/-- The state of the block, its ports and its environment's inputs. -/
structure State where
  /-- The parameters of the block (R6, R37): fixed, no step changes them. -/
  cfg : Config
  /-- `PIXFMT` (R20). -/
  pixFmt : PixFmt
  /-- `CS` (R23). -/
  cs : Level
  /-- `DCX` (R23). -/
  dcx : Level
  /-- `RDX` (R23). -/
  rdx : Level
  /-- `WRX` (R23). -/
  wrx : Level
  /-- `RESX` (R24). -/
  resx : Level
  /-- `DOUT` (R25): bit `i` is the level last driven on `D[i]`. -/
  dout : Word
  /-- `DDIR` (R26): bit `i` is 1 when `D[i]` is in output mode. -/
  ddir : Word
  /-- `INITED` (R32). -/
  inited : Bool
  /-- `BUSY` (R32). -/
  busy : Bool
  /-- `STATUS` (R32). -/
  status : Status
  /-- `SEQ` (R27): `none` is `IDLE`. -/
  seq : Option Nat
  /-- The operand latches (R29). -/
  lat : Latches
  /-- `ENC` (R31): the encoded-pixel cache, at most three words. -/
  enc : List Word
  /-- Ghost state (R33 to R36). -/
  ghost : Ghost
  /-- The instructions the requester will present, in order; `req_valid` is 1 while one is left (R71, R243). -/
  pending : List Presented
  /-- The elements still to come on `pl_word` for the request in progress (R73). -/
  plWords : List Word
  /-- The answers still to come on `rd_more` for the request in progress (R73). -/
  rdMore : List Bool
  /-- The samples of the last read request, as handed over on `rd_word` (R71, R107). -/
  rdWords : List Word
  /-- The sample being assembled (R107). -/
  sample : Word
  /-- The answers of the pin provider still to come (R13, U8): each entry is the number of pin operations
  that succeed before the next one that faults; after the last entry none faults (log 4). -/
  faults : List Nat
  /-- The levels the device will drive at the coming samplings of a data pin (R13, U7); after the last
  entry the level is a free value (log 5). -/
  levels : List Level
  /-- MODEL: the counter the free values are drawn with (log 5, 6, 7). -/
  draws : Nat
  /-- MODEL: the trace `T` (R11), the newest event first. -/
  trace : List Event
  /-- MODEL: the captured word stream (R11), the newest word first. -/
  captured : List (Mode × Word)
  deriving DecidableEq, Repr

/-- Why a step stops with a fault. -/
inductive Fault where
  /-- Raised by `step` on a state in which a request waits for a payload element or a continuation answer
  that never comes: the block stays at `BUSY` = 1 for ever (R207, U13), so there is no further step (U12).
  Safe: the model stops where the hardware does. -/
  | neverFinishes
  deriving DecidableEq, Repr

/-- Why an instruction has no meaning here. -/
inductive Refusal where
  /-- Raised by an arm of `exec` whose instruction the model gives no meaning. Safe. -/
  | notModelled (mnemonic : String)
  /-- Raised by every instruction but INIT while `INITED` = 0 (R72, U1). Safe: the spec gives no meaning. -/
  | notInitialised
  /-- Raised by `step` for the selectors 0xD, 0xE and 0xF (R82, U2). Safe: the spec gives no meaning. -/
  | reservedSelector (op : BitVec 4)
  /-- Raised by DRAW_RECT, and by CLEAR_SCREEN on a panel of no pixels, for a rectangle with `w` = 0 or `h` = 0
  (R79, U3). Safe: the spec gives no meaning. -/
  | emptyRectangle
  /-- Raised by DRAW_RECT for a rectangle whose end coordinate lies above 0xFFFF (R79, U4). Safe: the spec
  gives no meaning. -/
  | coordinateOverflow
  /-- Raised by READ_COMMAND with `n` = 0 (R143, U5). Safe: the spec gives no meaning. -/
  | zeroSamples
  deriving DecidableEq, Repr

namespace State

/-- The latches before the first request (R40: unspecified; log 2). -/
def latchesAtReset : Latches :=
  { op := 0, fmt := 0, opc := 0, mode := 0, len := 0, a0 := 0, a1 := 0, x := 0, y := 0, wd := 0, ht := 0,
    p1 := { r := 0, g := 0, b := 0 }, p2 := { r := 0, g := 0, b := 0 }, has2 := 0 }

/-- The ghost state before the first request (R33 to R36, R40; `DEVWIN` is unspecified, log 2). -/
def ghostAtReset : Ghost :=
  { phase := .unknown, devFmt := .unknown, devWin := { c0 := 0, c1 := 0, p0 := 0, p1 := 0 }, owed := none,
    opcode := none, args := [], mark := .raw, frag := 0 }

/-- `DDIR` before the first request: hardwired to ones on output-only pins (R26, R95), else unspecified
(log 2). -/
def ddirAtReset (c : Config) : Word :=
  match c.pinVariant with
  | .bidirectional => 0
  | .outputOnly => BitVec.ofNat 32 (2 ^ c.width.bits - 1)

/-- The block with parameters `c` right after its hardware reset (R40, R43, R220). `INITED`, `BUSY`, `STATUS`,
`SEQ` and the ghost elements but `DEVWIN` have the values of R40; the others are unspecified there and
have the values of log 2. -/
def resetOf (c : Config) : State :=
  { cfg := c
    pixFmt := .rgb565
    cs := true
    dcx := false
    rdx := true
    wrx := true
    resx := false
    dout := 0
    ddir := ddirAtReset c
    inited := false
    busy := false
    status := .ok
    seq := none
    lat := latchesAtReset
    enc := []
    ghost := ghostAtReset
    pending := []
    plWords := []
    rdMore := []
    rdWords := []
    sample := 0
    faults := []
    levels := []
    draws := 0
    trace := []
    captured := [] }

/-- The machine right after reset: the block with an 8-bit parallel bus and bidirectional pins (log 1). -/
def reset : State := resetOf (Config.standard .parallel8 .bidirectional)

end State

end Sys2Proof.Machine
end

