-- ==== Sys2Proof/Machine/Flags.lean ====
section
/-! DEFINITION. The flags: the codes of `STATUS` and `PIXFMT`, and what the end of a request does to `BUSY`, `SEQ`
and `STATUS`. The block has no arithmetic condition codes (R32). -/

namespace Sys2Proof.Machine

/-- The status code on `rsp_status` (R190). -/
def Status.code : Status → BitVec 3
  | .ok => 0
  | .busWriteError => 1
  | .busReadError => 2
  | .invalidFormatError => 3
  | .dataFormatNotImplemented => 4
  | .inputNotAvailable => 5

/-- The bit stored in `PIXFMT` (R20). -/
def PixFmt.code : PixFmt → BitVec 1
  | .rgb565 => 0
  | .rgb666 => 1

/-- The format the device is told with a tag. -/
def PixFmt.dev : PixFmt → DevFmt
  | .rgb565 => .rgb565
  | .rgb666 => .rgb666

/-- The level of DCX in a transaction: low is Command, high is Data (R12). -/
def dcxLevel : Mode → Level
  | .command => false
  | .data => true

/-- The mode tag of a level of DCX (R11). -/
def modeOfLevel (dcx : Level) : Mode := if dcx then .data else .command

/-- The level that `req_valid` has (R71). -/
def State.reqValid (s : State) : Bool := !s.pending.isEmpty

/-- `rsp_status` equals `STATUS` (R71). -/
def State.rspStatus (s : State) : BitVec 3 := s.status.code

/-- The end of a request (R32, R196): the status is stored, the block is idle, the streams of the request
are gone, and the trace gets `Done(status)`. -/
def State.complete (st : Status) (s : State) : State :=
  { s with
    status := st
    busy := false
    seq := none
    plWords := []
    rdMore := []
    trace := .done st :: s.trace }

end Sys2Proof.Machine
end

