-- ==== Sys2Proof/Decode.lean ====
section
/-! DEFINITION. The decoder of presented instructions (R70 to R78, R82, R86), the encoder written from the same
tables, and the reading of a word of the opcode table. -/

namespace Sys2Proof

/-- What the decoder makes of a presented instruction: an instruction, or a reserved selector, by name
(R82). -/
inductive Decoded where
  | instr (i : Instr)
  | reservedSelector (op : BitVec 4)
  deriving DecidableEq, Repr

/-! ## Operand assembly -/

/-- `c[15:8]` (R78). -/
def hiByte (c : Coord) : Byte := (c >>> 8).setWidth 8

/-- `c[7:0]` (R78). -/
def loByte (c : Coord) : Byte := c.setWidth 8

/-- The coordinate whose bytes are `hi` and `lo`, most significant first (R53). -/
def coordOfBytes (hi lo : Byte) : Coord := hi.setWidth 16 <<< 8 ||| lo.setWidth 16

/-- The four parameter bytes of wire commands 0x2A and 0x2B (R78). -/
def coordBytes (a0 a1 : Coord) : List Byte := [hiByte a0, loByte a0, hiByte a1, loByte a1]

/-- A pixel field of the request port: red in bits 23 to 16 (R71). -/
def pixelOfField (f : BitVec 24) : Pixel :=
  { r := (f >>> 16).setWidth 8, g := (f >>> 8).setWidth 8, b := f.setWidth 8 }

/-- The port field of a pixel (R71). -/
def fieldOfPixel (p : Pixel) : BitVec 24 :=
  p.r.setWidth 24 <<< 16 ||| p.g.setWidth 24 <<< 8 ||| p.b.setWidth 24

/-- `req_mode`: 0 is Command, 1 is Data (R71). -/
def modeOfField (m : BitVec 1) : Mode := if m = 1#1 then .data else .command

/-- The port field of a mode (R71). -/
def fieldOfMode : Mode → BitVec 1
  | .command => 0#1
  | .data => 1#1

/-- The optional second pixel: present when `req_has2` is 1 (R71, R127). -/
def secondPixel (has2 : BitVec 1) (f : BitVec 24) : Option Pixel :=
  if has2 = 1#1 then some (pixelOfField f) else none

/-- A request port on which every field is 0 and nothing is streamed. -/
def PortRequest.zero : PortRequest :=
  { op := 0, fmt := 0, opc := 0, mode := 0, len := 0, a0 := 0, a1 := 0, x := 0, y := 0, w := 0, h := 0,
    p1 := 0, p2 := 0, has2 := 0, payload := [], answers := [] }

/-! ## The decoder -/

/-- The selector map (R74): the match is on all four bits, the fields a request does not use are ignored
(R85), and 0xD to 0xF are reserved (R82). -/
def decodePort (r : PortRequest) : Decoded :=
  match r.op.toNat with
  | 0x0 => .instr (.init r.fmt)
  | 0x1 => .instr (.writeCommand r.opc r.len)
  | 0x2 => .instr (.readCommand r.opc r.len)
  | 0x3 => .instr (.setPixelFormat r.fmt)
  | 0x4 => .instr (.columnAddressSet r.a0 r.a1)
  | 0x5 => .instr (.pageAddressSet r.a0 r.a1)
  | 0x6 => .instr (.writePixels (pixelOfField r.p1) (secondPixel r.has2 r.p2))
  | 0x7 => .instr (.writeRepeatedPixel (pixelOfField r.p1) r.len)
  | 0x8 => .instr (.drawPixel r.x r.y (pixelOfField r.p1))
  | 0x9 => .instr (.drawRect r.x r.y r.w r.h (pixelOfField r.p1))
  | 0xA => .instr .clearScreen
  | 0xB => .instr (.busWrite (modeOfField r.mode) r.len)
  | 0xC => .instr .busRead
  | _ => .reservedSelector r.op

/-- The wire opcodes without parameters (R76). -/
def decodePlainWire (opc : Byte) : Instr :=
  if opc = 0x00 then .cmdNop
  else if opc = 0x01 then .cmdSoftwareReset
  else if opc = 0x11 then .cmdSleepOut
  else if opc = 0x13 then .cmdNormalDisplayMode
  else if opc = 0x20 then .cmdDisplayInversionOff
  else if opc = 0x29 then .cmdDisplayOn
  else if opc = 0x2C then .cmdMemoryWrite
  else if opc = 0x38 then .cmdIdleModeOff
  else .writeCommand opc 0

/-- The wire-opcode map (R76). An opcode outside the twelve, or one with another number of parameter
bytes, is the plain WRITE_COMMAND it expands to: no wire opcode is reserved (R65, R85, U20). -/
def decodeWire (opc : Byte) (params : List Byte) : Instr :=
  match params with
  | [] => decodePlainWire opc
  | [b] =>
    if opc = 0x36 then .cmdMemoryAccessControl b
    else if opc = 0x3A then .cmdInterfacePixelFormat b
    else .writeCommand opc 1
  | [b0, b1, b2, b3] =>
    if opc = 0x2A then .cmdColumnAddressSet (coordOfBytes b0 b1) (coordOfBytes b2 b3)
    else if opc = 0x2B then .cmdPageAddressSet (coordOfBytes b0 b1) (coordOfBytes b2 b3)
    else .writeCommand opc 4
  | _ => .writeCommand opc (BitVec.ofNat 32 params.length)

/-- The decoder: total on everything that can be presented. -/
def decode : Presented → Decoded
  | .port r => decodePort r
  | .wire opc params => .instr (decodeWire opc params)

/-! ## The encoder -/

/-- The presented form of an instruction, every unused field 0 (R74, R76). -/
def encode : Instr → Presented
  | .init fmt => .port { PortRequest.zero with op := 0x0, fmt := fmt }
  | .writeCommand opc len => .port { PortRequest.zero with op := 0x1, opc := opc, len := len }
  | .readCommand opc len => .port { PortRequest.zero with op := 0x2, opc := opc, len := len }
  | .setPixelFormat fmt => .port { PortRequest.zero with op := 0x3, fmt := fmt }
  | .columnAddressSet a0 a1 => .port { PortRequest.zero with op := 0x4, a0 := a0, a1 := a1 }
  | .pageAddressSet a0 a1 => .port { PortRequest.zero with op := 0x5, a0 := a0, a1 := a1 }
  | .writePixels p1 none => .port { PortRequest.zero with op := 0x6, p1 := fieldOfPixel p1 }
  | .writePixels p1 (some p2) =>
    .port { PortRequest.zero with op := 0x6, p1 := fieldOfPixel p1, p2 := fieldOfPixel p2, has2 := 1 }
  | .writeRepeatedPixel p1 len => .port { PortRequest.zero with op := 0x7, p1 := fieldOfPixel p1, len := len }
  | .drawPixel x y p1 => .port { PortRequest.zero with op := 0x8, x := x, y := y, p1 := fieldOfPixel p1 }
  | .drawRect x y w h p1 =>
    .port { PortRequest.zero with op := 0x9, x := x, y := y, w := w, h := h, p1 := fieldOfPixel p1 }
  | .clearScreen => .port { PortRequest.zero with op := 0xA }
  | .busWrite mode len => .port { PortRequest.zero with op := 0xB, mode := fieldOfMode mode, len := len }
  | .busRead => .port { PortRequest.zero with op := 0xC }
  | .cmdNop => .wire 0x00 []
  | .cmdSoftwareReset => .wire 0x01 []
  | .cmdSleepOut => .wire 0x11 []
  | .cmdNormalDisplayMode => .wire 0x13 []
  | .cmdDisplayInversionOff => .wire 0x20 []
  | .cmdDisplayOn => .wire 0x29 []
  | .cmdColumnAddressSet a0 a1 => .wire 0x2A (coordBytes a0 a1)
  | .cmdPageAddressSet a0 a1 => .wire 0x2B (coordBytes a0 a1)
  | .cmdMemoryWrite => .wire 0x2C []
  | .cmdMemoryAccessControl m => .wire 0x36 [m]
  | .cmdIdleModeOff => .wire 0x38 []
  | .cmdInterfacePixelFormat b => .wire 0x3A [b]

/-! ## Words of the opcode table -/

/-- How many parameter bytes the table's wire command has (R76). -/
def tableParams (opc : Nat) : Nat :=
  match opc with
  | 0x2A => 4
  | 0x2B => 4
  | 0x36 => 1
  | 0x3A => 1
  | _ => 0

/-- The instruction a word of the opcode table stands for, as it is presented. A REQ row is a 4-bit
selector and a CMD row an 8-bit opcode, and the table numbers both from bit 0. A word below 0x10 is
therefore read as a selector: in a whole byte the words 0x00 and 0x01 of CMD.NOP and CMD.SOFTWARE_RESET
are the words of INIT and WRITE_COMMAND (log 3). Operands are 0, streamed operands too (a 0 on `rd_more`
is "stop"). -/
def presentTableWord (nbits w : Nat) : Option Presented :=
  if nbits < 8 ∨ w < 0x10 then
    some (.port { PortRequest.zero with op := BitVec.ofNat 4 w, answers := [false] })
  else if w < 0x100 then
    some (.wire (BitVec.ofNat 8 w) (List.replicate (tableParams w) 0))
  else none

/-- The instruction the decoder reads from a word of the opcode table. -/
def decodeTableWord (nbits w : Nat) : Option Instr :=
  match presentTableWord nbits w with
  | none => none
  | some p =>
    match decode p with
    | .instr i => some i
    | .reservedSelector _ => none

end Sys2Proof
end

