-- ==== Sys2Proof/Machine/Operands.lean ====
section
/-! DEFINITION. Operand forms: bus words, the format operand, coordinates of a rectangle, and the pixel encoder of
file 42_pixel.md. -/

namespace Sys2Proof.Machine

/-! ## Bus words -/

/-- `zext_W` of a byte: the byte in bits 7 to 0, zeros above (R54, R75). -/
def wordOfByte (b : Byte) : Word := b.setWidth 32

/-- The byte in bits 7 to 0 of a word (R54). -/
def byteOfWord (w : Word) : Byte := w.setWidth 8

/-- The word in which the bits 0 to `n-1` are 1. -/
def lowOnes (n : Nat) : Word := BitVec.ofNat 32 (2 ^ n - 1)

/-- The `W` bits of a word that reach pins (R7). -/
def busWord (w : Width) (v : Word) : Word := v &&& lowOnes w.bits

/-- A word with bit `i` set to a level. -/
def setBit (v : Word) (i : Nat) (level : Level) : Word :=
  if level then v ||| 1#32 <<< i else v &&& ~~~(1#32 <<< i)

/-! ## The format operand -/

/-- The format operand: the parameter byte of wire command 0x3A and the tag stored in `PIXFMT` (R77); any
other value is none (R83). -/
def formatOf (fmt : BitVec 3) : Option (Byte × PixFmt) :=
  match fmt.toNat with
  | 5 => some (0x55, .rgb565)
  | 6 => some (0x66, .rgb666)
  | _ => none

/-! ## Rectangles -/

/-- `w` = 0 or `h` = 0: no rectangle (R79, U3). -/
def emptyRect (w h : Coord) : Bool := w == 0 || h == 0

/-- `start + extent - 1` lies above 0xFFFF (R79, U4). -/
def spanOverflows (start extent : Coord) : Bool := decide (0xFFFF < start.toNat + extent.toNat - 1)

/-- `start + extent - 1` (R79), for a span that does not overflow. -/
def spanEnd (start extent : Coord) : Coord := start + extent - 1

/-- `N = w * h` without wrap-around (R80). -/
def pixelCount (w h : Coord) : Nat := w.toNat * h.toNat

/-! ## The pixel encoder -/

/-- A channel as an integer wide enough for every shift of the encoder (R133). -/
def chan (c : Byte) : Word := c.setWidth 32

/-- `Enc565_8` (R121), or the source's printed formula (R134). -/
def enc565w8 (pack : Pack565) (p : Pixel) : List Word :=
  let green := match pack with
    | .consistent => (chan p.g >>> 3) &&& 0x07#32
    | .sourceLiteral => (chan p.g >>> 2) &&& 0x07#32
  [ ((chan p.r &&& 0x1F#32) <<< 3) ||| green,
    ((chan p.g <<< 5) &&& 0xE0#32) ||| (chan p.b &&& 0x1F#32) ]

/-- `Enc565_16` (R122), or the source's printed formula (R134). -/
def enc565w16 (pack : Pack565) (p : Pixel) : List Word :=
  match pack with
  | .consistent =>
    [ ((chan p.r &&& 0x1F#32) <<< 11) ||| ((chan p.g &&& 0x3F#32) <<< 5) ||| (chan p.b &&& 0x1F#32) ]
  | .sourceLiteral =>
    [ ((chan p.r &&& 0x1F#32) <<< 10) ||| ((chan p.g &&& 0x3F#32) <<< 4) ||| (chan p.b &&& 0x1F#32) ]

/-- `Enc666_8` (R123). -/
def enc666w8 (p : Pixel) : List Word :=
  [ (chan p.r <<< 2) &&& 0xFF#32, (chan p.g <<< 2) &&& 0xFF#32, (chan p.b <<< 2) &&& 0xFF#32 ]

/-- `Enc666_16` of one pixel: the second pixel is zero and two words are emitted (R124). -/
def enc666w16 (p : Pixel) : List Word :=
  [ ((chan p.r &&& 0x3F#32) <<< 10) ||| ((chan p.g &&& 0x3F#32) <<< 2), (chan p.b &&& 0x3F#32) <<< 10 ]

/-- `Enc666_16` of two pixels: three words that share a word boundary (R124). -/
def enc666w16Pair (p q : Pixel) : List Word :=
  [ ((chan p.r &&& 0x3F#32) <<< 10) ||| ((chan p.g &&& 0x3F#32) <<< 2),
    ((chan p.b &&& 0x3F#32) <<< 10) ||| ((chan q.r &&& 0x3F#32) <<< 2),
    ((chan q.g &&& 0x3F#32) <<< 10) ||| ((chan q.b &&& 0x3F#32) <<< 2) ]

/-- `Enc666_18` (R125). -/
def enc666w18 (p : Pixel) : List Word :=
  [ ((chan p.r &&& 0x3F#32) <<< 12) ||| ((chan p.g &&& 0x3F#32) <<< 6) ||| (chan p.b &&& 0x3F#32) ]

/-- `Encode(fmt, W, P1)` (R126); none is `DataFormatNotImplemented` (R84). -/
def encodeOne (pack : Pack565) (fmt : PixFmt) (w : Width) (p : Pixel) : Option (List Word) :=
  match fmt, w with
  | .rgb565, .w8 => some (enc565w8 pack p)
  | .rgb565, .w16 => some (enc565w16 pack p)
  | .rgb565, .w18 => none
  | .rgb666, .w8 => some (enc666w8 p)
  | .rgb666, .w16 => some (enc666w16 p)
  | .rgb666, .w18 => some (enc666w18 p)

/-- `Encode(fmt, W, P1, P2)` (R126). Only `Rgb666` on 16 bits packs across the pixel boundary. -/
def encodeTwo (pack : Pack565) (fmt : PixFmt) (w : Width) (p q : Pixel) : Option (List Word) :=
  match fmt, w with
  | .rgb565, .w8 => some (enc565w8 pack p ++ enc565w8 pack q)
  | .rgb565, .w16 => some (enc565w16 pack p ++ enc565w16 pack q)
  | .rgb565, .w18 => none
  | .rgb666, .w8 => some (enc666w8 p ++ enc666w8 q)
  | .rgb666, .w16 => some (enc666w16Pair p q)
  | .rgb666, .w18 => some (enc666w18 p ++ enc666w18 q)

/-- `Encode(fmt, W, P1, P2?)` (R126). -/
def encodePixels (pack : Pack565) (fmt : PixFmt) (w : Width) (p1 : Pixel) (p2 : Option Pixel) :
    Option (List Word) :=
  match p2 with
  | none => encodeOne pack fmt w p1
  | some q => encodeTwo pack fmt w p1 q

/-! ## Bursts: words with what the monitor must know of each (log 9) -/

/-- Words of their own: an opcode, parameter bytes, payload elements. -/
def rawBurst (ws : List Word) : List (Mark × Word) := ws.map fun w => (Mark.raw, w)

/-- The words of one pixel, which is complete with the last of them. -/
def onePixelBurst : List Word → List (Mark × Word)
  | [] => []
  | [w] => [(Mark.pixels 1, w)]
  | w :: ws => (Mark.pixels 0, w) :: onePixelBurst ws

/-- The words of two pixels. Where the two are sent independently the first is complete halfway; in the
shared form of `Rgb666` on 16 bits the first is complete with the word it shares. -/
def twoPixelBurst (fmt : PixFmt) (w : Width) (ws : List Word) : List (Mark × Word) :=
  match fmt, w, ws with
  | .rgb666, .w16, [w0, w1, w2] => [(Mark.pixels 0, w0), (Mark.pixels 1, w1), (Mark.pixels 1, w2)]
  | _, _, _ =>
    onePixelBurst (ws.take (ws.length / 2)) ++ onePixelBurst (ws.drop (ws.length / 2))

/-- The burst of one or two encoded pixels. -/
def pixelBurst (fmt : PixFmt) (w : Width) (p2 : Option Pixel) (ws : List Word) : List (Mark × Word) :=
  match p2 with
  | none => onePixelBurst ws
  | some _ => twoPixelBurst fmt w ws

end Sys2Proof.Machine
end

