-- ==== Sys2Proof/Machine/Monitor.lean ====
section
/-! DEFINITION. The monitor: the captured word stream (R11) and the ghost state it updates (R33 to R36, R150 to
R161). ASSUMED of the device (D25, log 9). No rule of the block reads what it writes. -/

namespace Sys2Proof.Machine

/-- `(c1-c0+1) * (p1-p0+1)` (R36); a free value where an end lies below its start (log 8). -/
def windowCount (w : DevWin) : Int :=
  if w.c0.toNat ≤ w.c1.toNat ∧ w.p0.toNat ≤ w.p1.toNat then
    ((w.c1.toNat - w.c0.toNat + 1) * (w.p1.toNat - w.p0.toNat + 1) : Nat)
  else Config.freeWindowCount w.c0 w.c1 w.p0 w.p1

/-- `PHASE` after the opcode of a wire command (R150 to R158, R160). -/
def phaseAfter (opc : Byte) (phase : Phase) : Phase :=
  if opc = 0x01 then .reset
  else if opc = 0x11 then .sleepOut
  else if opc = 0x13 then .normalDisplay
  else if opc = 0x29 then .displayOn
  else phase

/-- A captured Command word: an opcode starts a new wire command (R150 to R161). -/
def Ghost.command (g : Ghost) (opc : Byte) : Ghost :=
  { g with
    phase := phaseAfter opc g.phase
    devFmt := if opc = 0x01 then .unknown else g.devFmt
    owed := if opc = 0x2C then some (windowCount g.devWin) else none
    opcode := some opc
    args := []
    frag := 0 }

/-- The format the device is told with a parameter byte of 0x3A (R161). -/
def devFmtOf (param : Byte) : DevFmt :=
  if param = 0x55 then .rgb565
  else if param = 0x66 then .rgb666
  else .unknown

/-- `DEVWIN` after these parameters of a wire command: an address command is fully sent with its fourth (R35; log 9). -/
def devWinAfter (opc : Byte) (args : List Byte) (win : DevWin) : DevWin :=
  match args with
  | [b0, b1, b2, b3] =>
    if opc = 0x2A then { win with c0 := coordOfBytes b0 b1, c1 := coordOfBytes b2 b3 }
    else if opc = 0x2B then { win with p0 := coordOfBytes b0 b1, p1 := coordOfBytes b2 b3 }
    else win
  | _ => win

/-- A captured parameter byte. The format command is fully sent with its first parameter (R33, R34; log 9); parameters
after the fourth matter to no record. -/
def Ghost.parameter (g : Ghost) (opc : Byte) (b : Byte) : Ghost :=
  if g.args.length < 4 then
    { g with
      args := g.args ++ [b]
      devWin := devWinAfter opc (g.args ++ [b]) g.devWin
      phase := if opc = 0x3A ∧ g.args = [] then .formatSet else g.phase
      devFmt := if opc = 0x3A ∧ g.args = [] then devFmtOf b else g.devFmt }
  else g

/-- How many raw words make one pixel for the device, where the spec says so: not for a format it was not
told, not for `Rgb565` on 18 bits (R84), not for `Rgb666` on 16 bits, where pairs share words (R60, R234). -/
def rawWordsPerPixel (fmt : DevFmt) (w : Width) : Option Nat :=
  match fmt, w with
  | .rgb565, .w8 => some 2
  | .rgb565, .w16 => some 1
  | .rgb565, .w18 => none
  | .rgb666, .w8 => some 3
  | .rgb666, .w16 => none
  | .rgb666, .w18 => some 1
  | .unknown, _ => none

/-- A captured word of the pixel stream, with `k` pixels owed before it (R36, R158). `free` answers where the
spec does not let the pixels of raw words be counted (log 7). DESIGN CHOICE (log 9): the spec does not say how pixels
count where words of the encoder follow raw words of an unfinished pixel in one stream; the encoder's pixel is counted
whole, and the raw fragment stays open for later raw words. -/
def Ghost.pixelWord (g : Ghost) (w : Width) (free : Int) (k : Int) : Ghost :=
  match g.mark with
  | .pixels n => { g with owed := some (k - n) }
  | .raw =>
    match rawWordsPerPixel g.devFmt w with
    | none => { g with owed := some free }
    | some n =>
      if g.frag + 1 = n then { g with owed := some (k - 1), frag := 0 } else { g with frag := g.frag + 1 }

/-- A captured Data word: a word of the pixel stream while pixels are owed (or too many were sent), else a
parameter of the opcode captured last. -/
def Ghost.data (g : Ghost) (w : Width) (free : Int) (v : Word) : Ghost :=
  match g.owed with
  | some k => g.pixelWord w free k
  | none =>
    match g.opcode with
    | none => g
    | some opc => g.parameter opc (byteOfWord v)

/-- The device captures a word: it joins the captured word stream (R11), and the monitor notes it. -/
def State.capture (m : Mode) (v : Word) (s : State) : State :=
  match m with
  | .command =>
    { s with captured := (m, v) :: s.captured, ghost := s.ghost.command (byteOfWord v) }
  | .data =>
    { s with
      captured := (m, v) :: s.captured
      ghost := s.ghost.data s.cfg.width (Config.freeOwed s.draws) v
      draws := s.draws + 1 }

/-- The monitor's note after the reset pulse of INIT (R33, R171). -/
def State.noteDeviceReset (s : State) : State :=
  { s with ghost := { s.ghost with
      phase := .reset, devFmt := .unknown, owed := none, opcode := none, args := [], frag := 0 } }

/-- The monitor's note after a format command that did not end well (R146). -/
def State.noteFormatLost (s : State) : State :=
  { s with ghost := { s.ghost with devFmt := .unknown } }

/-! ## Views of the trace -/

/-- The read pulse count (R11): the number of events `Set(RDX, 0)`. -/
def readPulses (t : List Event) : Nat := t.countP fun e => e == .set .rdx false

/-- The number of pin operations: `Set`, `Mode` and `Get` events. -/
def pinOperations (t : List Event) : Nat :=
  t.countP fun e =>
    match e with
    | .mode _ _ => true
    | .set _ _ => true
    | .get _ _ => true
    | .delay _ => false
    | .done _ => false
    | .serialWrite _ _ => false
    | .serialRead _ => false

end Sys2Proof.Machine
end

