-- ==== Sys2Proof/Machine/Ops.lean ====
section
/-! DEFINITION. The named operations of the block: the pin operations, transactions as sequences of them, taking an
error, acceptance of a request, and the sequences the requests share. -/

namespace Sys2Proof.Machine

/-! ## Micro-operations -/

/-- The smallest steps of a request (R3): the pin operations and the delay, and four steps of the model that are
no event. -/
inductive MicroOp where
  /-- `PinMode(D[i], dir)` (R91). -/
  | mode (i : Nat) (dir : Dir)
  /-- `PinSet(p, level)` (R92). -/
  | set (p : Pin) (level : Level)
  /-- `PinGet(D[i])` into bit `i` of the sample (R93, R107). -/
  | get (i : Nat)
  /-- `Delay(us)` (R205). -/
  | delay (us : Nat)
  /-- The monitor is told what the word about to be driven is. -/
  | mark (m : Mark)
  /-- The sample buffer is emptied before a read transaction. -/
  | clearSamples
  /-- The assembled sample is handed over (R107). -/
  | deliver
  /-- A write transaction on a serial bus, as one opaque event (R113). -/
  | serialWrite (mode : Mode) (burst : List (Mark × Word))
  /-- A read transaction of `k` samples on a serial bus, as one opaque event (R113). -/
  | serialRead (k : Nat)
  deriving DecidableEq, Repr

/-- The operation asks the pin provider, which may answer with a fault (R91 to R93, U8). On a serial bus a whole
transaction is one such question (log 10). -/
def MicroOp.mayFault : MicroOp → Bool
  | .mode _ _ => true
  | .set _ _ => true
  | .get _ => true
  | .delay _ => false
  | .mark _ => false
  | .clearSamples => false
  | .deliver => false
  | .serialWrite _ _ => true
  | .serialRead _ => true

/-- The operation asks a data pin to become an input. -/
def MicroOp.wantsInput : MicroOp → Bool
  | .mode _ .input => true
  | _ => false

/-- An event joins the trace, and `SEQ` counts it (R11, R27). -/
def State.emit (e : Event) (s : State) : State :=
  { s with trace := e :: s.trace, seq := s.seq.map (· + 1) }

/-- The latch of a pin takes a level (R92). A rising edge of WRX while the device is selected captures the
word on the data pins (R11). -/
def State.setPin (p : Pin) (level : Level) (s : State) : State :=
  match p with
  | .cs => { s with cs := level }
  | .dcx => { s with dcx := level }
  | .rdx => { s with rdx := level }
  | .wrx =>
    if level && !s.wrx && !s.cs then
      { s.capture (modeOfLevel s.dcx) (busWord s.cfg.width s.dout) with wrx := level }
    else { s with wrx := level }
  | .resx => { s with resx := level }
  | .d i => { s with dout := setBit s.dout i level }

/-- The direction of a data pin changes (R91). -/
def State.setDir (i : Nat) (dir : Dir) (s : State) : State :=
  { s with ddir := setBit s.ddir i (dir == .output) }

/-- The level the device drives on a data pin now (R93, U7): the next input, or a free value (log 5). -/
def State.nextLevel (s : State) : Level :=
  match s.levels with
  | l :: _ => l
  | [] => Config.freeLevel s.draws

/-- That level is used up. -/
def State.dropLevel (s : State) : State :=
  match s.levels with
  | _ :: ls => { s with levels := ls }
  | [] => { s with draws := s.draws + 1 }

/-- Bit `i` of the sample takes the level of `D[i]` (R107). -/
def State.senseBit (i : Nat) (s : State) : State :=
  { s.dropLevel with sample := setBit s.sample i s.nextLevel }

/-- The sample is handed over (R107), and the next one starts from 0. -/
def State.deliver (s : State) : State :=
  { s with rdWords := s.rdWords ++ [s.sample], sample := 0 }

/-- The sample buffer is empty before a read transaction (R143). -/
def State.clearSamples (s : State) : State := { s with rdWords := [], sample := 0 }

/-- The `W` bits of one sample. -/
def State.senseWord (bits : Nat) (s : State) : State :=
  (List.range bits).foldl (fun t i => t.senseBit i) s

/-- The monitor is told what the word about to be driven is. -/
def State.noteMark (k : Mark) (s : State) : State := { s with ghost := { s.ghost with mark := k } }

/-- The device captures every word of a burst on a serial bus. -/
def State.captureBurst (m : Mode) : List (Mark × Word) → State → State
  | [], s => s
  | kv :: rest, s => State.captureBurst m rest ((s.noteMark kv.1).capture m (busWord s.cfg.width kv.2))

/-- `k` samples are taken on a serial bus. -/
def State.senseSamples (bits : Nat) : Nat → State → State
  | 0, s => s
  | k + 1, s => State.senseSamples bits k (s.senseWord bits).deliver

/-- What a micro-operation does when it does not fault. -/
def MicroOp.effect (op : MicroOp) (s : State) : State :=
  match op with
  | .mode i dir => (s.setDir i dir).emit (.mode i dir)
  | .set p level => (s.setPin p level).emit (.set p level)
  | .get i => (s.senseBit i).emit (.get i s.nextLevel)
  | .delay us => s.emit (.delay us)
  | .mark m => s.noteMark m
  | .clearSamples => s.clearSamples
  | .deliver => s.deliver
  | .serialWrite m burst => (s.captureBurst m burst).emit (.serialWrite m (burst.map Prod.snd))
  | .serialRead k =>
    let t := s.senseSamples s.cfg.width.bits k
    t.emit (.serialRead t.rdWords)

/-! ## Running them -/

/-- How far a request has come: it goes on, an error was raised, or it waits for an input that never
comes (U13). -/
inductive Progress where
  | going (s : State)
  | raised (e : Status) (s : State)
  | stalled (s : State)
  deriving DecidableEq, Repr

/-- The next part of a request runs only while the request goes on (R196). -/
def Progress.bind (p : Progress) (f : State → Progress) : Progress :=
  match p with
  | .going s => f s
  | .raised e s => .raised e s
  | .stalled s => .stalled s

/-- One micro-operation, in a part of the request where a pin fault is reported as `err` (R97). On output-only
pins the wish for an input fails before the pin provider is asked (R91, R95). -/
def MicroOp.perform (err : Status) (op : MicroOp) (s : State) : Progress :=
  if op.wantsInput && s.cfg.pinVariant == .outputOnly then .raised .inputNotAvailable s
  else if op.mayFault then
    match s.faults with
    | [] => .going (op.effect s)
    | 0 :: rest => .raised err { s with faults := rest }
    | (k + 1) :: rest => .going (op.effect { s with faults := k :: rest })
  else .going (op.effect s)

/-- Micro-operations one after another (R67, R96), up to the first that raises an error (R110). -/
def runOps (err : Status) : List MicroOp → State → Progress
  | [], s => .going s
  | op :: ops, s => (op.perform err s).bind (runOps err ops)

/-- The same part of a request `n` times. -/
def repeatOp (f : State → Progress) : Nat → State → Progress
  | 0, s => .going s
  | n + 1, s => (f s).bind (repeatOp f n)

/-! ## The end of a request -/

/-- TAKING AN ERROR, `raise E` (R196): nothing more is done, the latches, `DDIR` and `PIXFMT` keep the values
they have, the code is stored, the block is idle, and the requester is told. There is no handler, no vector,
no saved position and no way back (R197, R200). -/
def State.raise (e : Status) (s : State) : State := s.complete e

/-- `Done(OK)`. -/
def State.finish (s : State) : State := s.complete .ok

/-- The state in which a request leaves the block. A request that waits for ever leaves it at `BUSY` = 1
(R207). -/
def Progress.settle : Progress → State
  | .going s => s.finish
  | .raised e s => s.raise e
  | .stalled s => s

/-! ## Transactions as sequences of pin operations -/

/-- Step 1 and step 2 of the write protocol (R101). -/
def openWrite (m : Mode) : List MicroOp :=
  [.set .rdx true, .set .wrx true, .set .cs false, .set .dcx (dcxLevel m)]

/-- The data pins take the word, pin by pin in ascending order, each switched to output first (R101). -/
def driveWord (bits : Nat) (v : Word) : List MicroOp :=
  (List.range bits).flatMap fun i => [.mode i .output, .set (.d i) (v.getLsbD i)]

/-- Step 3 of the write protocol for one word (R101, R104). -/
def sendWord (bits : Nat) (kv : Mark × Word) : List MicroOp :=
  .mark kv.1 :: (driveWord bits kv.2 ++ [.set .wrx false, .set .wrx true])

/-- Step 4 of the write protocol (R101, R103). -/
def closeWrite (m : Mode) : List MicroOp :=
  [.set .dcx (!dcxLevel m), .set .wrx true, .set .cs true]

/-- The write protocol up to the last word of the burst. -/
def writeWords (bits : Nat) (m : Mode) (burst : List (Mark × Word)) : List MicroOp :=
  openWrite m ++ burst.flatMap (sendWord bits)

/-- `BusWrite(mode, words)` (R101). A write of zero words performs no pin operation at all (R105). -/
def writeOps (c : Config) (m : Mode) (burst : List (Mark × Word)) : List MicroOp :=
  if burst.isEmpty then []
  else if c.isSerial then [.serialWrite m burst]
  else writeWords c.width.bits m burst ++ closeWrite m

/-- The opening of the read protocol (R106): DCX is high throughout, and the data pins become inputs once. -/
def openRead (bits : Nat) : List MicroOp :=
  [.set .rdx true, .set .wrx true, .set .cs false, .set .dcx true]
    ++ (List.range bits).map fun i => .mode i .input

/-- One read pulse and its sample (R106, R107). -/
def readSample (bits : Nat) : List MicroOp :=
  .set .rdx false :: ((List.range bits).map .get ++ [.set .rdx true, .deliver])

/-- The closing of the read protocol (R106). -/
def closeRead : List MicroOp := [.set .dcx false, .set .rdx true, .set .cs true]

/-- The read protocol up to the `k`-th sample. -/
def readSamples (bits k : Nat) : List MicroOp :=
  openRead bits ++ (List.replicate k (readSample bits)).flatten

/-- `BusRead` with a continuation that stops after `k` samples (R106, R108). -/
def readOps (c : Config) (k : Nat) : List MicroOp :=
  .clearSamples ::
    (if c.isSerial then [.serialRead k] else readSamples c.width.bits k ++ closeRead)

/-- One bus write transaction. A pin fault in it is a `BusWriteError` (R97, R191). -/
def busWrite (m : Mode) (burst : List (Mark × Word)) (s : State) : Progress :=
  runOps .busWriteError (writeOps s.cfg m burst) s

/-- One bus read transaction of `k` samples. A pin fault in it is a `BusReadError` (R97, R192). -/
def busRead (k : Nat) (s : State) : Progress :=
  runOps .busReadError (readOps s.cfg k) s

/-! ## Streamed operands -/

/-- A write transaction of `n` words streamed on `pl_word` (R73). With fewer elements the block performs the
transaction up to the last element it was given, and waits for ever (R207, R235). -/
def streamWrite (m : Mode) (n : Nat) (elems : List Word) (s : State) : Progress :=
  if n ≤ elems.length then busWrite m (rawBurst (elems.take n)) s
  else
    (runOps .busWriteError
      (if s.cfg.isSerial then [] else writeWords s.cfg.width.bits m (rawBurst elems)) s).bind .stalled

/-- How many samples a continuation with these answers lets the block take, and whether it stops (R106, R108): it
is asked after each sample, and an answer that never comes leaves the block waiting. -/
def answeredSamples : List Bool → Nat × Bool
  | [] => (1, false)
  | false :: _ => (1, true)
  | true :: rest => ((answeredSamples rest).1 + 1, (answeredSamples rest).2)

/-- `BusRead` with the continuation's answers (R106). -/
def streamRead (answers : List Bool) (s : State) : Progress :=
  if (answeredSamples answers).2 then busRead (answeredSamples answers).1 s
  else
    (runOps .busReadError
      (.clearSamples :: (if s.cfg.isSerial then [] else readSamples s.cfg.width.bits (answeredSamples answers).1))
      s).bind .stalled

/-- After a read request that ended with an error the samples are no result (R144, U10): what the requester
finds is a free value (log 6). -/
def loseSamples : Progress → Progress
  | .going s => .going s
  | .raised e s => .raised e { s with rdWords := Config.freeSamples s.draws, draws := s.draws + 1 }
  | .stalled s => .stalled s

/-! ## Sequences the requests share -/

/-- A format command that ended with an error leaves `DEVFMT` unknown (R146). -/
def noteLost (opc : Byte) : Progress → Progress
  | .going s => .going s
  | .raised e s => .raised e (if opc = 0x3A then s.noteFormatLost else s)
  | .stalled s => .stalled s

/-- A wire command (R75, R141): the opcode in a Command transaction of its own, then `n` parameters, if there are
any, in a Data transaction. -/
def sendCommand (opc : Byte) (n : Nat) (elems : List Word) (s : State) : Progress :=
  noteLost opc ((busWrite .command (rawBurst [wordOfByte opc]) s).bind (streamWrite .data n elems))

/-- A wire command whose parameters the block forms itself. -/
def sendWire (opc : Byte) (params : List Byte) (s : State) : Progress :=
  sendCommand opc params.length (params.map wordOfByte) s

/-- The format command (R146, R171): the operand is checked before its first pin operation (R83), and the tag
changes only after both transactions (R21). -/
def setFormat (fmt : BitVec 3) (s : State) : Progress :=
  match formatOf fmt with
  | none => .raised .invalidFormatError s
  | some (param, tag) => (sendWire 0x3A [param] s).bind fun t => .going { t with pixFmt := tag }

/-- `SetWindow(c0, c1, p0, p1)` (R173). -/
def setWindow (c0 c1 p0 p1 : Coord) (s : State) : Progress :=
  (sendWire 0x2A (coordBytes c0 c1) s).bind (sendWire 0x2B (coordBytes p0 p1))

/-- The pixel writer (R120, R127): one or two pixels are encoded and sent in one Data transaction. -/
def writePixelsOp (p1 : Pixel) (p2 : Option Pixel) (s : State) : Progress :=
  match encodePixels s.cfg.pack565 s.pixFmt s.cfg.width p1 p2 with
  | none => .raised .dataFormatNotImplemented s
  | some ws => busWrite .data (pixelBurst s.pixFmt s.cfg.width p2 ws) s

/-- `n` pixels of one colour in one Data transaction, encoded once into `ENC` (R129, R31). -/
def repeatPixelOp (p1 : Pixel) (n : Nat) (s : State) : Progress :=
  match encodePixels s.cfg.pack565 s.pixFmt s.cfg.width p1 none with
  | none => .raised .dataFormatNotImplemented s
  | some ws =>
    busWrite .data (List.replicate n (pixelBurst s.pixFmt s.cfg.width none ws)).flatten { s with enc := ws }

/-- `n` pixels of one colour, two at a time, the last odd one alone (R175, R176, R80). -/
def fillPixels (p1 : Pixel) (n : Nat) (s : State) : Progress :=
  (repeatOp (writePixelsOp p1 (some p1)) (n / 2) s).bind fun t =>
    if n % 2 = 1 then writePixelsOp p1 none t else .going t

/-- The window, the memory-write command and the pixels of a rectangle (R175, R177). -/
def fillRectangle (x y w h : Coord) (p1 : Pixel) (s : State) : Progress :=
  ((setWindow x (spanEnd x w) y (spanEnd y h) s).bind (sendWire 0x2C [])).bind
    (fillPixels p1 (pixelCount w h))

/-! ## Acceptance -/

/-- The request port of a presented instruction. A wire command is presented as the WRITE_COMMAND it expands to
(R86). -/
def portOf : Presented → PortRequest
  | .port r => r
  | .wire opc params =>
    { PortRequest.zero with
      op := 0x1
      opc := opc
      len := BitVec.ofNat 32 params.length
      payload := params.map wordOfByte }

/-- The fields of the request port as the operand latches take them (R29, R72). -/
def latchesOf (r : PortRequest) : Latches :=
  { op := r.op, fmt := r.fmt, opc := r.opc, mode := r.mode, len := r.len, a0 := r.a0, a1 := r.a1, x := r.x,
    y := r.y, wd := r.w, ht := r.h, p1 := pixelOfField r.p1, p2 := pixelOfField r.p2, has2 := r.has2 }

/-- ACCEPTANCE (R72): the port fields are copied into the operand latches, `BUSY` becomes 1 and `SEQ` 0; the
streams of this request stand on the streaming ports. -/
def State.accept (p : Presented) (rest : List Presented) (s : State) : State :=
  { s with
    pending := rest
    lat := latchesOf (portOf p)
    plWords := (portOf p).payload
    rdMore := (portOf p).answers
    busy := true
    seq := some 0 }

/-- Every request but INIT has a meaning only while `INITED` = 1 (R72, U1). -/
def whenInited (s : State) (f : State → State) : Host.Outcome State Fault Refusal :=
  if s.inited then .next (f s) else .refused .notInitialised

/-- A wire command as an instruction (R150 to R161). -/
def wireCommand (opc : Byte) (params : List Byte) (s : State) : Host.Outcome State Fault Refusal :=
  whenInited s fun t => (sendWire opc params t).settle

/-- DRAW_RECT over checked operands (R175, R79), shared by CLEAR_SCREEN (R149). -/
def drawRectangle (x y w h : Coord) (p1 : Pixel) (s : State) : Host.Outcome State Fault Refusal :=
  if s.inited then
    if emptyRect w h then .refused .emptyRectangle
    else if spanOverflows x w || spanOverflows y h then .refused .coordinateOverflow
    else .next (fillRectangle x y w h p1 s).settle
  else .refused .notInitialised

end Sys2Proof.Machine
end

