-- ==== Sys2Proof/Machine/Bus.lean ====
section
/-! DEFINITION. The bus requests (file 41_bus.md): BUS_WRITE and BUS_READ. -/

namespace Sys2Proof.Machine

/-- BUS_WRITE (R101): `n` streamed words of `W` bits in one transaction, none when `n` is 0 (R105). -/
def execBusWrite (mode : Mode) (len : BitVec 32) (s : State) : Host.Outcome State Fault Refusal :=
  whenInited s fun t => (streamWrite mode len.toNat (t.plWords.map (busWord t.cfg.width)) t).settle

/-- BUS_READ (R106): samples until the continuation answers "stop" (R108). -/
def execBusRead (s : State) : Host.Outcome State Fault Refusal :=
  whenInited s fun t => (loseSamples (streamRead t.rdMore t)).settle

end Sys2Proof.Machine
end

