-- ==== Sys2Proof/Machine/Command.lean ====
section
/-! DEFINITION. The command-protocol requests (file 43_command.md, R141 to R149). -/

namespace Sys2Proof.Machine

/-- WRITE_COMMAND (R141): the opcode, then `n` streamed bytes, of which 8 bits each are used (R71). -/
def execWriteCommand (opc : Byte) (len : BitVec 32) (s : State) : Host.Outcome State Fault Refusal :=
  whenInited s fun t =>
    (sendCommand opc len.toNat (t.plWords.map fun v => wordOfByte (byteOfWord v)) t).settle

/-- The opcode and the read of READ_COMMAND (R143). -/
def readAfterOpcode (opc : Byte) (n : Nat) (s : State) : Progress :=
  (busWrite .command (rawBurst [wordOfByte opc]) s).bind (busRead n)

/-- READ_COMMAND (R143): the opcode in a Command transaction, then exactly `n` samples. For `n` = 0 the spec gives
no meaning (U5). -/
def execReadCommand (opc : Byte) (len : BitVec 32) (s : State) : Host.Outcome State Fault Refusal :=
  if s.inited then
    if len == 0 then .refused .zeroSamples
    else .next (loseSamples (readAfterOpcode opc len.toNat s)).settle
  else .refused .notInitialised

/-- SET_PIXEL_FORMAT (R146). -/
def execSetPixelFormat (fmt : BitVec 3) (s : State) : Host.Outcome State Fault Refusal :=
  whenInited s fun t => (setFormat fmt t).settle

/-- COLUMN_ADDRESS_SET (R147). -/
def execColumnAddressSet (a0 a1 : Coord) (s : State) : Host.Outcome State Fault Refusal :=
  whenInited s fun t => (sendWire 0x2A (coordBytes a0 a1) t).settle

/-- PAGE_ADDRESS_SET (R148). -/
def execPageAddressSet (a0 a1 : Coord) (s : State) : Host.Outcome State Fault Refusal :=
  whenInited s fun t => (sendWire 0x2B (coordBytes a0 a1) t).settle

/-- CLEAR_SCREEN (R149): DRAW_RECT over the full panel extent with black. -/
def execClearScreen (s : State) : Host.Outcome State Fault Refusal :=
  drawRectangle 0 0 s.cfg.panelW s.cfg.panelH { r := 0, g := 0, b := 0 } s

end Sys2Proof.Machine
end

