-- ==== Sys2Proof/Machine/Facade.lean ====
section
/-! DEFINITION. The facade requests (file 44_facade.md): INIT, DRAW_PIXEL, DRAW_RECT. -/

namespace Sys2Proof.Machine

/-- The reset pulse of INIT (R171, R221). -/
def resetPulse (c : Config) : List MicroOp :=
  [.set .resx false, .delay c.tResetLowUs, .set .resx true, .delay c.tStabUs]

/-- INIT (R171): `INITED` falls, the reset pulse, the format command, and `INITED` rises only when all of it
ended well (R172). A fault on RESX is a `BusWriteError` (R97). -/
def initialiseDevice (fmt : BitVec 3) (s : State) : Progress :=
  ((runOps .busWriteError (resetPulse s.cfg) { s with inited := false }).bind fun t =>
    setFormat fmt t.noteDeviceReset).bind fun t => .going { t with inited := true }

/-- INIT (R171), the one request that is accepted while `INITED` = 0. -/
def execInit (fmt : BitVec 3) (s : State) : Host.Outcome State Fault Refusal :=
  .next (initialiseDevice fmt s).settle

/-- DRAW_PIXEL (R174): a 1×1 window, the memory-write command, one pixel. -/
def execDrawPixel (x y : Coord) (p1 : Pixel) (s : State) : Host.Outcome State Fault Refusal :=
  whenInited s fun t =>
    (((setWindow x x y y t).bind (sendWire 0x2C [])).bind (writePixelsOp p1 none)).settle

/-- DRAW_RECT (R175). -/
def execDrawRect (x y w h : Coord) (p1 : Pixel) (s : State) : Host.Outcome State Fault Refusal :=
  drawRectangle x y w h p1 s

end Sys2Proof.Machine
end

