-- ==== Sys2Proof/Machine/PixelWriter.lean ====
section
/-! DEFINITION. The pixel requests (file 42_pixel.md): WRITE_PIXELS and WRITE_REPEATED_PIXEL. -/

namespace Sys2Proof.Machine

/-- WRITE_PIXELS (R127). -/
def execWritePixels (p1 : Pixel) (p2 : Option Pixel) (s : State) : Host.Outcome State Fault Refusal :=
  whenInited s fun t => (writePixelsOp p1 p2 t).settle

/-- WRITE_REPEATED_PIXEL (R129). -/
def execWriteRepeatedPixel (p1 : Pixel) (len : BitVec 32) (s : State) : Host.Outcome State Fault Refusal :=
  whenInited s fun t => (repeatPixelOp p1 len.toNat t).settle

end Sys2Proof.Machine
end

