-- ==== Sys2Proof/Machine/Wire.lean ====
section
/-! DEFINITION. The twelve wire commands (file 43_command.md, R150 to R161), each of which is presented as one
WRITE_COMMAND (R86). None changes a register of the block. -/

namespace Sys2Proof.Machine

/-- CMD.NOP (R150). -/
def execCmdNop (s : State) : Host.Outcome State Fault Refusal := wireCommand 0x00 [] s

/-- CMD.SOFTWARE_RESET (R151): `PIXFMT` and `INITED` stay (R44). -/
def execCmdSoftwareReset (s : State) : Host.Outcome State Fault Refusal := wireCommand 0x01 [] s

/-- CMD.SLEEP_OUT (R152). -/
def execCmdSleepOut (s : State) : Host.Outcome State Fault Refusal := wireCommand 0x11 [] s

/-- CMD.NORMAL_DISPLAY_MODE (R153). -/
def execCmdNormalDisplayMode (s : State) : Host.Outcome State Fault Refusal := wireCommand 0x13 [] s

/-- CMD.DISPLAY_INVERSION_OFF (R154). -/
def execCmdDisplayInversionOff (s : State) : Host.Outcome State Fault Refusal := wireCommand 0x20 [] s

/-- CMD.DISPLAY_ON (R155). -/
def execCmdDisplayOn (s : State) : Host.Outcome State Fault Refusal := wireCommand 0x29 [] s

/-- CMD.COLUMN_ADDRESS_SET (R156). -/
def execCmdColumnAddressSet (a0 a1 : Coord) (s : State) : Host.Outcome State Fault Refusal :=
  wireCommand 0x2A (coordBytes a0 a1) s

/-- CMD.PAGE_ADDRESS_SET (R157). -/
def execCmdPageAddressSet (a0 a1 : Coord) (s : State) : Host.Outcome State Fault Refusal :=
  wireCommand 0x2B (coordBytes a0 a1) s

/-- CMD.MEMORY_WRITE (R158): the pixel stream is sent afterwards. -/
def execCmdMemoryWrite (s : State) : Host.Outcome State Fault Refusal := wireCommand 0x2C [] s

/-- CMD.MEMORY_ACCESS_CONTROL (R159): the byte is sent as given (R81). -/
def execCmdMemoryAccessControl (mask : Byte) (s : State) : Host.Outcome State Fault Refusal :=
  wireCommand 0x36 [mask] s

/-- CMD.IDLE_MODE_OFF (R160). -/
def execCmdIdleModeOff (s : State) : Host.Outcome State Fault Refusal := wireCommand 0x38 [] s

/-- CMD.INTERFACE_PIXEL_FORMAT, raw (R161): `PIXFMT` is not changed (R34). -/
def execCmdInterfacePixelFormat (param : Byte) (s : State) : Host.Outcome State Fault Refusal :=
  wireCommand 0x3A [param] s

end Sys2Proof.Machine
end

