-- ==== Sys2Proof/Machine/Dispatch.lean ====
section
/-! DEFINITION. One arm for each instruction. -/

namespace Sys2Proof.Machine

def exec (i : Instr) (s : State) : Host.Outcome State Fault Refusal :=
  match i with
  | .init fmt => Sys2Proof.Machine.execInit fmt s
  | .writeCommand opc len => Sys2Proof.Machine.execWriteCommand opc len s
  | .readCommand opc len => Sys2Proof.Machine.execReadCommand opc len s
  | .setPixelFormat fmt => Sys2Proof.Machine.execSetPixelFormat fmt s
  | .columnAddressSet a0 a1 => Sys2Proof.Machine.execColumnAddressSet a0 a1 s
  | .pageAddressSet a0 a1 => Sys2Proof.Machine.execPageAddressSet a0 a1 s
  | .writePixels p1 p2 => Sys2Proof.Machine.execWritePixels p1 p2 s
  | .writeRepeatedPixel p1 len => Sys2Proof.Machine.execWriteRepeatedPixel p1 len s
  | .drawPixel x y p1 => Sys2Proof.Machine.execDrawPixel x y p1 s
  | .drawRect x y w h p1 => Sys2Proof.Machine.execDrawRect x y w h p1 s
  | .clearScreen => Sys2Proof.Machine.execClearScreen s
  | .busWrite mode len => Sys2Proof.Machine.execBusWrite mode len s
  | .busRead => Sys2Proof.Machine.execBusRead s
  | .cmdNop => Sys2Proof.Machine.execCmdNop s
  | .cmdSoftwareReset => Sys2Proof.Machine.execCmdSoftwareReset s
  | .cmdSleepOut => Sys2Proof.Machine.execCmdSleepOut s
  | .cmdNormalDisplayMode => Sys2Proof.Machine.execCmdNormalDisplayMode s
  | .cmdDisplayInversionOff => Sys2Proof.Machine.execCmdDisplayInversionOff s
  | .cmdDisplayOn => Sys2Proof.Machine.execCmdDisplayOn s
  | .cmdColumnAddressSet a0 a1 => Sys2Proof.Machine.execCmdColumnAddressSet a0 a1 s
  | .cmdPageAddressSet a0 a1 => Sys2Proof.Machine.execCmdPageAddressSet a0 a1 s
  | .cmdMemoryWrite => Sys2Proof.Machine.execCmdMemoryWrite s
  | .cmdMemoryAccessControl mask => Sys2Proof.Machine.execCmdMemoryAccessControl mask s
  | .cmdIdleModeOff => Sys2Proof.Machine.execCmdIdleModeOff s
  | .cmdInterfacePixelFormat param => Sys2Proof.Machine.execCmdInterfacePixelFormat param s

end Sys2Proof.Machine
end

