-- ==== Sys2Proof/Machine/Fetch.lean ====
section
/-! DEFINITION. How the next instruction comes from the request port, and how one is placed there. -/

namespace Sys2Proof.Machine

/-- What stands on the request port (R71, R72): nothing while the requester presents nothing. -/
def State.presented (s : State) : Option (Presented × List Presented) :=
  match s.pending with
  | [] => none
  | p :: rest => some (p, rest)

/-- The instruction needs no initialised block (R72). -/
def runsUninitialised (p : Presented) : Bool :=
  match decode p with
  | .instr (.init _) => true
  | _ => false

/-- A state whose next step takes `p` from the request port: `p` is presented, the block is idle, and, unless `p`
is INIT, it is initialised, since acceptance gives every other request a meaning only then (R72; log 11). -/
def State.place (p : Presented) (s : State) : State :=
  { s with
    pending := [p]
    busy := false
    seq := none
    inited := s.inited || !runsUninitialised p }

/-- The instruction of an opcode-table word, placed to be the next one; the state is unchanged where the word is
no instruction's. -/
def State.placeWord (nbits w : Nat) (s : State) : State :=
  match presentTableWord nbits w with
  | none => s
  | some p => s.place p

end Sys2Proof.Machine
end

