-- ==== Sys2Proof/Machine/Step.lean ====
section
/-! DEFINITION. One step of the block: one request, from its acceptance to its end. -/

namespace Sys2Proof.Machine

/-- One step. A block that waits for ever has none (R207, U12); an idle block to which nothing is presented waits
(R43); else the presented request is accepted (R72) and runs to its end (R70). A reserved selector has no
meaning (R82). -/
def step (s : State) : Host.Outcome State Fault Refusal :=
  if s.busy then .fault .neverFinishes
  else
    match s.presented with
    | none => .next s
    | some (p, rest) =>
      match decode p with
      | .reservedSelector op => .refused (.reservedSelector op)
      | .instr i => exec i (s.accept p rest)

/-- The state in which `step` takes the instruction of this opcode-table word (log 11). -/
def State.withFetchWord (s : State) (nbits w : Nat) : State := s.placeWord nbits w

end Sys2Proof.Machine
end

