-- ==== Sys2Proof/WellFormed.lean ====
section
/-! DEFINITION. The operands to which the spec gives a meaning (R79, R143; U3, U4, U5). -/

namespace Sys2Proof.WellFormed

/-- DRAW_RECT is defined only for `w >= 1` and `h >= 1` (R79, U3). -/
def rectangleNotEmpty (w h : Coord) : Bool :=
  decide (1 ≤ w.toNat) && decide (1 ≤ h.toNat)

/-- DRAW_RECT is defined only when the end coordinate fits 16 bits (R79, U4). -/
def spanFits (start extent : Coord) : Bool :=
  decide (start.toNat + extent.toNat ≤ 0x10000)

/-- READ_COMMAND wants at least one sample (R143, U5). -/
def someSample (n : BitVec 32) : Bool :=
  decide (1 ≤ n.toNat)

/-- The instruction's operands are among those the spec gives a meaning. Every other operand value of
every instruction has one, the invalid format values included (R83 names their status). -/
def check : Instr → Bool
  | .init _ => true
  | .writeCommand _ _ => true
  | .readCommand _ n => someSample n
  | .setPixelFormat _ => true
  | .columnAddressSet _ _ => true
  | .pageAddressSet _ _ => true
  | .writePixels _ _ => true
  | .writeRepeatedPixel _ _ => true
  | .drawPixel _ _ _ => true
  | .drawRect x y w h _ => rectangleNotEmpty w h && spanFits x w && spanFits y h
  | .clearScreen => true
  | .busWrite _ _ => true
  | .busRead => true
  | .cmdNop => true
  | .cmdSoftwareReset => true
  | .cmdSleepOut => true
  | .cmdNormalDisplayMode => true
  | .cmdDisplayInversionOff => true
  | .cmdDisplayOn => true
  | .cmdColumnAddressSet _ _ => true
  | .cmdPageAddressSet _ _ => true
  | .cmdMemoryWrite => true
  | .cmdMemoryAccessControl _ => true
  | .cmdIdleModeOff => true
  | .cmdInterfacePixelFormat _ => true

end Sys2Proof.WellFormed
end

