-- ==== Sys2Proof/Safety.lean ====
section
/-! DEFINITION. The terms in which claims about the block are stated: its observations oldest first, what the inputs
of a request must be for it to run undisturbed, and the invariants of the block. -/

namespace Sys2Proof.Machine

/-! ## Observations -/

/-- The trace in the order performed (R11). -/
def State.events (s : State) : List Event := s.trace.reverse

/-- The captured word stream in the order captured (R11). -/
def State.stream (s : State) : List (Mode × Word) := s.captured.reverse

/-- The captured words of one transaction (R102). -/
def tagged (m : Mode) (ws : List Word) : List (Mode × Word) := ws.map fun w => (m, w)

/-- The captured words of one wire command with its parameter bytes (R75). -/
def wireStream (opc : Byte) (params : List Byte) : List (Mode × Word) :=
  (.command, wordOfByte opc) :: tagged .data (params.map wordOfByte)

/-- The captured words of `SetWindow` (R173) and the memory-write command (R177). -/
def windowStream (c0 c1 p0 p1 : Coord) : List (Mode × Word) :=
  wireStream 0x2A (coordBytes c0 c1) ++ wireStream 0x2B (coordBytes p0 p1) ++ wireStream 0x2C []

/-- The events of `BusWrite(mode, words)` in the order of R101, none for no words (R105). On a serial bus the
transaction is one event (R113). -/
def writeEvents (c : Config) (m : Mode) (words : List Word) : List Event :=
  if words.isEmpty then []
  else if c.isSerial then [.serialWrite m words]
  else
    [.set .rdx true, .set .wrx true, .set .cs false, .set .dcx (m == .data)]
      ++ words.flatMap (fun v =>
        (List.range c.width.bits).flatMap (fun i => [.mode i .output, .set (.d i) (v.getLsbD i)])
          ++ [.set .wrx false, .set .wrx true])
      ++ [.set .dcx (m == .command), .set .wrx true, .set .cs true]

/-- The events of `BusRead` with these samples in the order of R106. On a serial bus the transaction is one event
(R113). -/
def readEvents (c : Config) (samples : List Word) : List Event :=
  if c.isSerial then [.serialRead samples]
  else
    [.set .rdx true, .set .wrx true, .set .cs false, .set .dcx true]
      ++ (List.range c.width.bits).map (fun i => .mode i .input)
      ++ samples.flatMap (fun v =>
        [.set .rdx false] ++ (List.range c.width.bits).map (fun i => .get i (v.getLsbD i)) ++ [.set .rdx true])
      ++ [.set .dcx false, .set .rdx true, .set .cs true]

/-- The events of a wire command with its parameter bytes (R75): two transactions, one without parameters. -/
def wireEvents (c : Config) (opc : Byte) (params : List Byte) : List Event :=
  writeEvents c .command [wordOfByte opc] ++ writeEvents c .data (params.map wordOfByte)

/-- The block is idle and its last request ended with a status. -/
abbrev State.EndedWith (st : Status) (t : State) : Prop :=
  t.status = st ∧ t.busy = false ∧ t.seq = none ∧ t.trace.head? = some (.done st)

/-- What no request but those named for it changes: the parameters, the format tag, the flag `INITED`, the operand
latches, `ENC`, `RESX`, the read samples, and the inputs not yet due. -/
abbrev State.KeepsRegisters (s t : State) : Prop :=
  t.cfg = s.cfg ∧ t.pixFmt = s.pixFmt ∧ t.inited = s.inited ∧ t.lat = s.lat ∧ t.enc = s.enc ∧
    t.resx = s.resx ∧ t.rdWords = s.rdWords ∧ t.levels = s.levels ∧ t.pending = s.pending

/-- A request that fails before its first pin operation: the status is stored and told, and nothing else is done
(R196). -/
abbrev State.OnlyFails (e : Status) (s t : State) : Prop :=
  t.EndedWith e ∧ s.KeepsRegisters t ∧ t.cs = s.cs ∧ t.dcx = s.dcx ∧ t.rdx = s.rdx ∧ t.wrx = s.wrx ∧
    t.dout = s.dout ∧ t.ddir = s.ddir ∧ t.captured = s.captured ∧ t.ghost = s.ghost ∧ t.faults = s.faults ∧
    t.events = s.events ++ [.done e]

/-- The lines after a write transaction on a parallel bus that ended well (R103): the device is deselected, the strobes
rest, DCX is opposite to the mode, all data pins are outputs and carry the last word. -/
abbrev State.RestsAfterWrite (m : Mode) (v : Word) (t : State) : Prop :=
  t.cs = true ∧ t.wrx = true ∧ t.rdx = true ∧ t.dcx = (m == .command) ∧
    busWord t.cfg.width t.ddir = lowOnes t.cfg.width.bits ∧ busWord t.cfg.width t.dout = v

/-- The lines after a read transaction on a parallel bus that ended well (R106): the device is deselected, the strobes
rest, DCX is low, all data pins are inputs. -/
abbrev State.RestsAfterRead (t : State) : Prop :=
  t.cs = true ∧ t.wrx = true ∧ t.rdx = true ∧ t.dcx = false ∧ busWord t.cfg.width t.ddir = 0

/-! ## Which request does what -/

/-- The instruction is INIT. -/
def isInit : Instr → Bool
  | .init _ => true
  | _ => false

/-- The statuses a request can end with (R190 to R195, R199). -/
def mayEndWith (i : Instr) (st : Status) : Bool :=
  match i with
  | .init _ => st == .ok || st == .busWriteError || st == .invalidFormatError
  | .setPixelFormat _ => st == .ok || st == .busWriteError || st == .invalidFormatError
  | .readCommand _ _ => st == .ok || st == .busWriteError || st == .busReadError || st == .inputNotAvailable
  | .busRead => st == .ok || st == .busReadError || st == .inputNotAvailable
  | .writePixels _ _ => st == .ok || st == .busWriteError || st == .dataFormatNotImplemented
  | .writeRepeatedPixel _ _ => st == .ok || st == .busWriteError || st == .dataFormatNotImplemented
  | .drawPixel _ _ _ => st == .ok || st == .busWriteError || st == .dataFormatNotImplemented
  | .drawRect _ _ _ _ _ => st == .ok || st == .busWriteError || st == .dataFormatNotImplemented
  | .clearScreen => st == .ok || st == .busWriteError || st == .dataFormatNotImplemented
  | _ => st == .ok || st == .busWriteError

/-- The wire commands without parameters and their opcodes (R76). -/
def parameterless : List (Instr × Byte) :=
  [(.cmdNop, 0x00), (.cmdSoftwareReset, 0x01), (.cmdSleepOut, 0x11), (.cmdNormalDisplayMode, 0x13),
   (.cmdDisplayInversionOff, 0x20), (.cmdDisplayOn, 0x29), (.cmdMemoryWrite, 0x2C), (.cmdIdleModeOff, 0x38)]

/-- The same request `n` times, while it answers a next state. -/
def execTimes (i : Instr) : Nat → State → Host.Outcome State Fault Refusal
  | 0, s => .next s
  | n + 1, s =>
    match exec i s with
    | .next t => execTimes i n t
    | .fault f => .fault f
    | .refused r => .refused r

/-! ## Inputs -/

/-- None of the next `n` pin operations faults, as far as the inputs tell (log 4). -/
def State.quietFor (n : Nat) (s : State) : Bool :=
  match s.faults with
  | [] => true
  | k :: _ => decide (n ≤ k)

/-- An aborted request left a write pulse half done with the device still selected, so that the next transaction's own
first rise of WRX makes the device capture a word (R11, R101, R110; log 17). A serial transaction sets no line. -/
def State.pulseHalfDone (s : State) : Bool := !s.cfg.isSerial && !s.cs && !s.wrx

/-- No write pulse was left half done. -/
abbrev State.Settled (s : State) : Prop := s.pulseHalfDone = false

/-- The word the device captures before those of the next transaction: none on a settled bus, else the word that stands
on the data pins, under the level `DCX` has (log 17). -/
def State.leftWord (s : State) : List (Mode × Word) :=
  if s.pulseHalfDone then [(modeOfLevel s.dcx, busWord s.cfg.width s.dout)] else []

/-- The pin operations of a write transaction of `n` words (R105, R112); a serial transaction is one. -/
def writeCost (c : Config) (n : Nat) : Nat :=
  if n = 0 then 0 else if c.isSerial then 1 else 7 + n * (2 * c.width.bits + 2)

/-- The pin operations of a read transaction of `k` samples (R112); a serial transaction is one. -/
def readCost (c : Config) (k : Nat) : Nat :=
  if c.isSerial then 1 else 7 + c.width.bits + k * (c.width.bits + 2)

/-- The pin operations of a wire command with `n` parameters. -/
def wireCost (c : Config) (n : Nat) : Nat := writeCost c 1 + writeCost c n

/-- The pin operations of `SetWindow` and the memory-write command. -/
def windowCost (c : Config) : Nat := wireCost c 4 + wireCost c 4 + wireCost c 0

/-- The levels a device drives that returns these samples, bit 0 of each first (R107). -/
def levelsOf (bits : Nat) (samples : List Word) : List Level :=
  samples.flatMap fun v => (List.range bits).map fun i => v.getLsbD i

/-! ## Precise aborts -/

/-- The micro-operations before pin operation number `q` (R110). -/
def opsBefore : Nat → List MicroOp → List MicroOp
  | _, [] => []
  | q, op :: ops =>
    if op.mayFault then
      match q with
      | 0 => []
      | q + 1 => op :: opsBefore q ops
    else op :: opsBefore q ops

/-- The effects of micro-operations one after another. -/
def applyOps (ops : List MicroOp) (s : State) : State := ops.foldl (fun t op => op.effect t) s

/-- The pin operations among micro-operations. -/
def faultCalls (ops : List MicroOp) : Nat := ops.countP MicroOp.mayFault

/-! ## Mode before access -/

/-- The guard lines of R92 and R93 hold all along, from these directions of the data pins on. -/
def guardsHold : Word → List MicroOp → Bool
  | _, [] => true
  | ddir, op :: ops =>
    match op with
    | .mode i dir => guardsHold (setBit ddir i (dir == .output)) ops
    | .set (.d i) _ => ddir.getLsbD i && guardsHold ddir ops
    | .get i => !ddir.getLsbD i && guardsHold ddir ops
    | _ => guardsHold ddir ops

/-- The micro-operation concerns a data pin. -/
def MicroOp.onDataPin : MicroOp → Bool
  | .mode _ _ => true
  | .set (.d _) _ => true
  | .get _ => true
  | _ => false

/-! ## Invariants -/

/-- The lines and the captured word stream, as the trace alone tells them. -/
structure Lines where
  cs : Level
  dcx : Level
  rdx : Level
  wrx : Level
  resx : Level
  dout : Word
  ddir : Word
  captured : List (Mode × Word)
  deriving DecidableEq, Repr

/-- What a state holds of the lines and the captured word stream. -/
def State.lines (s : State) : Lines :=
  { cs := s.cs, dcx := s.dcx, rdx := s.rdx, wrx := s.wrx, resx := s.resx, dout := s.dout, ddir := s.ddir,
    captured := s.captured }

/-- What an event does to the lines, by the definition of the trace and of the captured word stream (R11). -/
def Lines.after (w : Width) (l : Lines) (e : Event) : Lines :=
  match e with
  | .mode i dir => { l with ddir := setBit l.ddir i (dir == .output) }
  | .set .cs v => { l with cs := v }
  | .set .dcx v => { l with dcx := v }
  | .set .rdx v => { l with rdx := v }
  | .set .wrx v =>
    { l with
      wrx := v
      captured :=
        if v && !l.wrx && !l.cs then (modeOfLevel l.dcx, busWord w l.dout) :: l.captured else l.captured }
  | .set .resx v => { l with resx := v }
  | .set (.d i) v => { l with dout := setBit l.dout i v }
  | .get _ _ => l
  | .delay _ => l
  | .done _ => l
  | .serialWrite m ws => { l with captured := (tagged m (ws.map (busWord w))).reverse ++ l.captured }
  | .serialRead _ => l

/-- The lines after a trace, newest event first, from the reset of a block with these parameters. -/
def linesAfter (c : Config) : List Event → Lines
  | [] => (State.resetOf c).lines
  | e :: t => (linesAfter c t).after c.width e

/-- The latches and the captured word stream are those the trace tells (R11, R23 to R26). -/
abbrev State.LinesFollowTrace (s : State) : Prop := s.lines = linesAfter s.cfg s.trace

/-- `DOUT` and `DDIR` are `W` bits (R25, R26), and on output-only pins `DDIR` is hardwired to ones (R26, R95). -/
abbrev State.DataPinsFit (s : State) : Prop :=
  busWord s.cfg.width s.dout = s.dout ∧ busWord s.cfg.width s.ddir = s.ddir ∧
    (s.cfg.pinVariant = .outputOnly → s.ddir = lowOnes s.cfg.width.bits)

/-- The status of the newest `Done` event, OK before the first. -/
def lastStatus : List Event → Status
  | [] => .ok
  | e :: t =>
    match e with
    | .done st => st
    | _ => lastStatus t

/-- `BUSY` is 1 exactly while `SEQ` is a number (R27, R32); `STATUS` is the status of the last finished request
(R32); `ENC` holds at most three words (R31). -/
abbrev State.FlagsAgree (s : State) : Prop :=
  s.busy = s.seq.isSome ∧ s.status = lastStatus s.trace ∧ s.enc.length ≤ 3

/-- A run is safe when every request of it ended with OK (D3). -/
def noErrorRecorded (t : List Event) : Bool :=
  t.all fun e =>
    match e with
    | .done st => st == .ok
    | _ => true

end Sys2Proof.Machine
end

