-- ==== Sys2Proof/Certificates/Slice0/Obligations.lean ====
section
/-! DEFINITION. The statements for the provers. -/

open Sys2Proof Sys2Proof.Machine

/-! ## Presenting, decoding, accepting -/

/-- Decoding the encoding of an instruction gives it back, with every operand at every value (R74, R76, R77, R78).
That a wire command has a presented form of its own is the model's choice (log 3). -/
def Obligations.DecodeOfEncode : Prop :=
  ∀ i : Instr, decode (encode i) = .instr i

/-- R74: the selector picks the request and the operand fields it uses; the match is on all four bits. -/
def Obligations.SelectorsSelectRequests : Prop :=
  ∀ r : PortRequest,
    (r.op = 0x0#4 → decode (.port r) = .instr (.init r.fmt)) ∧
    (r.op = 0x1#4 → decode (.port r) = .instr (.writeCommand r.opc r.len)) ∧
    (r.op = 0x2#4 → decode (.port r) = .instr (.readCommand r.opc r.len)) ∧
    (r.op = 0x3#4 → decode (.port r) = .instr (.setPixelFormat r.fmt)) ∧
    (r.op = 0x4#4 → decode (.port r) = .instr (.columnAddressSet r.a0 r.a1)) ∧
    (r.op = 0x5#4 → decode (.port r) = .instr (.pageAddressSet r.a0 r.a1)) ∧
    (r.op = 0x6#4 → r.has2 = 0#1 → decode (.port r) = .instr (.writePixels (pixelOfField r.p1) none)) ∧
    (r.op = 0x6#4 → r.has2 = 1#1 →
      decode (.port r) = .instr (.writePixels (pixelOfField r.p1) (some (pixelOfField r.p2)))) ∧
    (r.op = 0x7#4 → decode (.port r) = .instr (.writeRepeatedPixel (pixelOfField r.p1) r.len)) ∧
    (r.op = 0x8#4 → decode (.port r) = .instr (.drawPixel r.x r.y (pixelOfField r.p1))) ∧
    (r.op = 0x9#4 → decode (.port r) = .instr (.drawRect r.x r.y r.w r.h (pixelOfField r.p1))) ∧
    (r.op = 0xA#4 → decode (.port r) = .instr .clearScreen) ∧
    (r.op = 0xB#4 → r.mode = 0#1 → decode (.port r) = .instr (.busWrite .command r.len)) ∧
    (r.op = 0xB#4 → r.mode = 1#1 → decode (.port r) = .instr (.busWrite .data r.len)) ∧
    (r.op = 0xC#4 → decode (.port r) = .instr .busRead)

/-- R76: the twelve wire opcodes, bit for bit, with their parameter bytes. That a wire command has a presented form of
its own is the model's choice (log 3). -/
def Obligations.WireOpcodesDecode : Prop :=
  decode (.wire 0b00000000#8 []) = .instr .cmdNop ∧
  decode (.wire 0b00000001#8 []) = .instr .cmdSoftwareReset ∧
  decode (.wire 0b00010001#8 []) = .instr .cmdSleepOut ∧
  decode (.wire 0b00010011#8 []) = .instr .cmdNormalDisplayMode ∧
  decode (.wire 0b00100000#8 []) = .instr .cmdDisplayInversionOff ∧
  decode (.wire 0b00101001#8 []) = .instr .cmdDisplayOn ∧
  decode (.wire 0b00101010#8 [0x00, 0x12, 0x01, 0x40]) = .instr (.cmdColumnAddressSet 0x0012 0x0140) ∧
  decode (.wire 0b00101011#8 [0x00, 0x00, 0x01, 0xDF]) = .instr (.cmdPageAddressSet 0 479) ∧
  decode (.wire 0b00101100#8 []) = .instr .cmdMemoryWrite ∧
  decode (.wire 0b00110110#8 [0x48]) = .instr (.cmdMemoryAccessControl 0x48) ∧
  decode (.wire 0b00111000#8 []) = .instr .cmdIdleModeOff ∧
  decode (.wire 0b00111010#8 [0x55]) = .instr (.cmdInterfacePixelFormat 0x55)

/-- R82: the selectors 0xD, 0xE and 0xF have no meaning; a presented one is refused by name. The refusal is the
model's form of 'no meaning' (log 21). -/
def Obligations.ReservedSelectorsAreRefused : Prop :=
  ∀ (s : State) (r : PortRequest) (rest : List Presented),
    s.busy = false → s.pending = .port r :: rest → r.op = 0xD#4 ∨ r.op = 0xE#4 ∨ r.op = 0xF#4 →
    step s = .refused (.reservedSelector r.op)

/-- A step of an idle block runs the instruction that is presented, on the state in which it was accepted (R70, R72).
That a step is a whole request is the model's choice (log 12). -/
def Obligations.StepRunsThePresentedInstruction : Prop :=
  ∀ (s : State) (p : Presented) (rest : List Presented) (i : Instr),
    s.busy = false → s.pending = p :: rest → decode p = .instr i → step s = exec i (s.accept p rest)

/-- Acceptance (R72, R29): every field of the request port is copied into its latch, `BUSY` becomes 1 and `SEQ` 0, the
request is taken from the port, its streams stand ready, and nothing else changes. That the streams come with the
request is the model's choice (log 15). -/
def Obligations.AcceptanceLatchesTheRequest : Prop :=
  ∀ (s : State) (r : PortRequest) (rest : List Presented),
    let t := s.accept (.port r) rest
    t.busy = true ∧ t.seq = some 0 ∧ t.pending = rest ∧ t.plWords = r.payload ∧ t.rdMore = r.answers ∧
    t.lat.op = r.op ∧ t.lat.fmt = r.fmt ∧ t.lat.opc = r.opc ∧ t.lat.mode = r.mode ∧ t.lat.len = r.len ∧
    t.lat.a0 = r.a0 ∧ t.lat.a1 = r.a1 ∧ t.lat.x = r.x ∧ t.lat.y = r.y ∧ t.lat.wd = r.w ∧ t.lat.ht = r.h ∧
    t.lat.p1 = pixelOfField r.p1 ∧ t.lat.p2 = pixelOfField r.p2 ∧ t.lat.has2 = r.has2 ∧
    t.cfg = s.cfg ∧ t.pixFmt = s.pixFmt ∧ t.inited = s.inited ∧ t.status = s.status ∧ t.enc = s.enc ∧
    t.lines = s.lines ∧ t.ghost = s.ghost ∧ t.rdWords = s.rdWords ∧ t.faults = s.faults ∧ t.levels = s.levels ∧
    t.trace = s.trace

/-- An idle block to which nothing is presented waits (R43); a block whose request waits for an input that never comes
has no further step (R207, U12, U13). That the first is a step, and the second a fault of the model, are the model's
choices (log 13, 23). -/
def Obligations.IdleWaitsAndBlockedStops : Prop :=
  ∀ s : State,
    (s.busy = false → s.pending = [] → step s = .next s) ∧
    (s.busy = true → step s = .fault .neverFinishes)

/-- The values R40 gives for the state after the hardware reset. -/
def Obligations.ResetGivesTheStatedValues : Prop :=
  ∀ c : Config,
    let s := State.resetOf c
    s.cfg = c ∧ s.inited = false ∧ s.busy = false ∧ s.status.code = 0 ∧ s.seq = none ∧
    s.ghost.phase = .unknown ∧ s.ghost.devFmt = .unknown ∧ s.ghost.owed = none

/-- While `INITED` is 0 every request but INIT is refused (R32, R72, R228). The refusal is the model's form of 'no
meaning' (log 21). -/
def Obligations.OnlyInitRunsUninitialised : Prop :=
  ∀ (i : Instr) (s : State), s.inited = false → isInit i = false → exec i s = .refused .notInitialised

/-- The operand values without a meaning are refused by name: an empty rectangle, an end coordinate above 0xFFFF, a
read of no sample (R79, R143; U3, U4, U5). The refusal is the model's form of 'no meaning' (log 21). -/
def Obligations.OperandsWithoutMeaningAreRefused : Prop :=
  ∀ s : State, s.inited = true →
    (∀ x y w h p, w = 0 ∨ h = 0 → exec (.drawRect x y w h p) s = .refused .emptyRectangle) ∧
    (∀ x y w h p, w ≠ 0 → h ≠ 0 → 0xFFFF < x.toNat + w.toNat - 1 ∨ 0xFFFF < y.toNat + h.toNat - 1 →
      exec (.drawRect x y w h p) s = .refused .coordinateOverflow) ∧
    (∀ opc, exec (.readCommand opc 0) s = .refused .zeroSamples)

/-- Every request with a meaning answers a next state, whatever the pin provider, the device and the requester do; and
a request that ends stores and tells one status (R67, R196, R198). A request that waits for its requester for ever is
also a next state here (log 13). -/
def Obligations.EveryMeaningfulRequestAnswers : Prop :=
  ∀ (i : Instr) (s : State),
    WellFormed.check i = true → s.inited = true ∨ isInit i = true → s.cfg.Valid → s.busy = true →
    ∃ t, exec i s = .next t ∧ (t.busy = false → t.EndedWith t.status)

/-- A request ends only with the statuses its rules name (R190 to R195, R199), and the two that depend on how the block
is built only on such a block. -/
def Obligations.EveryStatusHasItsCause : Prop :=
  ∀ (i : Instr) (s t : State),
    s.busy = true → exec i s = .next t → t.busy = false →
    mayEndWith i t.status = true ∧
    (t.status = .dataFormatNotImplemented → s.pixFmt = .rgb565 ∧ s.cfg.width = .w18) ∧
    (t.status = .inputNotAvailable → s.cfg.pinVariant = .outputOnly)

/-! ## INIT and the pixel format -/

/-- INIT with a legal format in which no pin operation faults (R171, R42, R221): the reset pulse, the format command,
and the block is initialised. The ghost record is the model's reading of D25 (log 9), the inputs of pin faults are the
model's form (log 4), and a word left by an aborted write is captured first (log 17). -/
def Obligations.InitSetsUpTheBlock : Prop :=
  ∀ (s : State) (fmt : BitVec 3) (param : Byte) (tag : PixFmt),
    (fmt = 5 ∧ param = 0x55 ∧ tag = .rgb565) ∨ (fmt = 6 ∧ param = 0x66 ∧ tag = .rgb666) →
    s.quietFor (2 + wireCost s.cfg 1) = true →
    ∃ t, exec (.init fmt) s = .next t ∧ t.EndedWith .ok ∧
      ({ s with pixFmt := tag, inited := true, resx := true } : State).KeepsRegisters t ∧
      t.ghost.phase = .formatSet ∧ t.ghost.devFmt = tag.dev ∧ t.ghost.owed = none ∧
      t.stream = s.stream ++ s.leftWord ++ wireStream 0x3A [param] ∧
      t.events = s.events
        ++ [.set .resx false, .delay s.cfg.tResetLowUs, .set .resx true, .delay s.cfg.tStabUs]
        ++ wireEvents s.cfg 0x3A [param] ++ [.done .ok] ∧
      (s.cfg.isSerial = false → t.RestsAfterWrite .data (wordOfByte param))

/-- INIT with an invalid format operand (R83, R171, R193): the reset pulse and both delays have happened, no transaction
is started. -/
def Obligations.InitWithInvalidFormatFails : Prop :=
  ∀ (s : State) (fmt : BitVec 3), fmt ≠ 5 → fmt ≠ 6 → s.quietFor 2 = true →
    ∃ t, exec (.init fmt) s = .next t ∧ t.EndedWith .invalidFormatError ∧
      ({ s with inited := false, resx := true } : State).KeepsRegisters t ∧
      t.cs = s.cs ∧ t.dcx = s.dcx ∧ t.rdx = s.rdx ∧ t.wrx = s.wrx ∧ t.dout = s.dout ∧ t.ddir = s.ddir ∧
      t.stream = s.stream ∧
      t.events = s.events
        ++ [.set .resx false, .delay s.cfg.tResetLowUs, .set .resx true, .delay s.cfg.tStabUs]
        ++ [.done .invalidFormatError]

/-- A fault on the reset pin ends INIT with `BusWriteError` at once (R97, R191, R199): the first leaves every latch as it
was, the second leaves the device held in reset and every other latch as it was. Where the fault falls is an input the
model holds in its state (log 4). -/
def Obligations.InitResetPinFaults : Prop :=
  ∀ (s : State) (fmt : BitVec 3) (rest : List Nat),
    (s.faults = 0 :: rest →
      ∃ t, exec (.init fmt) s = .next t ∧ t.EndedWith .busWriteError ∧
        ({ s with inited := false } : State).KeepsRegisters t ∧ t.lines = s.lines ∧ t.faults = rest ∧
        t.events = s.events ++ [.done .busWriteError]) ∧
    (s.faults = 1 :: rest →
      ∃ t, exec (.init fmt) s = .next t ∧ t.EndedWith .busWriteError ∧
        ({ s with inited := false, resx := false } : State).KeepsRegisters t ∧
        t.lines = { s.lines with resx := false } ∧ t.faults = rest ∧
        t.events = s.events ++ [.set .resx false, .delay s.cfg.tResetLowUs] ++ [.done .busWriteError])

/-- INIT ends with OK exactly when the block is initialised after it; on an error `PIXFMT` is as it was (R172, R32). -/
def Obligations.InitInitialisesExactlyWhenOk : Prop :=
  ∀ (s t : State) (fmt : BitVec 3), exec (.init fmt) s = .next t →
    (t.inited = true ↔ t.status = .ok) ∧ (t.status ≠ .ok → t.pixFmt = s.pixFmt)

/-- SET_PIXEL_FORMAT with a legal format in which no pin operation faults (R146): the device is told, then the tag
changes. The ghost record is the model's reading of D25 (log 9). A word left by an aborted write is captured first
(log 17). -/
def Obligations.SetPixelFormatTellsThenStores : Prop :=
  ∀ (s : State) (fmt : BitVec 3) (param : Byte) (tag : PixFmt),
    (fmt = 5 ∧ param = 0x55 ∧ tag = .rgb565) ∨ (fmt = 6 ∧ param = 0x66 ∧ tag = .rgb666) →
    s.inited = true → s.quietFor (wireCost s.cfg 1) = true →
    ∃ t, exec (.setPixelFormat fmt) s = .next t ∧ t.EndedWith .ok ∧
      ({ s with pixFmt := tag } : State).KeepsRegisters t ∧
      t.ghost.phase = .formatSet ∧ t.ghost.devFmt = tag.dev ∧ t.ghost.owed = none ∧
      t.stream = s.stream ++ s.leftWord ++ wireStream 0x3A [param] ∧
      t.events = s.events ++ wireEvents s.cfg 0x3A [param] ++ [.done .ok] ∧
      (s.cfg.isSerial = false → t.RestsAfterWrite .data (wordOfByte param))

/-- SET_PIXEL_FORMAT with any other format value fails before any pin operation, even if the next one would fault (R83,
R146, R193, R199). -/
def Obligations.InvalidFormatOnlyFails : Prop :=
  ∀ (s : State) (fmt : BitVec 3), s.inited = true → fmt ≠ 5 → fmt ≠ 6 →
    ∃ t, exec (.setPixelFormat fmt) s = .next t ∧ s.OnlyFails .invalidFormatError t

/-- A SET_PIXEL_FORMAT that does not end with OK leaves `PIXFMT` unchanged (R21, R146); after a bus error the ghost
`DEVFMT` is unknown (R146). The ghost record is the model's reading of D25 (log 9). -/
def Obligations.FailedFormatCommandKeepsTheTag : Prop :=
  ∀ (s t : State) (fmt : BitVec 3), exec (.setPixelFormat fmt) s = .next t → t.status ≠ .ok →
    t.pixFmt = s.pixFmt ∧ (t.status = .busWriteError → t.ghost.devFmt = .unknown)

/-- `PIXFMT` is written by INIT and SET_PIXEL_FORMAT only (R21, R34, R44). -/
def Obligations.OnlyFormatRequestsWritePixFmt : Prop :=
  ∀ (i : Instr) (s t : State), (∀ fmt, i ≠ .init fmt) → (∀ fmt, i ≠ .setPixelFormat fmt) →
    exec i s = .next t → t.pixFmt = s.pixFmt

/-- `INITED` and `RESX` are written by INIT only; an error outside INIT leaves the block initialised (R24, R32, R200). -/
def Obligations.OnlyInitWritesInitedAndResx : Prop :=
  ∀ (i : Instr) (s t : State), isInit i = false → exec i s = .next t → t.inited = s.inited ∧ t.resx = s.resx

/-- `ENC` is written by WRITE_REPEATED_PIXEL only (R31); the read samples change and the device's levels are used up
by READ_COMMAND and BUS_READ only (R50, R62). The device's levels are an input the model holds in its state (log 5). -/
def Obligations.OnlyNamedRequestsWriteEncAndSamples : Prop :=
  ∀ (i : Instr) (s t : State), exec i s = .next t →
    ((∀ p n, i ≠ .writeRepeatedPixel p n) → t.enc = s.enc) ∧
    ((∀ opc n, i ≠ .readCommand opc n) → i ≠ .busRead → t.rdWords = s.rdWords ∧ t.levels = s.levels)

/-- No request changes a parameter (R6, R37), an operand latch (R29) or what is presented next (R68). -/
def Obligations.NoRequestWritesLatchesOrParameters : Prop :=
  ∀ (i : Instr) (s t : State), exec i s = .next t → t.cfg = s.cfg ∧ t.lat = s.lat ∧ t.pending = s.pending

/-! ## The command layer -/

/-- WRITE_COMMAND in which no pin operation faults and every payload element is supplied (R141, R75).
A word left by an aborted write is captured first (log 17). -/
def Obligations.WriteCommandSends : Prop :=
  ∀ (s : State) (opc : Byte) (len : BitVec 32),
    s.inited = true → len.toNat ≤ s.plWords.length → s.quietFor (wireCost s.cfg len.toNat) = true →
    ∃ t, exec (.writeCommand opc len) s = .next t ∧ t.EndedWith .ok ∧ s.KeepsRegisters t ∧
      t.stream = s.stream ++ s.leftWord ++ wireStream opc ((s.plWords.take len.toNat).map byteOfWord) ∧
      t.events = s.events ++ wireEvents s.cfg opc ((s.plWords.take len.toNat).map byteOfWord) ++ [.done .ok] ∧
      (s.cfg.isSerial = false → ∀ v, (s.plWords.take len.toNat).getLast? = some v →
        t.RestsAfterWrite .data (wordOfByte (byteOfWord v))) ∧
      (s.cfg.isSerial = false → len = 0 → t.RestsAfterWrite .command (wordOfByte opc))

/-- COLUMN_ADDRESS_SET and PAGE_ADDRESS_SET in which no pin operation faults (R147, R148, R53, R78): any start and end
are sent as they are, most significant byte first (R58). The ghost record is the model's reading of D25 (log 9); the other
half of it is kept where no write was left half done. A word left by an aborted write is captured first (log 17). -/
def Obligations.AddressCommandsSend : Prop :=
  ∀ (s : State) (a0 a1 : Coord), s.inited = true → s.quietFor (wireCost s.cfg 4) = true →
    (∃ t, exec (.columnAddressSet a0 a1) s = .next t ∧ t.EndedWith .ok ∧ s.KeepsRegisters t ∧
      t.ghost.devWin.c0 = a0 ∧ t.ghost.devWin.c1 = a1 ∧ t.ghost.owed = none ∧
      (s.Settled → t.ghost.devWin = { s.ghost.devWin with c0 := a0, c1 := a1 }) ∧
      t.stream = s.stream ++ s.leftWord
        ++ wireStream 0x2A [a0.extractLsb' 8 8, a0.extractLsb' 0 8, a1.extractLsb' 8 8, a1.extractLsb' 0 8] ∧
      t.events = s.events ++ wireEvents s.cfg 0x2A (coordBytes a0 a1) ++ [.done .ok] ∧
      (s.cfg.isSerial = false → t.RestsAfterWrite .data (wordOfByte (a1.extractLsb' 0 8)))) ∧
    (∃ t, exec (.pageAddressSet a0 a1) s = .next t ∧ t.EndedWith .ok ∧ s.KeepsRegisters t ∧
      t.ghost.devWin.p0 = a0 ∧ t.ghost.devWin.p1 = a1 ∧ t.ghost.owed = none ∧
      (s.Settled → t.ghost.devWin = { s.ghost.devWin with p0 := a0, p1 := a1 }) ∧
      t.stream = s.stream ++ s.leftWord
        ++ wireStream 0x2B [a0.extractLsb' 8 8, a0.extractLsb' 0 8, a1.extractLsb' 8 8, a1.extractLsb' 0 8] ∧
      t.events = s.events ++ wireEvents s.cfg 0x2B (coordBytes a0 a1) ++ [.done .ok] ∧
      (s.cfg.isSerial = false → t.RestsAfterWrite .data (wordOfByte (a1.extractLsb' 0 8))))

/-- The eight wire commands without parameters in which no pin operation faults (R150 to R155, R158, R160): one Command
transaction with the opcode, and no register of the block changes. A word left by an aborted write is captured first
(log 17). -/
def Obligations.ParameterlessWireCommandsSend : Prop :=
  ∀ (s : State) (io : Instr × Byte), io ∈ parameterless →
    s.inited = true → s.quietFor (wireCost s.cfg 0) = true →
    ∃ t, exec io.1 s = .next t ∧ t.EndedWith .ok ∧ s.KeepsRegisters t ∧
      t.stream = s.stream ++ s.leftWord ++ [(.command, wordOfByte io.2)] ∧
      t.events = s.events ++ writeEvents s.cfg .command [wordOfByte io.2] ++ [.done .ok] ∧
      (s.cfg.isSerial = false → t.RestsAfterWrite .command (wordOfByte io.2))

/-- The four wire commands with parameters in which no pin operation faults (R156, R157, R159, R161): a Command
transaction, a Data transaction, and no register of the block changes, `PIXFMT` included. A word left by an aborted
write is captured first (log 17). -/
def Obligations.WireCommandsWithParametersSend : Prop :=
  ∀ (s : State) (i : Instr) (opc : Byte) (params : List Byte),
    (∃ a0 a1, i = .cmdColumnAddressSet a0 a1 ∧ opc = 0x2A ∧ params = coordBytes a0 a1) ∨
    (∃ a0 a1, i = .cmdPageAddressSet a0 a1 ∧ opc = 0x2B ∧ params = coordBytes a0 a1) ∨
    (∃ m, i = .cmdMemoryAccessControl m ∧ opc = 0x36 ∧ params = [m]) ∨
    (∃ b, i = .cmdInterfacePixelFormat b ∧ opc = 0x3A ∧ params = [b]) →
    s.inited = true → s.quietFor (wireCost s.cfg params.length) = true →
    ∃ t, exec i s = .next t ∧ t.EndedWith .ok ∧ s.KeepsRegisters t ∧
      t.stream = s.stream ++ s.leftWord ++ wireStream opc params ∧
      t.events = s.events ++ wireEvents s.cfg opc params ++ [.done .ok] ∧
      (s.cfg.isSerial = false → ∀ b, params.getLast? = some b → t.RestsAfterWrite .data (wordOfByte b))

/-- A wire command is the WRITE_COMMAND it expands to, however it ends (R86, R150 to R161). -/
def Obligations.WireCommandsAreWriteCommands : Prop :=
  ∀ (s : State) (i : Instr) (opc : Byte) (params : List Byte), encode i = .wire opc params →
    exec i s = exec (.writeCommand opc (BitVec.ofNat 32 params.length))
      { s with plWords := params.map wordOfByte }

/-- What the monitor records of the twelve wire commands, where no pin operation faults and no write was left half done
(R33 to R36, R150 to R161): `DEVFMT` is unknown after a format byte other than 0x55 and 0x66, and `OWED` is None after
every command but the memory write. The record is the model's reading of D25 (log 9). -/
def Obligations.MonitorRecordsWireCommands : Prop :=
  ∀ s : State, s.inited = true → s.Settled →
    (∀ io ∈ parameterless, s.quietFor (wireCost s.cfg 0) = true →
      ∃ t, exec io.1 s = .next t ∧ t.ghost.devWin = s.ghost.devWin ∧
        t.ghost.phase =
          (if io.2 = 0x01 then Phase.reset else if io.2 = 0x11 then .sleepOut else if io.2 = 0x13 then .normalDisplay
            else if io.2 = 0x29 then .displayOn else s.ghost.phase) ∧
        t.ghost.devFmt = (if io.2 = 0x01 then DevFmt.unknown else s.ghost.devFmt) ∧
        (io.2 ≠ 0x2C → t.ghost.owed = none) ∧
        (io.2 = 0x2C → s.ghost.devWin.c0.toNat ≤ s.ghost.devWin.c1.toNat →
          s.ghost.devWin.p0.toNat ≤ s.ghost.devWin.p1.toNat →
          t.ghost.owed = some (((s.ghost.devWin.c1.toNat : Int) - s.ghost.devWin.c0.toNat + 1)
            * ((s.ghost.devWin.p1.toNat : Int) - s.ghost.devWin.p0.toNat + 1)))) ∧
    (∀ a0 a1, s.quietFor (wireCost s.cfg 4) = true →
      ∃ t, exec (.cmdColumnAddressSet a0 a1) s = .next t ∧
        t.ghost.devWin = { s.ghost.devWin with c0 := a0, c1 := a1 } ∧ t.ghost.phase = s.ghost.phase ∧
        t.ghost.devFmt = s.ghost.devFmt ∧ t.ghost.owed = none) ∧
    (∀ a0 a1, s.quietFor (wireCost s.cfg 4) = true →
      ∃ t, exec (.cmdPageAddressSet a0 a1) s = .next t ∧
        t.ghost.devWin = { s.ghost.devWin with p0 := a0, p1 := a1 } ∧ t.ghost.phase = s.ghost.phase ∧
        t.ghost.devFmt = s.ghost.devFmt ∧ t.ghost.owed = none) ∧
    (∀ m, s.quietFor (wireCost s.cfg 1) = true →
      ∃ t, exec (.cmdMemoryAccessControl m) s = .next t ∧ t.ghost.devWin = s.ghost.devWin ∧
        t.ghost.phase = s.ghost.phase ∧ t.ghost.devFmt = s.ghost.devFmt ∧ t.ghost.owed = none) ∧
    (∀ b, s.quietFor (wireCost s.cfg 1) = true →
      ∃ t, exec (.cmdInterfacePixelFormat b) s = .next t ∧ t.ghost.devWin = s.ghost.devWin ∧
        t.ghost.phase = .formatSet ∧
        t.ghost.devFmt = (if b = 0x55 then DevFmt.rgb565 else if b = 0x66 then .rgb666 else .unknown) ∧
        t.ghost.owed = none)

/-- READ_COMMAND in which no pin operation faults (R143, R108): the opcode, then exactly `n` samples, each handed over
whole as the device drives it (R107). The levels the device drives are an input of the model (log 5); that a serial
bus reads whatever the pin variant is the model's choice (log 10). A word left by an aborted write is captured first
(log 17). -/
def Obligations.ReadCommandReads : Prop :=
  ∀ (s : State) (opc : Byte) (len : BitVec 32),
    s.inited = true → len ≠ 0 → s.cfg.isSerial = true ∨ s.cfg.pinVariant = .bidirectional →
    s.quietFor (writeCost s.cfg 1 + readCost s.cfg len.toNat) = true →
    ∃ t, exec (.readCommand opc len) s = .next t ∧ t.EndedWith .ok ∧ t.rdWords.length = len.toNat ∧
      ({ s with rdWords := t.rdWords, levels := t.levels } : State).KeepsRegisters t ∧
      t.stream = s.stream ++ s.leftWord ++ [(.command, wordOfByte opc)] ∧
      t.events = s.events ++ writeEvents s.cfg .command [wordOfByte opc] ++ readEvents s.cfg t.rdWords ++ [.done .ok] ∧
      (∀ ws rest, ws.length = len.toNat → s.levels = levelsOf s.cfg.width.bits ws ++ rest →
        t.rdWords = ws.map (busWord s.cfg.width) ∧ t.levels = rest) ∧
      (s.cfg.isSerial = false → t.RestsAfterRead)

/-! ## The bus requests -/

/-- BUS_WRITE of at least one word in which no pin operation faults and every word is supplied (R101, R103).
It ends so from every state, one that an aborted request left included (R110, R200); a word left by an aborted write is
captured first (log 17). -/
def Obligations.BusWriteSends : Prop :=
  ∀ (s : State) (mode : Mode) (len : BitVec 32) (words : List Word) (v : Word),
    s.inited = true → len ≠ 0 → len.toNat ≤ s.plWords.length →
    s.quietFor (writeCost s.cfg len.toNat) = true →
    words = (s.plWords.take len.toNat).map (busWord s.cfg.width) → words.getLast? = some v →
    ∃ t, exec (.busWrite mode len) s = .next t ∧ t.EndedWith .ok ∧ s.KeepsRegisters t ∧
      t.stream = s.stream ++ s.leftWord ++ tagged mode words ∧
      t.events = s.events ++ writeEvents s.cfg mode words ++ [.done .ok] ∧
      (s.cfg.isSerial = false → t.RestsAfterWrite mode v)

/-- A write of no words performs no pin operation, even if the next one would fault (R105): BUS_WRITE with `req_len` = 0,
and WRITE_REPEATED_PIXEL with count 0 of a pixel that can be encoded, which still encodes it (R129). -/
def Obligations.EmptyWritesDoNothing : Prop :=
  ∀ s : State, s.inited = true →
    (∀ mode, exec (.busWrite mode 0) s = .next s.finish) ∧
    (∀ p ws, encodePixels s.cfg.pack565 s.pixFmt s.cfg.width p none = some ws →
      exec (.writeRepeatedPixel p 0) s = .next { s.finish with enc := ws })

/-- R112: the pin operations of a write transaction of `n` words and of a read transaction of `k` samples that do not
fault, on a parallel bus. -/
def Obligations.TransactionsCountTheirPinOperations : Prop :=
  ∀ s : State, s.inited = true → s.cfg.isSerial = false → s.faults = [] →
    (∀ mode len, len ≠ 0 → len.toNat ≤ s.plWords.length →
      ∃ t, exec (.busWrite mode len) s = .next t ∧
        pinOperations t.trace = pinOperations s.trace + (7 + len.toNat * (2 * s.cfg.width.bits + 2))) ∧
    (∀ k rest, s.cfg.pinVariant = .bidirectional → s.rdMore = List.replicate k true ++ false :: rest →
      ∃ t, exec .busRead s = .next t ∧
        pinOperations t.trace = pinOperations s.trace + (7 + s.cfg.width.bits + (k + 1) * (s.cfg.width.bits + 2)))

/-- BUS_READ whose continuation's first "stop" is its `k+1`-th answer, in which no pin operation faults (R106, R107,
R108): exactly `k+1` samples with one pulse each, handed over as the device drives them. The levels the device drives
are an input of the model (log 5); that a serial bus reads whatever the pin variant is the model's choice (log 10). A
word left by an aborted write is captured first (log 17). -/
def Obligations.BusReadStopsWhenTold : Prop :=
  ∀ (s : State) (k : Nat) (more : List Bool),
    s.inited = true → s.cfg.isSerial = true ∨ s.cfg.pinVariant = .bidirectional →
    s.rdMore = List.replicate k true ++ false :: more → s.quietFor (readCost s.cfg (k + 1)) = true →
    ∃ t, exec .busRead s = .next t ∧ t.EndedWith .ok ∧ t.rdWords.length = k + 1 ∧
      ({ s with rdWords := t.rdWords, levels := t.levels } : State).KeepsRegisters t ∧
      t.stream = s.stream ++ s.leftWord ∧ t.dout = s.dout ∧ (s.Settled → t.ghost = s.ghost) ∧
      t.events = s.events ++ readEvents s.cfg t.rdWords ++ [.done .ok] ∧
      (∀ ws rest, ws.length = k + 1 → s.levels = levelsOf s.cfg.width.bits ws ++ rest →
        t.rdWords = ws.map (busWord s.cfg.width) ∧ t.levels = rest) ∧
      (s.cfg.isSerial = false → t.RestsAfterRead ∧ readPulses t.trace = readPulses s.trace + (k + 1))

/-- A request whose requester supplies too few payload elements, or never answers "stop", never ends: it tells no
status, `BUSY` stays 1, and there is no further step (R207, R235). The state with BUSY at 1 and the fault after it are
the model's form of 'stuck' (log 13). -/
def Obligations.UnansweredRequestsNeverEnd : Prop :=
  ∀ s : State, s.inited = true → s.busy = true → s.faults = [] →
    (∀ opc len, s.plWords.length < len.toNat →
      ∃ t, exec (.writeCommand opc len) s = .next t ∧ t.busy = true ∧ t.status = s.status ∧
        step t = .fault .neverFinishes) ∧
    (∀ mode len, s.plWords.length < len.toNat →
      ∃ t, exec (.busWrite mode len) s = .next t ∧ t.busy = true ∧ t.status = s.status ∧
        step t = .fault .neverFinishes) ∧
    (s.cfg.pinVariant = .bidirectional → (∀ b ∈ s.rdMore, b = true) →
      ∃ t, exec .busRead s = .next t ∧ t.busy = true ∧ t.status = s.status ∧ step t = .fault .neverFinishes)

/-- A read on output-only pins fails at the first data pin (R95, R109, R195): the four opening operations, no read pulse,
and the device stays selected. The opcode of READ_COMMAND has been sent by then. A word left by an aborted write is
captured first (log 17). -/
def Obligations.OutputOnlyPinsCannotRead : Prop :=
  ∀ s : State, s.inited = true → s.cfg.isSerial = false → s.cfg.pinVariant = .outputOnly →
    (s.quietFor 4 = true →
      ∃ t, exec .busRead s = .next t ∧ t.EndedWith .inputNotAvailable ∧ t.cs = false ∧ t.dcx = true ∧
        t.stream = s.stream ++ s.leftWord ∧ t.ddir = s.ddir ∧ readPulses t.trace = readPulses s.trace ∧
        t.events = s.events ++ [.set .rdx true, .set .wrx true, .set .cs false, .set .dcx true,
          .done .inputNotAvailable]) ∧
    (∀ opc len, len ≠ 0 → s.quietFor (writeCost s.cfg 1 + 4) = true →
      ∃ t, exec (.readCommand opc len) s = .next t ∧ t.EndedWith .inputNotAvailable ∧ t.cs = false ∧ t.dcx = true ∧
        t.stream = s.stream ++ s.leftWord ++ [(.command, wordOfByte opc)] ∧ readPulses t.trace = readPulses s.trace ∧
        t.events = s.events ++ writeEvents s.cfg .command [wordOfByte opc]
          ++ [.set .rdx true, .set .wrx true, .set .cs false, .set .dcx true, .done .inputNotAvailable])

/-- A pin fault aborts a transaction precisely (R110, R198): the operations before it have their events and their
latches, it and those after it have neither, the closing sequence included. The status is `BusWriteError` in a write
transaction, the opcode of READ_COMMAND included (R97, R191), and `BusReadError` in a read transaction (R97, R192), so
long as the read does not fail for its pin variant before. Where the fault falls, and the levels that are sampled, are
inputs the model holds in its state (log 4, 5); a serial transaction is one event, with one question to the pin
provider (log 10). -/
def Obligations.TransactionAbortIsPrecise : Prop :=
  ∀ (s : State) (q : Nat) (rest : List Nat), s.inited = true →
    (∀ (mode : Mode) (len : BitVec 32) (words : List Word),
      len ≠ 0 → len.toNat ≤ s.plWords.length → s.faults = q :: rest → q < writeCost s.cfg len.toNat →
      words = (s.plWords.take len.toNat).map (busWord s.cfg.width) →
      ∃ t, exec (.busWrite mode len) s = .next t ∧ t.EndedWith .busWriteError ∧ s.KeepsRegisters t ∧ t.faults = rest ∧
        t.events = s.events ++ (writeEvents s.cfg mode words).take q ++ [.done .busWriteError] ∧
        t.lines = ((writeEvents s.cfg mode words).take q).foldl (Lines.after s.cfg.width) s.lines) ∧
    (∀ (k : Nat) (more : List Bool),
      s.rdMore = List.replicate k true ++ false :: more → s.faults = q :: rest → q < readCost s.cfg (k + 1) →
      s.cfg.pinVariant = .bidirectional ∨ q < 4 →
      ∃ (t : State) (samples : List Word),
        exec .busRead s = .next t ∧ t.EndedWith .busReadError ∧ samples.length = k + 1 ∧
        ({ s with rdWords := t.rdWords, levels := t.levels } : State).KeepsRegisters t ∧ t.faults = rest ∧
        (∀ ws more, ws.length = k + 1 → s.levels = levelsOf s.cfg.width.bits ws ++ more →
          samples = ws.map (busWord s.cfg.width)) ∧
        t.events = s.events ++ (readEvents s.cfg samples).take q ++ [.done .busReadError] ∧
        t.lines = ((readEvents s.cfg samples).take q).foldl (Lines.after s.cfg.width) s.lines) ∧
    (∀ (opc : Byte) (len : BitVec 32), len ≠ 0 → s.faults = q :: rest → q < writeCost s.cfg 1 →
      ∃ t, exec (.readCommand opc len) s = .next t ∧ t.EndedWith .busWriteError ∧
        ({ s with rdWords := t.rdWords } : State).KeepsRegisters t ∧ t.faults = rest ∧
        t.events = s.events ++ (writeEvents s.cfg .command [wordOfByte opc]).take q ++ [.done .busWriteError] ∧
        t.lines = ((writeEvents s.cfg .command [wordOfByte opc]).take q).foldl (Lines.after s.cfg.width) s.lines) ∧
    (∀ (opc : Byte) (len : BitVec 32),
      len ≠ 0 → s.faults = (writeCost s.cfg 1 + q) :: rest → q < readCost s.cfg len.toNat →
      s.cfg.pinVariant = .bidirectional ∨ q < 4 →
      ∃ (t : State) (samples : List Word),
        exec (.readCommand opc len) s = .next t ∧ t.EndedWith .busReadError ∧ samples.length = len.toNat ∧
        ({ s with rdWords := t.rdWords, levels := t.levels } : State).KeepsRegisters t ∧ t.faults = rest ∧
        (∀ ws more, ws.length = len.toNat → s.levels = levelsOf s.cfg.width.bits ws ++ more →
          samples = ws.map (busWord s.cfg.width)) ∧
        t.events = s.events ++ writeEvents s.cfg .command [wordOfByte opc] ++ (readEvents s.cfg samples).take q
          ++ [.done .busReadError] ∧
        t.lines = (writeEvents s.cfg .command [wordOfByte opc] ++ (readEvents s.cfg samples).take q).foldl
          (Lines.after s.cfg.width) s.lines)

/-- Every pin access of a transaction follows the matching switch of that pin (R94). -/
def Obligations.ModeBeforeAccess : Prop :=
  ∀ (c : Config) (ddir : Word) (m : Mode) (burst : List (Mark × Word)) (k : Nat), c.isSerial = false →
    guardsHold ddir (writeOps c m burst) = true ∧ guardsHold ddir (readOps c k) = true

/-- With the data-pin operations removed a transaction is the same for every parallel bus width (R111). -/
def Obligations.StrobesAreTheSameForEveryWidth : Prop :=
  ∀ (c d : Config) (m : Mode) (burst : List (Mark × Word)) (k : Nat), c.isSerial = false → d.isSerial = false →
    (writeOps c m burst).filter (fun op => !op.onDataPin) = (writeOps d m burst).filter (fun op => !op.onDataPin) ∧
    (readOps c k).filter (fun op => !op.onDataPin) = (readOps d k).filter (fun op => !op.onDataPin)

/-! ## The pixel encoder and the pixel requests -/

/-- The two bytes of an RGB565 pixel on an 8-bit bus, field by field (R121, R132; the layout of D13 and C1). -/
def Obligations.Rgb565OnEightBits : Prop :=
  ∀ p : Pixel, ∃ b0 b1 : Word, encodePixels .consistent .rgb565 .w8 p none = some [b0, b1] ∧
    b0.extractLsb' 3 5 = p.r.extractLsb' 0 5 ∧ b0.extractLsb' 0 3 = p.g.extractLsb' 3 3 ∧ b0.toNat < 256 ∧
    b1.extractLsb' 5 3 = p.g.extractLsb' 0 3 ∧ b1.extractLsb' 0 5 = p.b.extractLsb' 0 5 ∧ b1.toNat < 256

/-- The word of an RGB565 pixel on a 16-bit bus, field by field (R122; the layout of D13 and C2). -/
def Obligations.Rgb565OnSixteenBits : Prop :=
  ∀ p : Pixel, ∃ v : Word, encodePixels .consistent .rgb565 .w16 p none = some [v] ∧
    v.extractLsb' 11 5 = p.r.extractLsb' 0 5 ∧ v.extractLsb' 5 6 = p.g.extractLsb' 0 6 ∧
    v.extractLsb' 0 5 = p.b.extractLsb' 0 5 ∧ v.toNat < 65536

/-- R123: the three bytes of an RGB666 pixel on an 8-bit bus: each channel shifted left by 2, cut to a byte, so that its
bits 5 to 0 stand in bits 7 to 2. -/
def Obligations.Rgb666OnEightBits : Prop :=
  ∀ (pack : Pack565) (p : Pixel),
    ∃ r g b : Word, encodePixels pack .rgb666 .w8 p none = some [r, g, b] ∧
      r = (p.r <<< 2).setWidth 32 ∧ g = (p.g <<< 2).setWidth 32 ∧ b = (p.b <<< 2).setWidth 32 ∧
      (∀ v c, (v, c) ∈ [(r, p.r), (g, p.g), (b, p.b)] →
        v.extractLsb' 2 6 = c.extractLsb' 0 6 ∧ v.extractLsb' 0 2 = 0 ∧ v.toNat < 256)

/-- The word of an RGB666 pixel on an 18-bit bus, field by field (R125). The masks of 6 bits are the spec's own reading
(D15), and so are the zero bits above bit 17 (D36). -/
def Obligations.Rgb666OnEighteenBits : Prop :=
  ∀ (pack : Pack565) (p : Pixel),
    ∃ v : Word, encodePixels pack .rgb666 .w18 p none = some [v] ∧
      v.extractLsb' 12 6 = p.r.extractLsb' 0 6 ∧ v.extractLsb' 6 6 = p.g.extractLsb' 0 6 ∧
      v.extractLsb' 0 6 = p.b.extractLsb' 0 6 ∧ v.extractLsb' 18 14 = 0

/-- The three words of two RGB666 pixels on a 16-bit bus, field by field; one pixel is a pair with a zero second pixel,
cut to two words (R124). The bit positions are the spec's own (D14, G1). -/
def Obligations.Rgb666OnSixteenBits : Prop :=
  ∀ (pack : Pack565) (p q : Pixel),
    (∃ v0 v1 v2 : Word, encodePixels pack .rgb666 .w16 p (some q) = some [v0, v1, v2] ∧
      v0.extractLsb' 10 6 = p.r.extractLsb' 0 6 ∧ v0.extractLsb' 2 6 = p.g.extractLsb' 0 6 ∧
      v1.extractLsb' 10 6 = p.b.extractLsb' 0 6 ∧ v1.extractLsb' 2 6 = q.r.extractLsb' 0 6 ∧
      v2.extractLsb' 10 6 = q.g.extractLsb' 0 6 ∧ v2.extractLsb' 2 6 = q.b.extractLsb' 0 6 ∧
      (∀ v ∈ [v0, v1, v2], v.extractLsb' 0 2 = 0 ∧ v.extractLsb' 8 2 = 0 ∧ v.extractLsb' 16 16 = 0)) ∧
    (∃ ws, encodePixels pack .rgb666 .w16 p (some { r := 0, g := 0, b := 0 }) = some ws ∧
      encodePixels pack .rgb666 .w16 p none = some (ws.take 2))

/-- R131: the 8-bit and the 16-bit bus send the same pixel. -/
def Obligations.CrossWidthConsistency : Prop :=
  ∀ p q : Pixel,
    (∃ b0 b1, encodePixels .consistent .rgb565 .w8 p none = some [b0, b1] ∧
      encodePixels .consistent .rgb565 .w16 p none = some [b0 <<< 8 ||| b1]) ∧
    (∃ a0 a1 a2 a3 a4 a5, encodePixels .consistent .rgb666 .w8 p (some q) = some [a0, a1, a2, a3, a4, a5] ∧
      encodePixels .consistent .rgb666 .w16 p (some q) = some [a0 <<< 8 ||| a1, a2 <<< 8 ||| a3, a4 <<< 8 ||| a5])

/-- The encoder fails for `Rgb565` on 18 bits only, two pixels are sent independently everywhere but in `Rgb666` on 16
bits, and every word fits the bus (R126, R84, R7, R133). -/
def Obligations.EncoderRows : Prop :=
  ∀ (pack : Pack565) (fmt : PixFmt) (w : Width) (p q : Pixel),
    (encodePixels pack fmt w p none = none ↔ fmt = .rgb565 ∧ w = .w18) ∧
    (encodePixels pack fmt w p (some q) = none ↔ fmt = .rgb565 ∧ w = .w18) ∧
    (∀ ws ws', encodePixels pack fmt w p none = some ws → encodePixels pack fmt w q none = some ws' →
      ¬ (fmt = .rgb666 ∧ w = .w16) → encodePixels pack fmt w p (some q) = some (ws ++ ws')) ∧
    (∀ ws, encodePixels pack fmt w p none = some ws ∨ encodePixels pack fmt w p (some q) = some ws →
      ∀ v ∈ ws, busWord w v = v)

/-- WRITE_PIXELS of a pixel, or two, that can be encoded, in which no pin operation faults (R127): one Data transaction
of the encoded words. A word left by an aborted write is captured first (log 17). -/
def Obligations.WritePixelsSends : Prop :=
  ∀ (s : State) (p1 : Pixel) (p2 : Option Pixel) (ws : List Word) (v : Word),
    s.inited = true → encodePixels s.cfg.pack565 s.pixFmt s.cfg.width p1 p2 = some ws →
    ws.getLast? = some v → s.quietFor (writeCost s.cfg ws.length) = true →
    ∃ t, exec (.writePixels p1 p2) s = .next t ∧ t.EndedWith .ok ∧ s.KeepsRegisters t ∧
      t.stream = s.stream ++ s.leftWord ++ tagged .data ws ∧
      t.events = s.events ++ writeEvents s.cfg .data ws ++ [.done .ok] ∧
      (s.cfg.isSerial = false → t.RestsAfterWrite .data v)

/-- The two pixel-writer requests fail before any pin operation when the format is `Rgb565` on an 18-bit bus (R84, R127,
R129, R194), with count 0 too. -/
def Obligations.UnencodablePixelOnlyFails : Prop :=
  ∀ (s : State) (p1 : Pixel) (p2 : Option Pixel) (len : BitVec 32),
    s.inited = true → s.pixFmt = .rgb565 → s.cfg.width = .w18 →
    (∃ t, exec (.writePixels p1 p2) s = .next t ∧ s.OnlyFails .dataFormatNotImplemented t) ∧
    (∃ t, exec (.writeRepeatedPixel p1 len) s = .next t ∧ s.OnlyFails .dataFormatNotImplemented t)

/-- WRITE_REPEATED_PIXEL of a pixel that can be encoded, in which no pin operation faults (R129): the pixel is encoded
once, into `ENC`, and sent `n` times in one Data transaction, after a word left by an aborted write (log 17); with count 0
there is no transaction. -/
def Obligations.RepeatedPixelSends : Prop :=
  ∀ (s : State) (p : Pixel) (len : BitVec 32) (ws : List Word),
    s.inited = true → encodePixels s.cfg.pack565 s.pixFmt s.cfg.width p none = some ws →
    s.quietFor (writeCost s.cfg (len.toNat * ws.length)) = true →
    ∃ t, exec (.writeRepeatedPixel p len) s = .next t ∧ t.EndedWith .ok ∧
      ({ s with enc := ws } : State).KeepsRegisters t ∧
      t.stream = s.stream ++ (if len = 0 then [] else s.leftWord) ++ tagged .data (List.replicate len.toNat ws).flatten ∧
      t.events = s.events ++ writeEvents s.cfg .data (List.replicate len.toNat ws).flatten ++ [.done .ok] ∧
      (s.cfg.isSerial = false → len ≠ 0 → ∀ v, ws.getLast? = some v → t.RestsAfterWrite .data v)

/-- R130: the fast path sends the same captured word stream as `n` single-pixel requests. -/
def Obligations.RepeatedPixelFastPath : Prop :=
  ∀ (s : State) (p : Pixel) (len : BitVec 32) (ws : List Word),
    s.inited = true → encodePixels s.cfg.pack565 s.pixFmt s.cfg.width p none = some ws →
    s.quietFor (len.toNat * writeCost s.cfg ws.length) = true →
    ∃ t u, exec (.writeRepeatedPixel p len) s = .next t ∧
      execTimes (.writePixels p none) len.toNat s = .next u ∧ t.stream = u.stream

/-! ## The drawing requests -/

/-- DRAW_PIXEL of a pixel that can be encoded, in which no pin operation faults (R174): a 1×1 window, the memory-write
command, and one pixel. The ghost record is the model's reading of D25 (log 9). A word left by an aborted write is
captured first (log 17). -/
def Obligations.DrawPixelSends : Prop :=
  ∀ (s : State) (x y : Coord) (p : Pixel) (ws : List Word) (v : Word),
    s.inited = true → encodePixels s.cfg.pack565 s.pixFmt s.cfg.width p none = some ws →
    ws.getLast? = some v → s.quietFor (windowCost s.cfg + writeCost s.cfg ws.length) = true →
    ∃ t, exec (.drawPixel x y p) s = .next t ∧ t.EndedWith .ok ∧ s.KeepsRegisters t ∧
      t.ghost.devWin = { c0 := x, c1 := x, p0 := y, p1 := y } ∧
      t.stream = s.stream ++ s.leftWord ++ windowStream x x y y ++ tagged .data ws ∧
      t.events = s.events ++ wireEvents s.cfg 0x2A (coordBytes x x) ++ wireEvents s.cfg 0x2B (coordBytes y y)
        ++ wireEvents s.cfg 0x2C [] ++ writeEvents s.cfg .data ws ++ [.done .ok] ∧
      (s.cfg.isSerial = false → t.RestsAfterWrite .data v)

/-- DRAW_RECT of a colour that can be encoded, in which no pin operation faults (R175, R176, R79, R80): the window,
the memory-write command, a transaction for each pair of pixels, and one for the last odd pixel. The ghost record is
the model's reading of D25 (log 9). A word left by an aborted write is captured first (log 17). -/
def Obligations.DrawRectSends : Prop :=
  ∀ (s : State) (x y w h x1 y1 : Coord) (p : Pixel) (pair one : List Word) (n : Nat),
    s.inited = true → w ≠ 0 → h ≠ 0 →
    x1.toNat = x.toNat + w.toNat - 1 → y1.toNat = y.toNat + h.toNat - 1 → n = w.toNat * h.toNat →
    encodePixels s.cfg.pack565 s.pixFmt s.cfg.width p (some p) = some pair →
    encodePixels s.cfg.pack565 s.pixFmt s.cfg.width p none = some one →
    s.quietFor (windowCost s.cfg + n / 2 * writeCost s.cfg pair.length + n % 2 * writeCost s.cfg one.length) = true →
    ∃ t, exec (.drawRect x y w h p) s = .next t ∧ t.EndedWith .ok ∧ s.KeepsRegisters t ∧
      t.ghost.devWin = { c0 := x, c1 := x1, p0 := y, p1 := y1 } ∧
      t.stream = s.stream ++ s.leftWord ++ windowStream x x1 y y1
        ++ tagged .data ((List.replicate (n / 2) pair).flatten ++ (List.replicate (n % 2) one).flatten) ∧
      t.events = s.events ++ wireEvents s.cfg 0x2A (coordBytes x x1) ++ wireEvents s.cfg 0x2B (coordBytes y y1)
        ++ wireEvents s.cfg 0x2C []
        ++ (List.replicate (n / 2) (writeEvents s.cfg .data pair)).flatten
        ++ (List.replicate (n % 2) (writeEvents s.cfg .data one)).flatten ++ [.done .ok]

/-- CLEAR_SCREEN (R149) delegates to the rectangle fill over the full panel extent with black. When no pin operation
faults it sends the window of columns 0 to 319 and pages 0 to 479 and then exactly 153600 black pixels, in 76800 pair
writes and no single write, every word of them zero. The captured words are those where no write was left half done. -/
def Obligations.ClearScreenSends : Prop :=
  ∀ s : State,
    exec .clearScreen s = exec (.drawRect 0 0 s.cfg.panelW s.cfg.panelH { r := 0, g := 0, b := 0 }) s ∧
    (∀ pair : List Word,
      s.inited = true → s.cfg.Valid →
      encodePixels s.cfg.pack565 s.pixFmt s.cfg.width { r := 0, g := 0, b := 0 } (some { r := 0, g := 0, b := 0 })
        = some pair →
      s.quietFor (windowCost s.cfg + 76800 * writeCost s.cfg pair.length) = true →
      ∃ t, exec .clearScreen s = .next t ∧ t.EndedWith .ok ∧ s.KeepsRegisters t ∧
        (s.Settled → t.stream = s.stream ++ windowStream 0 319 0 479
          ++ tagged .data (List.replicate (76800 * pair.length) 0)) ∧
        t.events = s.events ++ wireEvents s.cfg 0x2A (coordBytes 0 319) ++ wireEvents s.cfg 0x2B (coordBytes 0 479)
          ++ wireEvents s.cfg 0x2C [] ++ (List.replicate 76800 (writeEvents s.cfg .data pair)).flatten
          ++ [.done .ok])

/-- A drawing request on an 18-bit bus in `Rgb565` fails after the window and the memory-write command have been sent
(R194, R199, R178); DRAW_PIXEL then leaves one pixel owed. The ghost record is the model's reading of D25 (log 9). A
word left by an aborted write is captured first (log 17). -/
def Obligations.UnencodableDrawingFailsAfterTheWindow : Prop :=
  ∀ s : State, s.inited = true → s.pixFmt = .rgb565 → s.cfg.width = .w18 →
    s.quietFor (windowCost s.cfg) = true →
    (∀ x y p, ∃ t, exec (.drawPixel x y p) s = .next t ∧ t.EndedWith .dataFormatNotImplemented ∧
      s.KeepsRegisters t ∧ t.stream = s.stream ++ s.leftWord ++ windowStream x x y y ∧ t.ghost.owed = some 1) ∧
    (∀ x y w h p (x1 y1 : Coord), w ≠ 0 → h ≠ 0 → x1.toNat = x.toNat + w.toNat - 1 → y1.toNat = y.toNat + h.toNat - 1 →
      ∃ t, exec (.drawRect x y w h p) s = .next t ∧ t.EndedWith .dataFormatNotImplemented ∧
        s.KeepsRegisters t ∧ t.stream = s.stream ++ s.leftWord ++ windowStream x x1 y y1) ∧
    (s.cfg.Valid → ∃ t, exec .clearScreen s = .next t ∧ t.EndedWith .dataFormatNotImplemented ∧
      s.KeepsRegisters t ∧ t.stream = s.stream ++ s.leftWord ++ windowStream 0 319 0 479)

/-- DRAW_PIXEL, DRAW_RECT and CLEAR_SCREEN send exactly the pixels of their window when they end with OK (R229, R59).
The count is the ghost OWED as the model's monitor keeps it (log 9). -/
def Obligations.DrawingSendsExactlyTheWindow : Prop :=
  ∀ (i : Instr) (s t : State),
    (∃ x y p, i = .drawPixel x y p) ∨ (∃ x y w h p, i = .drawRect x y w h p) ∨ i = .clearScreen →
    s.busy = true → exec i s = .next t → t.status = .ok → t.ghost.owed = some 0

/-! ## The whole machine -/

/-- A request only appends to the trace (R67), and the lines and the captured word stream after it are those that its
own events make of the ones before it (R11, R23 to R26, R110). A serial transaction is one event, by the model's
choice (log 10). -/
def Obligations.RequestsAppendToTheTrace : Prop :=
  ∀ (i : Instr) (s t : State), exec i s = .next t →
    ∃ new, t.events = s.events ++ new ∧ t.lines = new.foldl (Lines.after s.cfg.width) s.lines

/-- Every step keeps the lines and the captured word stream those that the trace tells (R11, R23 to R26). A serial
transaction is one event, by the model's choice, and the lines before the first request are those of log 2 (log 2,
10). -/
def Obligations.StepKeepsLinesFollowTrace : Prop :=
  ∀ s t : State, s.LinesFollowTrace → step s = .next t → t.LinesFollowTrace

/-- Every step keeps `DOUT` and `DDIR` within `W` bits, and `DDIR` hardwired to ones on output-only pins (R25, R26,
R95). That the levels before the first request fit too rests on log 2. -/
def Obligations.StepKeepsDataPinsFit : Prop :=
  ∀ s t : State, s.DataPinsFit → step s = .next t → t.DataPinsFit

/-- Every step keeps `BUSY` in agreement with `SEQ`, `STATUS` with the newest `Done` event, and `ENC` at most three
words long (R27, R31, R32). -/
def Obligations.StepKeepsFlagsAgree : Prop :=
  ∀ s t : State, s.FlagsAgree → step s = .next t → t.FlagsAgree

/-- The block right after its hardware reset meets the three invariants, whatever its parameters. This rests on the
values of log 2. -/
def Obligations.ResetMeetsTheInvariants : Prop :=
  ∀ c : Config, (State.resetOf c).LinesFollowTrace ∧ (State.resetOf c).DataPinsFit ∧ (State.resetOf c).FlagsAgree
end

