-- ==== Sys2Proof/Laws/State.lean ====
section
/-! SUPPORT. One lemma for each field of `State` and each named update of it. -/

namespace Sys2Proof.Machine

/-! ## `State.emit` -/

@[simp] theorem State.emit_cfg (e : Event) (s : State) : (s.emit e).cfg = s.cfg := rfl
@[simp] theorem State.emit_pixFmt (e : Event) (s : State) : (s.emit e).pixFmt = s.pixFmt := rfl
@[simp] theorem State.emit_cs (e : Event) (s : State) : (s.emit e).cs = s.cs := rfl
@[simp] theorem State.emit_dcx (e : Event) (s : State) : (s.emit e).dcx = s.dcx := rfl
@[simp] theorem State.emit_rdx (e : Event) (s : State) : (s.emit e).rdx = s.rdx := rfl
@[simp] theorem State.emit_wrx (e : Event) (s : State) : (s.emit e).wrx = s.wrx := rfl
@[simp] theorem State.emit_resx (e : Event) (s : State) : (s.emit e).resx = s.resx := rfl
@[simp] theorem State.emit_dout (e : Event) (s : State) : (s.emit e).dout = s.dout := rfl
@[simp] theorem State.emit_ddir (e : Event) (s : State) : (s.emit e).ddir = s.ddir := rfl
@[simp] theorem State.emit_inited (e : Event) (s : State) : (s.emit e).inited = s.inited := rfl
@[simp] theorem State.emit_busy (e : Event) (s : State) : (s.emit e).busy = s.busy := rfl
@[simp] theorem State.emit_status (e : Event) (s : State) : (s.emit e).status = s.status := rfl
@[simp] theorem State.emit_seq (e : Event) (s : State) : (s.emit e).seq = s.seq.map (· + 1) := rfl
@[simp] theorem State.emit_lat (e : Event) (s : State) : (s.emit e).lat = s.lat := rfl
@[simp] theorem State.emit_enc (e : Event) (s : State) : (s.emit e).enc = s.enc := rfl
@[simp] theorem State.emit_ghost (e : Event) (s : State) : (s.emit e).ghost = s.ghost := rfl
@[simp] theorem State.emit_pending (e : Event) (s : State) : (s.emit e).pending = s.pending := rfl
@[simp] theorem State.emit_plWords (e : Event) (s : State) : (s.emit e).plWords = s.plWords := rfl
@[simp] theorem State.emit_rdMore (e : Event) (s : State) : (s.emit e).rdMore = s.rdMore := rfl
@[simp] theorem State.emit_rdWords (e : Event) (s : State) : (s.emit e).rdWords = s.rdWords := rfl
@[simp] theorem State.emit_sample (e : Event) (s : State) : (s.emit e).sample = s.sample := rfl
@[simp] theorem State.emit_faults (e : Event) (s : State) : (s.emit e).faults = s.faults := rfl
@[simp] theorem State.emit_levels (e : Event) (s : State) : (s.emit e).levels = s.levels := rfl
@[simp] theorem State.emit_draws (e : Event) (s : State) : (s.emit e).draws = s.draws := rfl
@[simp] theorem State.emit_trace (e : Event) (s : State) : (s.emit e).trace = e :: s.trace := rfl
@[simp] theorem State.emit_captured (e : Event) (s : State) : (s.emit e).captured = s.captured := rfl

/-! ## `State.setDir` -/

@[simp] theorem State.setDir_cfg (i : Nat) (dir : Dir) (s : State) : (s.setDir i dir).cfg = s.cfg := rfl
@[simp] theorem State.setDir_pixFmt (i : Nat) (dir : Dir) (s : State) : (s.setDir i dir).pixFmt = s.pixFmt := rfl
@[simp] theorem State.setDir_cs (i : Nat) (dir : Dir) (s : State) : (s.setDir i dir).cs = s.cs := rfl
@[simp] theorem State.setDir_dcx (i : Nat) (dir : Dir) (s : State) : (s.setDir i dir).dcx = s.dcx := rfl
@[simp] theorem State.setDir_rdx (i : Nat) (dir : Dir) (s : State) : (s.setDir i dir).rdx = s.rdx := rfl
@[simp] theorem State.setDir_wrx (i : Nat) (dir : Dir) (s : State) : (s.setDir i dir).wrx = s.wrx := rfl
@[simp] theorem State.setDir_resx (i : Nat) (dir : Dir) (s : State) : (s.setDir i dir).resx = s.resx := rfl
@[simp] theorem State.setDir_dout (i : Nat) (dir : Dir) (s : State) : (s.setDir i dir).dout = s.dout := rfl
@[simp] theorem State.setDir_ddir (i : Nat) (dir : Dir) (s : State) : (s.setDir i dir).ddir = setBit s.ddir i (dir == .output) := rfl
@[simp] theorem State.setDir_inited (i : Nat) (dir : Dir) (s : State) : (s.setDir i dir).inited = s.inited := rfl
@[simp] theorem State.setDir_busy (i : Nat) (dir : Dir) (s : State) : (s.setDir i dir).busy = s.busy := rfl
@[simp] theorem State.setDir_status (i : Nat) (dir : Dir) (s : State) : (s.setDir i dir).status = s.status := rfl
@[simp] theorem State.setDir_seq (i : Nat) (dir : Dir) (s : State) : (s.setDir i dir).seq = s.seq := rfl
@[simp] theorem State.setDir_lat (i : Nat) (dir : Dir) (s : State) : (s.setDir i dir).lat = s.lat := rfl
@[simp] theorem State.setDir_enc (i : Nat) (dir : Dir) (s : State) : (s.setDir i dir).enc = s.enc := rfl
@[simp] theorem State.setDir_ghost (i : Nat) (dir : Dir) (s : State) : (s.setDir i dir).ghost = s.ghost := rfl
@[simp] theorem State.setDir_pending (i : Nat) (dir : Dir) (s : State) : (s.setDir i dir).pending = s.pending := rfl
@[simp] theorem State.setDir_plWords (i : Nat) (dir : Dir) (s : State) : (s.setDir i dir).plWords = s.plWords := rfl
@[simp] theorem State.setDir_rdMore (i : Nat) (dir : Dir) (s : State) : (s.setDir i dir).rdMore = s.rdMore := rfl
@[simp] theorem State.setDir_rdWords (i : Nat) (dir : Dir) (s : State) : (s.setDir i dir).rdWords = s.rdWords := rfl
@[simp] theorem State.setDir_sample (i : Nat) (dir : Dir) (s : State) : (s.setDir i dir).sample = s.sample := rfl
@[simp] theorem State.setDir_faults (i : Nat) (dir : Dir) (s : State) : (s.setDir i dir).faults = s.faults := rfl
@[simp] theorem State.setDir_levels (i : Nat) (dir : Dir) (s : State) : (s.setDir i dir).levels = s.levels := rfl
@[simp] theorem State.setDir_draws (i : Nat) (dir : Dir) (s : State) : (s.setDir i dir).draws = s.draws := rfl
@[simp] theorem State.setDir_trace (i : Nat) (dir : Dir) (s : State) : (s.setDir i dir).trace = s.trace := rfl
@[simp] theorem State.setDir_captured (i : Nat) (dir : Dir) (s : State) : (s.setDir i dir).captured = s.captured := rfl

/-! ## `State.noteMark` -/

@[simp] theorem State.noteMark_cfg (k : Mark) (s : State) : (s.noteMark k).cfg = s.cfg := rfl
@[simp] theorem State.noteMark_pixFmt (k : Mark) (s : State) : (s.noteMark k).pixFmt = s.pixFmt := rfl
@[simp] theorem State.noteMark_cs (k : Mark) (s : State) : (s.noteMark k).cs = s.cs := rfl
@[simp] theorem State.noteMark_dcx (k : Mark) (s : State) : (s.noteMark k).dcx = s.dcx := rfl
@[simp] theorem State.noteMark_rdx (k : Mark) (s : State) : (s.noteMark k).rdx = s.rdx := rfl
@[simp] theorem State.noteMark_wrx (k : Mark) (s : State) : (s.noteMark k).wrx = s.wrx := rfl
@[simp] theorem State.noteMark_resx (k : Mark) (s : State) : (s.noteMark k).resx = s.resx := rfl
@[simp] theorem State.noteMark_dout (k : Mark) (s : State) : (s.noteMark k).dout = s.dout := rfl
@[simp] theorem State.noteMark_ddir (k : Mark) (s : State) : (s.noteMark k).ddir = s.ddir := rfl
@[simp] theorem State.noteMark_inited (k : Mark) (s : State) : (s.noteMark k).inited = s.inited := rfl
@[simp] theorem State.noteMark_busy (k : Mark) (s : State) : (s.noteMark k).busy = s.busy := rfl
@[simp] theorem State.noteMark_status (k : Mark) (s : State) : (s.noteMark k).status = s.status := rfl
@[simp] theorem State.noteMark_seq (k : Mark) (s : State) : (s.noteMark k).seq = s.seq := rfl
@[simp] theorem State.noteMark_lat (k : Mark) (s : State) : (s.noteMark k).lat = s.lat := rfl
@[simp] theorem State.noteMark_enc (k : Mark) (s : State) : (s.noteMark k).enc = s.enc := rfl
@[simp] theorem State.noteMark_ghost (k : Mark) (s : State) : (s.noteMark k).ghost = { s.ghost with mark := k } := rfl
@[simp] theorem State.noteMark_pending (k : Mark) (s : State) : (s.noteMark k).pending = s.pending := rfl
@[simp] theorem State.noteMark_plWords (k : Mark) (s : State) : (s.noteMark k).plWords = s.plWords := rfl
@[simp] theorem State.noteMark_rdMore (k : Mark) (s : State) : (s.noteMark k).rdMore = s.rdMore := rfl
@[simp] theorem State.noteMark_rdWords (k : Mark) (s : State) : (s.noteMark k).rdWords = s.rdWords := rfl
@[simp] theorem State.noteMark_sample (k : Mark) (s : State) : (s.noteMark k).sample = s.sample := rfl
@[simp] theorem State.noteMark_faults (k : Mark) (s : State) : (s.noteMark k).faults = s.faults := rfl
@[simp] theorem State.noteMark_levels (k : Mark) (s : State) : (s.noteMark k).levels = s.levels := rfl
@[simp] theorem State.noteMark_draws (k : Mark) (s : State) : (s.noteMark k).draws = s.draws := rfl
@[simp] theorem State.noteMark_trace (k : Mark) (s : State) : (s.noteMark k).trace = s.trace := rfl
@[simp] theorem State.noteMark_captured (k : Mark) (s : State) : (s.noteMark k).captured = s.captured := rfl

/-! ## `State.clearSamples` -/

@[simp] theorem State.clearSamples_cfg (s : State) : (s.clearSamples).cfg = s.cfg := rfl
@[simp] theorem State.clearSamples_pixFmt (s : State) : (s.clearSamples).pixFmt = s.pixFmt := rfl
@[simp] theorem State.clearSamples_cs (s : State) : (s.clearSamples).cs = s.cs := rfl
@[simp] theorem State.clearSamples_dcx (s : State) : (s.clearSamples).dcx = s.dcx := rfl
@[simp] theorem State.clearSamples_rdx (s : State) : (s.clearSamples).rdx = s.rdx := rfl
@[simp] theorem State.clearSamples_wrx (s : State) : (s.clearSamples).wrx = s.wrx := rfl
@[simp] theorem State.clearSamples_resx (s : State) : (s.clearSamples).resx = s.resx := rfl
@[simp] theorem State.clearSamples_dout (s : State) : (s.clearSamples).dout = s.dout := rfl
@[simp] theorem State.clearSamples_ddir (s : State) : (s.clearSamples).ddir = s.ddir := rfl
@[simp] theorem State.clearSamples_inited (s : State) : (s.clearSamples).inited = s.inited := rfl
@[simp] theorem State.clearSamples_busy (s : State) : (s.clearSamples).busy = s.busy := rfl
@[simp] theorem State.clearSamples_status (s : State) : (s.clearSamples).status = s.status := rfl
@[simp] theorem State.clearSamples_seq (s : State) : (s.clearSamples).seq = s.seq := rfl
@[simp] theorem State.clearSamples_lat (s : State) : (s.clearSamples).lat = s.lat := rfl
@[simp] theorem State.clearSamples_enc (s : State) : (s.clearSamples).enc = s.enc := rfl
@[simp] theorem State.clearSamples_ghost (s : State) : (s.clearSamples).ghost = s.ghost := rfl
@[simp] theorem State.clearSamples_pending (s : State) : (s.clearSamples).pending = s.pending := rfl
@[simp] theorem State.clearSamples_plWords (s : State) : (s.clearSamples).plWords = s.plWords := rfl
@[simp] theorem State.clearSamples_rdMore (s : State) : (s.clearSamples).rdMore = s.rdMore := rfl
@[simp] theorem State.clearSamples_rdWords (s : State) : (s.clearSamples).rdWords = [] := rfl
@[simp] theorem State.clearSamples_sample (s : State) : (s.clearSamples).sample = 0 := rfl
@[simp] theorem State.clearSamples_faults (s : State) : (s.clearSamples).faults = s.faults := rfl
@[simp] theorem State.clearSamples_levels (s : State) : (s.clearSamples).levels = s.levels := rfl
@[simp] theorem State.clearSamples_draws (s : State) : (s.clearSamples).draws = s.draws := rfl
@[simp] theorem State.clearSamples_trace (s : State) : (s.clearSamples).trace = s.trace := rfl
@[simp] theorem State.clearSamples_captured (s : State) : (s.clearSamples).captured = s.captured := rfl

/-! ## `State.deliver` -/

@[simp] theorem State.deliver_cfg (s : State) : (s.deliver).cfg = s.cfg := rfl
@[simp] theorem State.deliver_pixFmt (s : State) : (s.deliver).pixFmt = s.pixFmt := rfl
@[simp] theorem State.deliver_cs (s : State) : (s.deliver).cs = s.cs := rfl
@[simp] theorem State.deliver_dcx (s : State) : (s.deliver).dcx = s.dcx := rfl
@[simp] theorem State.deliver_rdx (s : State) : (s.deliver).rdx = s.rdx := rfl
@[simp] theorem State.deliver_wrx (s : State) : (s.deliver).wrx = s.wrx := rfl
@[simp] theorem State.deliver_resx (s : State) : (s.deliver).resx = s.resx := rfl
@[simp] theorem State.deliver_dout (s : State) : (s.deliver).dout = s.dout := rfl
@[simp] theorem State.deliver_ddir (s : State) : (s.deliver).ddir = s.ddir := rfl
@[simp] theorem State.deliver_inited (s : State) : (s.deliver).inited = s.inited := rfl
@[simp] theorem State.deliver_busy (s : State) : (s.deliver).busy = s.busy := rfl
@[simp] theorem State.deliver_status (s : State) : (s.deliver).status = s.status := rfl
@[simp] theorem State.deliver_seq (s : State) : (s.deliver).seq = s.seq := rfl
@[simp] theorem State.deliver_lat (s : State) : (s.deliver).lat = s.lat := rfl
@[simp] theorem State.deliver_enc (s : State) : (s.deliver).enc = s.enc := rfl
@[simp] theorem State.deliver_ghost (s : State) : (s.deliver).ghost = s.ghost := rfl
@[simp] theorem State.deliver_pending (s : State) : (s.deliver).pending = s.pending := rfl
@[simp] theorem State.deliver_plWords (s : State) : (s.deliver).plWords = s.plWords := rfl
@[simp] theorem State.deliver_rdMore (s : State) : (s.deliver).rdMore = s.rdMore := rfl
@[simp] theorem State.deliver_rdWords (s : State) : (s.deliver).rdWords = s.rdWords ++ [s.sample] := rfl
@[simp] theorem State.deliver_sample (s : State) : (s.deliver).sample = 0 := rfl
@[simp] theorem State.deliver_faults (s : State) : (s.deliver).faults = s.faults := rfl
@[simp] theorem State.deliver_levels (s : State) : (s.deliver).levels = s.levels := rfl
@[simp] theorem State.deliver_draws (s : State) : (s.deliver).draws = s.draws := rfl
@[simp] theorem State.deliver_trace (s : State) : (s.deliver).trace = s.trace := rfl
@[simp] theorem State.deliver_captured (s : State) : (s.deliver).captured = s.captured := rfl

/-! ## `State.complete` -/

@[simp] theorem State.complete_cfg (st : Status) (s : State) : (s.complete st).cfg = s.cfg := rfl
@[simp] theorem State.complete_pixFmt (st : Status) (s : State) : (s.complete st).pixFmt = s.pixFmt := rfl
@[simp] theorem State.complete_cs (st : Status) (s : State) : (s.complete st).cs = s.cs := rfl
@[simp] theorem State.complete_dcx (st : Status) (s : State) : (s.complete st).dcx = s.dcx := rfl
@[simp] theorem State.complete_rdx (st : Status) (s : State) : (s.complete st).rdx = s.rdx := rfl
@[simp] theorem State.complete_wrx (st : Status) (s : State) : (s.complete st).wrx = s.wrx := rfl
@[simp] theorem State.complete_resx (st : Status) (s : State) : (s.complete st).resx = s.resx := rfl
@[simp] theorem State.complete_dout (st : Status) (s : State) : (s.complete st).dout = s.dout := rfl
@[simp] theorem State.complete_ddir (st : Status) (s : State) : (s.complete st).ddir = s.ddir := rfl
@[simp] theorem State.complete_inited (st : Status) (s : State) : (s.complete st).inited = s.inited := rfl
@[simp] theorem State.complete_busy (st : Status) (s : State) : (s.complete st).busy = false := rfl
@[simp] theorem State.complete_status (st : Status) (s : State) : (s.complete st).status = st := rfl
@[simp] theorem State.complete_seq (st : Status) (s : State) : (s.complete st).seq = none := rfl
@[simp] theorem State.complete_lat (st : Status) (s : State) : (s.complete st).lat = s.lat := rfl
@[simp] theorem State.complete_enc (st : Status) (s : State) : (s.complete st).enc = s.enc := rfl
@[simp] theorem State.complete_ghost (st : Status) (s : State) : (s.complete st).ghost = s.ghost := rfl
@[simp] theorem State.complete_pending (st : Status) (s : State) : (s.complete st).pending = s.pending := rfl
@[simp] theorem State.complete_plWords (st : Status) (s : State) : (s.complete st).plWords = [] := rfl
@[simp] theorem State.complete_rdMore (st : Status) (s : State) : (s.complete st).rdMore = [] := rfl
@[simp] theorem State.complete_rdWords (st : Status) (s : State) : (s.complete st).rdWords = s.rdWords := rfl
@[simp] theorem State.complete_sample (st : Status) (s : State) : (s.complete st).sample = s.sample := rfl
@[simp] theorem State.complete_faults (st : Status) (s : State) : (s.complete st).faults = s.faults := rfl
@[simp] theorem State.complete_levels (st : Status) (s : State) : (s.complete st).levels = s.levels := rfl
@[simp] theorem State.complete_draws (st : Status) (s : State) : (s.complete st).draws = s.draws := rfl
@[simp] theorem State.complete_trace (st : Status) (s : State) : (s.complete st).trace = .done st :: s.trace := rfl
@[simp] theorem State.complete_captured (st : Status) (s : State) : (s.complete st).captured = s.captured := rfl

/-! ## `State.accept` -/

@[simp] theorem State.accept_cfg (p : Presented) (rest : List Presented) (s : State) : (s.accept p rest).cfg = s.cfg := rfl
@[simp] theorem State.accept_pixFmt (p : Presented) (rest : List Presented) (s : State) : (s.accept p rest).pixFmt = s.pixFmt := rfl
@[simp] theorem State.accept_cs (p : Presented) (rest : List Presented) (s : State) : (s.accept p rest).cs = s.cs := rfl
@[simp] theorem State.accept_dcx (p : Presented) (rest : List Presented) (s : State) : (s.accept p rest).dcx = s.dcx := rfl
@[simp] theorem State.accept_rdx (p : Presented) (rest : List Presented) (s : State) : (s.accept p rest).rdx = s.rdx := rfl
@[simp] theorem State.accept_wrx (p : Presented) (rest : List Presented) (s : State) : (s.accept p rest).wrx = s.wrx := rfl
@[simp] theorem State.accept_resx (p : Presented) (rest : List Presented) (s : State) : (s.accept p rest).resx = s.resx := rfl
@[simp] theorem State.accept_dout (p : Presented) (rest : List Presented) (s : State) : (s.accept p rest).dout = s.dout := rfl
@[simp] theorem State.accept_ddir (p : Presented) (rest : List Presented) (s : State) : (s.accept p rest).ddir = s.ddir := rfl
@[simp] theorem State.accept_inited (p : Presented) (rest : List Presented) (s : State) : (s.accept p rest).inited = s.inited := rfl
@[simp] theorem State.accept_busy (p : Presented) (rest : List Presented) (s : State) : (s.accept p rest).busy = true := rfl
@[simp] theorem State.accept_status (p : Presented) (rest : List Presented) (s : State) : (s.accept p rest).status = s.status := rfl
@[simp] theorem State.accept_seq (p : Presented) (rest : List Presented) (s : State) : (s.accept p rest).seq = some 0 := rfl
@[simp] theorem State.accept_lat (p : Presented) (rest : List Presented) (s : State) : (s.accept p rest).lat = latchesOf (portOf p) := rfl
@[simp] theorem State.accept_enc (p : Presented) (rest : List Presented) (s : State) : (s.accept p rest).enc = s.enc := rfl
@[simp] theorem State.accept_ghost (p : Presented) (rest : List Presented) (s : State) : (s.accept p rest).ghost = s.ghost := rfl
@[simp] theorem State.accept_pending (p : Presented) (rest : List Presented) (s : State) : (s.accept p rest).pending = rest := rfl
@[simp] theorem State.accept_plWords (p : Presented) (rest : List Presented) (s : State) : (s.accept p rest).plWords = (portOf p).payload := rfl
@[simp] theorem State.accept_rdMore (p : Presented) (rest : List Presented) (s : State) : (s.accept p rest).rdMore = (portOf p).answers := rfl
@[simp] theorem State.accept_rdWords (p : Presented) (rest : List Presented) (s : State) : (s.accept p rest).rdWords = s.rdWords := rfl
@[simp] theorem State.accept_sample (p : Presented) (rest : List Presented) (s : State) : (s.accept p rest).sample = s.sample := rfl
@[simp] theorem State.accept_faults (p : Presented) (rest : List Presented) (s : State) : (s.accept p rest).faults = s.faults := rfl
@[simp] theorem State.accept_levels (p : Presented) (rest : List Presented) (s : State) : (s.accept p rest).levels = s.levels := rfl
@[simp] theorem State.accept_draws (p : Presented) (rest : List Presented) (s : State) : (s.accept p rest).draws = s.draws := rfl
@[simp] theorem State.accept_trace (p : Presented) (rest : List Presented) (s : State) : (s.accept p rest).trace = s.trace := rfl
@[simp] theorem State.accept_captured (p : Presented) (rest : List Presented) (s : State) : (s.accept p rest).captured = s.captured := rfl

/-! ## `State.noteDeviceReset` -/

@[simp] theorem State.noteDeviceReset_cfg (s : State) : (s.noteDeviceReset).cfg = s.cfg := rfl
@[simp] theorem State.noteDeviceReset_pixFmt (s : State) : (s.noteDeviceReset).pixFmt = s.pixFmt := rfl
@[simp] theorem State.noteDeviceReset_cs (s : State) : (s.noteDeviceReset).cs = s.cs := rfl
@[simp] theorem State.noteDeviceReset_dcx (s : State) : (s.noteDeviceReset).dcx = s.dcx := rfl
@[simp] theorem State.noteDeviceReset_rdx (s : State) : (s.noteDeviceReset).rdx = s.rdx := rfl
@[simp] theorem State.noteDeviceReset_wrx (s : State) : (s.noteDeviceReset).wrx = s.wrx := rfl
@[simp] theorem State.noteDeviceReset_resx (s : State) : (s.noteDeviceReset).resx = s.resx := rfl
@[simp] theorem State.noteDeviceReset_dout (s : State) : (s.noteDeviceReset).dout = s.dout := rfl
@[simp] theorem State.noteDeviceReset_ddir (s : State) : (s.noteDeviceReset).ddir = s.ddir := rfl
@[simp] theorem State.noteDeviceReset_inited (s : State) : (s.noteDeviceReset).inited = s.inited := rfl
@[simp] theorem State.noteDeviceReset_busy (s : State) : (s.noteDeviceReset).busy = s.busy := rfl
@[simp] theorem State.noteDeviceReset_status (s : State) : (s.noteDeviceReset).status = s.status := rfl
@[simp] theorem State.noteDeviceReset_seq (s : State) : (s.noteDeviceReset).seq = s.seq := rfl
@[simp] theorem State.noteDeviceReset_lat (s : State) : (s.noteDeviceReset).lat = s.lat := rfl
@[simp] theorem State.noteDeviceReset_enc (s : State) : (s.noteDeviceReset).enc = s.enc := rfl
@[simp] theorem State.noteDeviceReset_pending (s : State) : (s.noteDeviceReset).pending = s.pending := rfl
@[simp] theorem State.noteDeviceReset_plWords (s : State) : (s.noteDeviceReset).plWords = s.plWords := rfl
@[simp] theorem State.noteDeviceReset_rdMore (s : State) : (s.noteDeviceReset).rdMore = s.rdMore := rfl
@[simp] theorem State.noteDeviceReset_rdWords (s : State) : (s.noteDeviceReset).rdWords = s.rdWords := rfl
@[simp] theorem State.noteDeviceReset_sample (s : State) : (s.noteDeviceReset).sample = s.sample := rfl
@[simp] theorem State.noteDeviceReset_faults (s : State) : (s.noteDeviceReset).faults = s.faults := rfl
@[simp] theorem State.noteDeviceReset_levels (s : State) : (s.noteDeviceReset).levels = s.levels := rfl
@[simp] theorem State.noteDeviceReset_draws (s : State) : (s.noteDeviceReset).draws = s.draws := rfl
@[simp] theorem State.noteDeviceReset_trace (s : State) : (s.noteDeviceReset).trace = s.trace := rfl
@[simp] theorem State.noteDeviceReset_captured (s : State) : (s.noteDeviceReset).captured = s.captured := rfl

/-! ## `State.noteFormatLost` -/

@[simp] theorem State.noteFormatLost_cfg (s : State) : (s.noteFormatLost).cfg = s.cfg := rfl
@[simp] theorem State.noteFormatLost_pixFmt (s : State) : (s.noteFormatLost).pixFmt = s.pixFmt := rfl
@[simp] theorem State.noteFormatLost_cs (s : State) : (s.noteFormatLost).cs = s.cs := rfl
@[simp] theorem State.noteFormatLost_dcx (s : State) : (s.noteFormatLost).dcx = s.dcx := rfl
@[simp] theorem State.noteFormatLost_rdx (s : State) : (s.noteFormatLost).rdx = s.rdx := rfl
@[simp] theorem State.noteFormatLost_wrx (s : State) : (s.noteFormatLost).wrx = s.wrx := rfl
@[simp] theorem State.noteFormatLost_resx (s : State) : (s.noteFormatLost).resx = s.resx := rfl
@[simp] theorem State.noteFormatLost_dout (s : State) : (s.noteFormatLost).dout = s.dout := rfl
@[simp] theorem State.noteFormatLost_ddir (s : State) : (s.noteFormatLost).ddir = s.ddir := rfl
@[simp] theorem State.noteFormatLost_inited (s : State) : (s.noteFormatLost).inited = s.inited := rfl
@[simp] theorem State.noteFormatLost_busy (s : State) : (s.noteFormatLost).busy = s.busy := rfl
@[simp] theorem State.noteFormatLost_status (s : State) : (s.noteFormatLost).status = s.status := rfl
@[simp] theorem State.noteFormatLost_seq (s : State) : (s.noteFormatLost).seq = s.seq := rfl
@[simp] theorem State.noteFormatLost_lat (s : State) : (s.noteFormatLost).lat = s.lat := rfl
@[simp] theorem State.noteFormatLost_enc (s : State) : (s.noteFormatLost).enc = s.enc := rfl
@[simp] theorem State.noteFormatLost_ghost (s : State) : (s.noteFormatLost).ghost = { s.ghost with devFmt := .unknown } := rfl
@[simp] theorem State.noteFormatLost_pending (s : State) : (s.noteFormatLost).pending = s.pending := rfl
@[simp] theorem State.noteFormatLost_plWords (s : State) : (s.noteFormatLost).plWords = s.plWords := rfl
@[simp] theorem State.noteFormatLost_rdMore (s : State) : (s.noteFormatLost).rdMore = s.rdMore := rfl
@[simp] theorem State.noteFormatLost_rdWords (s : State) : (s.noteFormatLost).rdWords = s.rdWords := rfl
@[simp] theorem State.noteFormatLost_sample (s : State) : (s.noteFormatLost).sample = s.sample := rfl
@[simp] theorem State.noteFormatLost_faults (s : State) : (s.noteFormatLost).faults = s.faults := rfl
@[simp] theorem State.noteFormatLost_levels (s : State) : (s.noteFormatLost).levels = s.levels := rfl
@[simp] theorem State.noteFormatLost_draws (s : State) : (s.noteFormatLost).draws = s.draws := rfl
@[simp] theorem State.noteFormatLost_trace (s : State) : (s.noteFormatLost).trace = s.trace := rfl
@[simp] theorem State.noteFormatLost_captured (s : State) : (s.noteFormatLost).captured = s.captured := rfl

/-! ## `State.capture` -/

@[simp] theorem State.capture_cfg (m : Mode) (v : Word) (s : State) : (s.capture m v).cfg = s.cfg := by cases m <;> rfl
@[simp] theorem State.capture_pixFmt (m : Mode) (v : Word) (s : State) : (s.capture m v).pixFmt = s.pixFmt := by cases m <;> rfl
@[simp] theorem State.capture_cs (m : Mode) (v : Word) (s : State) : (s.capture m v).cs = s.cs := by cases m <;> rfl
@[simp] theorem State.capture_dcx (m : Mode) (v : Word) (s : State) : (s.capture m v).dcx = s.dcx := by cases m <;> rfl
@[simp] theorem State.capture_rdx (m : Mode) (v : Word) (s : State) : (s.capture m v).rdx = s.rdx := by cases m <;> rfl
@[simp] theorem State.capture_wrx (m : Mode) (v : Word) (s : State) : (s.capture m v).wrx = s.wrx := by cases m <;> rfl
@[simp] theorem State.capture_resx (m : Mode) (v : Word) (s : State) : (s.capture m v).resx = s.resx := by cases m <;> rfl
@[simp] theorem State.capture_dout (m : Mode) (v : Word) (s : State) : (s.capture m v).dout = s.dout := by cases m <;> rfl
@[simp] theorem State.capture_ddir (m : Mode) (v : Word) (s : State) : (s.capture m v).ddir = s.ddir := by cases m <;> rfl
@[simp] theorem State.capture_inited (m : Mode) (v : Word) (s : State) : (s.capture m v).inited = s.inited := by cases m <;> rfl
@[simp] theorem State.capture_busy (m : Mode) (v : Word) (s : State) : (s.capture m v).busy = s.busy := by cases m <;> rfl
@[simp] theorem State.capture_status (m : Mode) (v : Word) (s : State) : (s.capture m v).status = s.status := by cases m <;> rfl
@[simp] theorem State.capture_seq (m : Mode) (v : Word) (s : State) : (s.capture m v).seq = s.seq := by cases m <;> rfl
@[simp] theorem State.capture_lat (m : Mode) (v : Word) (s : State) : (s.capture m v).lat = s.lat := by cases m <;> rfl
@[simp] theorem State.capture_enc (m : Mode) (v : Word) (s : State) : (s.capture m v).enc = s.enc := by cases m <;> rfl
@[simp] theorem State.capture_pending (m : Mode) (v : Word) (s : State) : (s.capture m v).pending = s.pending := by cases m <;> rfl
@[simp] theorem State.capture_plWords (m : Mode) (v : Word) (s : State) : (s.capture m v).plWords = s.plWords := by cases m <;> rfl
@[simp] theorem State.capture_rdMore (m : Mode) (v : Word) (s : State) : (s.capture m v).rdMore = s.rdMore := by cases m <;> rfl
@[simp] theorem State.capture_rdWords (m : Mode) (v : Word) (s : State) : (s.capture m v).rdWords = s.rdWords := by cases m <;> rfl
@[simp] theorem State.capture_sample (m : Mode) (v : Word) (s : State) : (s.capture m v).sample = s.sample := by cases m <;> rfl
@[simp] theorem State.capture_faults (m : Mode) (v : Word) (s : State) : (s.capture m v).faults = s.faults := by cases m <;> rfl
@[simp] theorem State.capture_levels (m : Mode) (v : Word) (s : State) : (s.capture m v).levels = s.levels := by cases m <;> rfl
@[simp] theorem State.capture_trace (m : Mode) (v : Word) (s : State) : (s.capture m v).trace = s.trace := by cases m <;> rfl
@[simp] theorem State.capture_captured (m : Mode) (v : Word) (s : State) : (s.capture m v).captured = (m, v) :: s.captured := by cases m <;> rfl

/-! ## `State.dropLevel` -/

@[simp] theorem State.dropLevel_cfg (s : State) : (s.dropLevel).cfg = s.cfg := by unfold State.dropLevel; split <;> rfl
@[simp] theorem State.dropLevel_pixFmt (s : State) : (s.dropLevel).pixFmt = s.pixFmt := by unfold State.dropLevel; split <;> rfl
@[simp] theorem State.dropLevel_cs (s : State) : (s.dropLevel).cs = s.cs := by unfold State.dropLevel; split <;> rfl
@[simp] theorem State.dropLevel_dcx (s : State) : (s.dropLevel).dcx = s.dcx := by unfold State.dropLevel; split <;> rfl
@[simp] theorem State.dropLevel_rdx (s : State) : (s.dropLevel).rdx = s.rdx := by unfold State.dropLevel; split <;> rfl
@[simp] theorem State.dropLevel_wrx (s : State) : (s.dropLevel).wrx = s.wrx := by unfold State.dropLevel; split <;> rfl
@[simp] theorem State.dropLevel_resx (s : State) : (s.dropLevel).resx = s.resx := by unfold State.dropLevel; split <;> rfl
@[simp] theorem State.dropLevel_dout (s : State) : (s.dropLevel).dout = s.dout := by unfold State.dropLevel; split <;> rfl
@[simp] theorem State.dropLevel_ddir (s : State) : (s.dropLevel).ddir = s.ddir := by unfold State.dropLevel; split <;> rfl
@[simp] theorem State.dropLevel_inited (s : State) : (s.dropLevel).inited = s.inited := by unfold State.dropLevel; split <;> rfl
@[simp] theorem State.dropLevel_busy (s : State) : (s.dropLevel).busy = s.busy := by unfold State.dropLevel; split <;> rfl
@[simp] theorem State.dropLevel_status (s : State) : (s.dropLevel).status = s.status := by unfold State.dropLevel; split <;> rfl
@[simp] theorem State.dropLevel_seq (s : State) : (s.dropLevel).seq = s.seq := by unfold State.dropLevel; split <;> rfl
@[simp] theorem State.dropLevel_lat (s : State) : (s.dropLevel).lat = s.lat := by unfold State.dropLevel; split <;> rfl
@[simp] theorem State.dropLevel_enc (s : State) : (s.dropLevel).enc = s.enc := by unfold State.dropLevel; split <;> rfl
@[simp] theorem State.dropLevel_ghost (s : State) : (s.dropLevel).ghost = s.ghost := by unfold State.dropLevel; split <;> rfl
@[simp] theorem State.dropLevel_pending (s : State) : (s.dropLevel).pending = s.pending := by unfold State.dropLevel; split <;> rfl
@[simp] theorem State.dropLevel_plWords (s : State) : (s.dropLevel).plWords = s.plWords := by unfold State.dropLevel; split <;> rfl
@[simp] theorem State.dropLevel_rdMore (s : State) : (s.dropLevel).rdMore = s.rdMore := by unfold State.dropLevel; split <;> rfl
@[simp] theorem State.dropLevel_rdWords (s : State) : (s.dropLevel).rdWords = s.rdWords := by unfold State.dropLevel; split <;> rfl
@[simp] theorem State.dropLevel_sample (s : State) : (s.dropLevel).sample = s.sample := by unfold State.dropLevel; split <;> rfl
@[simp] theorem State.dropLevel_faults (s : State) : (s.dropLevel).faults = s.faults := by unfold State.dropLevel; split <;> rfl
@[simp] theorem State.dropLevel_trace (s : State) : (s.dropLevel).trace = s.trace := by unfold State.dropLevel; split <;> rfl
@[simp] theorem State.dropLevel_captured (s : State) : (s.dropLevel).captured = s.captured := by unfold State.dropLevel; split <;> rfl

/-! ## `State.senseBit` -/

@[simp] theorem State.senseBit_cfg (i : Nat) (s : State) : (s.senseBit i).cfg = s.cfg := by simp [State.senseBit]
@[simp] theorem State.senseBit_pixFmt (i : Nat) (s : State) : (s.senseBit i).pixFmt = s.pixFmt := by simp [State.senseBit]
@[simp] theorem State.senseBit_cs (i : Nat) (s : State) : (s.senseBit i).cs = s.cs := by simp [State.senseBit]
@[simp] theorem State.senseBit_dcx (i : Nat) (s : State) : (s.senseBit i).dcx = s.dcx := by simp [State.senseBit]
@[simp] theorem State.senseBit_rdx (i : Nat) (s : State) : (s.senseBit i).rdx = s.rdx := by simp [State.senseBit]
@[simp] theorem State.senseBit_wrx (i : Nat) (s : State) : (s.senseBit i).wrx = s.wrx := by simp [State.senseBit]
@[simp] theorem State.senseBit_resx (i : Nat) (s : State) : (s.senseBit i).resx = s.resx := by simp [State.senseBit]
@[simp] theorem State.senseBit_dout (i : Nat) (s : State) : (s.senseBit i).dout = s.dout := by simp [State.senseBit]
@[simp] theorem State.senseBit_ddir (i : Nat) (s : State) : (s.senseBit i).ddir = s.ddir := by simp [State.senseBit]
@[simp] theorem State.senseBit_inited (i : Nat) (s : State) : (s.senseBit i).inited = s.inited := by simp [State.senseBit]
@[simp] theorem State.senseBit_busy (i : Nat) (s : State) : (s.senseBit i).busy = s.busy := by simp [State.senseBit]
@[simp] theorem State.senseBit_status (i : Nat) (s : State) : (s.senseBit i).status = s.status := by simp [State.senseBit]
@[simp] theorem State.senseBit_seq (i : Nat) (s : State) : (s.senseBit i).seq = s.seq := by simp [State.senseBit]
@[simp] theorem State.senseBit_lat (i : Nat) (s : State) : (s.senseBit i).lat = s.lat := by simp [State.senseBit]
@[simp] theorem State.senseBit_enc (i : Nat) (s : State) : (s.senseBit i).enc = s.enc := by simp [State.senseBit]
@[simp] theorem State.senseBit_ghost (i : Nat) (s : State) : (s.senseBit i).ghost = s.ghost := by simp [State.senseBit]
@[simp] theorem State.senseBit_pending (i : Nat) (s : State) : (s.senseBit i).pending = s.pending := by simp [State.senseBit]
@[simp] theorem State.senseBit_plWords (i : Nat) (s : State) : (s.senseBit i).plWords = s.plWords := by simp [State.senseBit]
@[simp] theorem State.senseBit_rdMore (i : Nat) (s : State) : (s.senseBit i).rdMore = s.rdMore := by simp [State.senseBit]
@[simp] theorem State.senseBit_rdWords (i : Nat) (s : State) : (s.senseBit i).rdWords = s.rdWords := by simp [State.senseBit]
@[simp] theorem State.senseBit_sample (i : Nat) (s : State) : (s.senseBit i).sample = setBit s.sample i s.nextLevel := by simp [State.senseBit]
@[simp] theorem State.senseBit_faults (i : Nat) (s : State) : (s.senseBit i).faults = s.faults := by simp [State.senseBit]
@[simp] theorem State.senseBit_trace (i : Nat) (s : State) : (s.senseBit i).trace = s.trace := by simp [State.senseBit]
@[simp] theorem State.senseBit_captured (i : Nat) (s : State) : (s.senseBit i).captured = s.captured := by simp [State.senseBit]

/-! ## `State.setPin` -/

@[simp] theorem State.setPin_cfg (p : Pin) (v : Level) (s : State) : (s.setPin p v).cfg = s.cfg := by
  cases p <;> simp only [State.setPin]
  split <;> simp
@[simp] theorem State.setPin_pixFmt (p : Pin) (v : Level) (s : State) : (s.setPin p v).pixFmt = s.pixFmt := by
  cases p <;> simp only [State.setPin]
  split <;> simp
@[simp] theorem State.setPin_ddir (p : Pin) (v : Level) (s : State) : (s.setPin p v).ddir = s.ddir := by
  cases p <;> simp only [State.setPin]
  split <;> simp
@[simp] theorem State.setPin_inited (p : Pin) (v : Level) (s : State) : (s.setPin p v).inited = s.inited := by
  cases p <;> simp only [State.setPin]
  split <;> simp
@[simp] theorem State.setPin_busy (p : Pin) (v : Level) (s : State) : (s.setPin p v).busy = s.busy := by
  cases p <;> simp only [State.setPin]
  split <;> simp
@[simp] theorem State.setPin_status (p : Pin) (v : Level) (s : State) : (s.setPin p v).status = s.status := by
  cases p <;> simp only [State.setPin]
  split <;> simp
@[simp] theorem State.setPin_seq (p : Pin) (v : Level) (s : State) : (s.setPin p v).seq = s.seq := by
  cases p <;> simp only [State.setPin]
  split <;> simp
@[simp] theorem State.setPin_lat (p : Pin) (v : Level) (s : State) : (s.setPin p v).lat = s.lat := by
  cases p <;> simp only [State.setPin]
  split <;> simp
@[simp] theorem State.setPin_enc (p : Pin) (v : Level) (s : State) : (s.setPin p v).enc = s.enc := by
  cases p <;> simp only [State.setPin]
  split <;> simp
@[simp] theorem State.setPin_pending (p : Pin) (v : Level) (s : State) : (s.setPin p v).pending = s.pending := by
  cases p <;> simp only [State.setPin]
  split <;> simp
@[simp] theorem State.setPin_plWords (p : Pin) (v : Level) (s : State) : (s.setPin p v).plWords = s.plWords := by
  cases p <;> simp only [State.setPin]
  split <;> simp
@[simp] theorem State.setPin_rdMore (p : Pin) (v : Level) (s : State) : (s.setPin p v).rdMore = s.rdMore := by
  cases p <;> simp only [State.setPin]
  split <;> simp
@[simp] theorem State.setPin_rdWords (p : Pin) (v : Level) (s : State) : (s.setPin p v).rdWords = s.rdWords := by
  cases p <;> simp only [State.setPin]
  split <;> simp
@[simp] theorem State.setPin_sample (p : Pin) (v : Level) (s : State) : (s.setPin p v).sample = s.sample := by
  cases p <;> simp only [State.setPin]
  split <;> simp
@[simp] theorem State.setPin_faults (p : Pin) (v : Level) (s : State) : (s.setPin p v).faults = s.faults := by
  cases p <;> simp only [State.setPin]
  split <;> simp
@[simp] theorem State.setPin_levels (p : Pin) (v : Level) (s : State) : (s.setPin p v).levels = s.levels := by
  cases p <;> simp only [State.setPin]
  split <;> simp
@[simp] theorem State.setPin_trace (p : Pin) (v : Level) (s : State) : (s.setPin p v).trace = s.trace := by
  cases p <;> simp only [State.setPin]
  split <;> simp

end Sys2Proof.Machine
end

