-- ==== Sys2Proof/Laws/Ops.lean ====
section
/-! SUPPORT. What the shared operations can do, said once: a micro-operation, a sequence of them, and the parts of a
request one after another. -/

namespace Sys2Proof.Machine

/-! ## Frames -/

/-- The fields that no effect of a micro-operation changes. -/
structure SameCore (s t : State) : Prop where
  cfg : t.cfg = s.cfg
  pixFmt : t.pixFmt = s.pixFmt
  inited : t.inited = s.inited
  busy : t.busy = s.busy
  status : t.status = s.status
  lat : t.lat = s.lat
  enc : t.enc = s.enc
  pending : t.pending = s.pending
  plWords : t.plWords = s.plWords
  rdMore : t.rdMore = s.rdMore

theorem SameCore.refl (s : State) : SameCore s s := by constructor <;> rfl

theorem SameCore.trans {s t u : State} (h : SameCore s t) (k : SameCore t u) : SameCore s u := by
  constructor <;> simp only [h.cfg, h.pixFmt, h.inited, h.busy, h.status, h.lat, h.enc, h.pending, h.plWords,
    h.rdMore, k.cfg, k.pixFmt, k.inited, k.busy, k.status, k.lat, k.enc, k.pending, k.plWords, k.rdMore]

/-- A state with another schedule of pin faults. -/
def State.withFaults (f : List Nat) (s : State) : State := { s with faults := f }

@[simp] theorem State.withFaults_faults (f : List Nat) (s : State) : (s.withFaults f).faults = f := rfl

@[simp] theorem State.withFaults_self (s : State) : s.withFaults s.faults = s := rfl

@[simp] theorem State.withFaults_withFaults (f g : List Nat) (s : State) :
    (s.withFaults g).withFaults f = s.withFaults f := rfl

@[simp] theorem State.withFaults_cfg (f : List Nat) (s : State) : (s.withFaults f).cfg = s.cfg := rfl

/-- Everything but the schedule of faults is as it was. -/
theorem SameCore.withFaults (f : List Nat) (s : State) : SameCore s (s.withFaults f) := by
  constructor <;> rfl

theorem SameCore.capture (m : Mode) (v : Word) (s : State) : SameCore s (s.capture m v) := by
  constructor <;> simp

theorem State.captureBurst_sameCore (m : Mode) (burst : List (Mark × Word)) (s : State) :
    SameCore s (s.captureBurst m burst) ∧ (s.captureBurst m burst).faults = s.faults := by
  induction burst generalizing s with
  | nil => exact ⟨.refl s, rfl⟩
  | cons kv rest ih =>
    obtain ⟨h, hf⟩ := ih ((s.noteMark kv.1).capture m (busWord s.cfg.width kv.2))
    refine ⟨SameCore.trans ?_ h, by simpa [State.captureBurst] using hf⟩
    constructor <;> simp

theorem State.senseWord_sameCore (bits : Nat) (s : State) :
    SameCore s (s.senseWord bits) ∧ (s.senseWord bits).faults = s.faults := by
  unfold State.senseWord
  induction List.range bits generalizing s with
  | nil => exact ⟨.refl s, rfl⟩
  | cons i rest ih =>
    obtain ⟨h, hf⟩ := ih (s.senseBit i)
    refine ⟨SameCore.trans ?_ h, by simpa using hf⟩
    constructor <;> simp

theorem State.senseSamples_sameCore (bits k : Nat) (s : State) :
    SameCore s (s.senseSamples bits k) ∧ (s.senseSamples bits k).faults = s.faults := by
  induction k generalizing s with
  | zero => exact ⟨.refl s, rfl⟩
  | succ k ih =>
    obtain ⟨h, hf⟩ := ih (s.senseWord bits).deliver
    obtain ⟨h', hf'⟩ := State.senseWord_sameCore bits s
    refine ⟨(h'.trans ?_).trans h, by simpa [State.senseSamples, hf'] using hf⟩
    constructor <;> simp

/-- The frame of a micro-operation. -/
theorem MicroOp.effect_sameCore (op : MicroOp) (s : State) :
    SameCore s (op.effect s) ∧ (op.effect s).faults = s.faults := by
  cases op with
  | serialWrite m burst =>
    obtain ⟨h, hf⟩ := State.captureBurst_sameCore m burst s
    exact ⟨h.trans (by constructor <;> rfl), by simpa [MicroOp.effect] using hf⟩
  | serialRead k =>
    obtain ⟨h, hf⟩ := State.senseSamples_sameCore s.cfg.width.bits k s
    exact ⟨h.trans (by constructor <;> rfl), by simpa [MicroOp.effect] using hf⟩
  | _ => exact ⟨by constructor <;> simp [MicroOp.effect], by simp [MicroOp.effect]⟩

@[simp] theorem MicroOp.effect_cfg (op : MicroOp) (s : State) : (op.effect s).cfg = s.cfg :=
  (op.effect_sameCore s).1.cfg

@[simp] theorem MicroOp.effect_faults (op : MicroOp) (s : State) : (op.effect s).faults = s.faults :=
  (op.effect_sameCore s).2

/-! ## Effects read no schedule of faults -/

theorem State.capture_withFaults (m : Mode) (v : Word) (f : List Nat) (s : State) :
    (s.withFaults f).capture m v = (s.capture m v).withFaults f := by cases m <;> rfl

theorem State.senseBit_withFaults (i : Nat) (f : List Nat) (s : State) :
    (s.withFaults f).senseBit i = (s.senseBit i).withFaults f := by
  rcases h : s.levels with _ | ⟨l, ls⟩ <;>
    simp [State.senseBit, State.dropLevel, State.nextLevel, State.withFaults, h]

theorem State.captureBurst_withFaults (m : Mode) (burst : List (Mark × Word)) (f : List Nat) (s : State) :
    (s.withFaults f).captureBurst m burst = (s.captureBurst m burst).withFaults f := by
  induction burst generalizing s with
  | nil => rfl
  | cons kv rest ih =>
    simp only [State.captureBurst]
    rw [← ih, ← State.capture_withFaults]
    rfl

theorem State.senseWord_withFaults (bits : Nat) (f : List Nat) (s : State) :
    (s.withFaults f).senseWord bits = (s.senseWord bits).withFaults f := by
  unfold State.senseWord
  induction List.range bits generalizing s with
  | nil => rfl
  | cons i rest ih => simp only [List.foldl_cons, State.senseBit_withFaults, ih]

theorem State.senseSamples_withFaults (bits k : Nat) (f : List Nat) (s : State) :
    (s.withFaults f).senseSamples bits k = (s.senseSamples bits k).withFaults f := by
  induction k generalizing s with
  | zero => rfl
  | succ k ih =>
    simp only [State.senseSamples, State.senseWord_withFaults]
    rw [← ih]
    rfl

theorem State.setPin_withFaults (p : Pin) (v : Level) (f : List Nat) (s : State) :
    (s.withFaults f).setPin p v = (s.setPin p v).withFaults f := by
  cases p <;> try rfl
  simp only [State.setPin]
  split <;> rename_i h
  · rw [if_pos (by simpa [State.withFaults] using h), State.capture_withFaults]
    cases hm : modeOfLevel s.dcx <;> simp [State.withFaults, State.capture, hm]
  · rw [if_neg (by simpa [State.withFaults] using h)]
    rfl

theorem MicroOp.effect_withFaults (op : MicroOp) (f : List Nat) (s : State) :
    op.effect (s.withFaults f) = (op.effect s).withFaults f := by
  cases op with
  | set p v =>
    simp only [MicroOp.effect, State.setPin_withFaults]
    rfl
  | get i =>
    simp only [MicroOp.effect, State.senseBit_withFaults]
    rfl
  | serialWrite m burst =>
    simp only [MicroOp.effect, State.captureBurst_withFaults]
    rfl
  | serialRead k =>
    simp only [MicroOp.effect, State.withFaults_cfg, State.senseSamples_withFaults]
    rfl
  | _ => rfl

/-! ## Sequences of effects -/

@[simp] theorem applyOps_nil (s : State) : applyOps [] s = s := rfl

@[simp] theorem applyOps_cons (op : MicroOp) (ops : List MicroOp) (s : State) :
    applyOps (op :: ops) s = applyOps ops (op.effect s) := rfl

theorem applyOps_append (a b : List MicroOp) (s : State) :
    applyOps (a ++ b) s = applyOps b (applyOps a s) := by simp [applyOps]

theorem applyOps_withFaults (ops : List MicroOp) (f : List Nat) (s : State) :
    applyOps ops (s.withFaults f) = (applyOps ops s).withFaults f := by
  induction ops generalizing s with
  | nil => rfl
  | cons op ops ih => simp only [applyOps_cons, MicroOp.effect_withFaults, ih]

theorem applyOps_sameCore (ops : List MicroOp) (s : State) :
    SameCore s (applyOps ops s) ∧ (applyOps ops s).faults = s.faults := by
  induction ops generalizing s with
  | nil => exact ⟨.refl s, rfl⟩
  | cons op ops ih =>
    obtain ⟨h, hf⟩ := ih (op.effect s)
    obtain ⟨k, kf⟩ := op.effect_sameCore s
    exact ⟨k.trans h, by rw [applyOps_cons, hf, kf]⟩

@[simp] theorem applyOps_cfg (ops : List MicroOp) (s : State) : (applyOps ops s).cfg = s.cfg :=
  (applyOps_sameCore ops s).1.cfg

@[simp] theorem faultCalls_nil : faultCalls [] = 0 := rfl

theorem faultCalls_append (a b : List MicroOp) : faultCalls (a ++ b) = faultCalls a + faultCalls b := by
  simp [faultCalls]

theorem faultCalls_cons (op : MicroOp) (ops : List MicroOp) :
    faultCalls (op :: ops) = (if op.mayFault then 1 else 0) + faultCalls ops := by
  simp [faultCalls, List.countP_cons, Nat.add_comm]

/-! ## The parts of a request -/

@[simp] theorem Progress.bind_going (s : State) (f : State → Progress) : (Progress.going s).bind f = f s := rfl

@[simp] theorem Progress.bind_raised (e : Status) (s : State) (f : State → Progress) :
    (Progress.raised e s).bind f = .raised e s := rfl

@[simp] theorem Progress.bind_stalled (s : State) (f : State → Progress) :
    (Progress.stalled s).bind f = .stalled s := rfl

theorem Progress.bind_assoc (p : Progress) (f g : State → Progress) :
    (p.bind f).bind g = p.bind fun t => (f t).bind g := by cases p <;> rfl

theorem runOps_append (err : Status) (a b : List MicroOp) (s : State) :
    runOps err (a ++ b) s = (runOps err a s).bind (runOps err b) := by
  induction a generalizing s with
  | nil => rfl
  | cons op a ih =>
    simp only [List.cons_append, runOps, Progress.bind_assoc]
    congr 1
    funext t
    exact ih t

/-- What a micro-operation can come to: its effect, or an error that leaves every latch as it was. -/
theorem MicroOp.perform_cases (err : Status) (op : MicroOp) (s : State) :
    (∃ f, op.perform err s = .going (op.effect (s.withFaults f)) ∧
      (op.wantsInput && s.cfg.pinVariant == .outputOnly) = false) ∨
    (∃ f, op.perform err s = .raised err (s.withFaults f) ∧ op.mayFault = true) ∨
    (op.perform err s = .raised .inputNotAvailable s ∧ op.wantsInput = true ∧ s.cfg.pinVariant = .outputOnly) := by
  unfold MicroOp.perform
  split
  · rename_i h
    exact .inr (.inr ⟨rfl, by simpa using h⟩)
  · rename_i h
    have h' : (op.wantsInput && s.cfg.pinVariant == .outputOnly) = false := by simpa using h
    split
    · rename_i hm
      split
      · rename_i hs
        exact .inl ⟨s.faults, by simp, h'⟩
      · rename_i rest hs
        exact .inr (.inl ⟨rest, rfl, hm⟩)
      · rename_i k rest hs
        exact .inl ⟨k :: rest, rfl, h'⟩
    · exact .inl ⟨s.faults, by simp, h'⟩

/-- Micro-operations never stall; they go on with all their effects, or they stop after the effects of the first of
them, with the error of their part of the request or with `InputNotAvailable`. -/
theorem runOps_cases (err : Status) (ops : List MicroOp) (s : State) :
    (∃ f, runOps err ops s = .going ((applyOps ops s).withFaults f)) ∨
    (∃ f done rest, ops = done ++ rest ∧ runOps err ops s = .raised err ((applyOps done s).withFaults f)) ∨
    (∃ f done op rest, ops = done ++ op :: rest ∧ op.wantsInput = true ∧ s.cfg.pinVariant = .outputOnly ∧
      runOps err ops s = .raised .inputNotAvailable ((applyOps done s).withFaults f)) := by
  induction ops generalizing s with
  | nil => exact .inl ⟨s.faults, rfl⟩
  | cons op ops ih =>
    rcases op.perform_cases err s with ⟨f, hp, _⟩ | ⟨f, hp, _⟩ | ⟨hp, hw, ho⟩
    · have hstep : runOps err (op :: ops) s = runOps err ops (op.effect (s.withFaults f)) := by
        rw [runOps, hp, Progress.bind_going]
      rcases ih (op.effect (s.withFaults f)) with ⟨g, h⟩ | ⟨g, done, rest, h1, h2⟩ | ⟨g, done, o, rest, h1, hw, ho, h2⟩
      · exact .inl ⟨g, by
          rw [hstep, h, MicroOp.effect_withFaults, applyOps_withFaults, State.withFaults_withFaults, applyOps_cons]⟩
      · exact .inr (.inl ⟨g, op :: done, rest, by rw [h1, List.cons_append], by
          rw [hstep, h2, MicroOp.effect_withFaults, applyOps_withFaults, State.withFaults_withFaults, applyOps_cons]⟩)
      · exact .inr (.inr ⟨g, op :: done, o, rest, by rw [h1, List.cons_append], hw, by simpa using ho, by
          rw [hstep, h2, MicroOp.effect_withFaults, applyOps_withFaults, State.withFaults_withFaults, applyOps_cons]⟩)
    · exact .inr (.inl ⟨f, [], op :: ops, rfl, by rw [runOps, hp]; rfl⟩)
    · exact .inr (.inr ⟨s.faults, [], op, ops, rfl, hw, ho, by rw [runOps, hp]; rfl⟩)

/-- The state a part of a request has come to. -/
def Progress.state : Progress → State
  | .going s => s
  | .raised _ s => s
  | .stalled s => s

@[simp] theorem Progress.state_going (s : State) : (Progress.going s).state = s := rfl
@[simp] theorem Progress.state_raised (e : Status) (s : State) : (Progress.raised e s).state = s := rfl
@[simp] theorem Progress.state_stalled (s : State) : (Progress.stalled s).state = s := rfl

/-- A property that every effect keeps, and that no schedule of faults matters to, is kept by micro-operations one
after another, however they end. -/
theorem runOps_keeps {P : State → Prop} (hf : ∀ s f, P s → P (s.withFaults f)) (err : Status)
    (ops : List MicroOp) (ho : ∀ op ∈ ops, ∀ s, P s → P (op.effect s)) {s : State} (h : P s) :
    P (runOps err ops s).state := by
  induction ops generalizing s with
  | nil => exact h
  | cons op ops ih =>
    have hrest := fun t ht => ih (fun o m => ho o (List.mem_cons_of_mem _ m)) (s := t) ht
    rcases op.perform_cases err s with ⟨f, hp, _⟩ | ⟨f, hp, _⟩ | ⟨hp, _⟩
    · rw [runOps, hp]
      exact hrest _ (ho op List.mem_cons_self _ (hf s f h))
    · rw [runOps, hp]
      exact hf s f h
    · rw [runOps, hp]
      exact h

theorem Progress.bind_keeps {P : State → Prop} {p : Progress} {f : State → Progress} (hp : P p.state)
    (hf : ∀ t, P t → P (f t).state) : P (p.bind f).state := by
  cases p with
  | going s => exact hf s hp
  | raised e s => exact hp
  | stalled s => exact hp

theorem repeatOp_keeps {P : State → Prop} {f : State → Progress} (hf : ∀ t, P t → P (f t).state) (n : Nat)
    {s : State} (h : P s) : P (repeatOp f n s).state := by
  induction n generalizing s with
  | zero => exact h
  | succ n ih => exact Progress.bind_keeps (hf s h) fun t ht => ih ht

/-! ## Undisturbed runs -/

/-- The schedule of faults after `n` pin operations none of which faulted. -/
def spendFaults (n : Nat) : List Nat → List Nat
  | [] => []
  | k :: rest => (k - n) :: rest

@[simp] theorem spendFaults_zero (f : List Nat) : spendFaults 0 f = f := by cases f <;> rfl

theorem spendFaults_add (m n : Nat) (f : List Nat) : spendFaults n (spendFaults m f) = spendFaults (m + n) f := by
  cases f with
  | nil => rfl
  | cons k rest => simp [spendFaults, Nat.sub_sub]

theorem State.quietFor_mono {m n : Nat} {s : State} (h : s.quietFor n) (hm : m ≤ n) : s.quietFor m := by
  unfold State.quietFor at *
  split <;> simp_all
  omega

theorem State.quietFor_spend {m n : Nat} {s t : State} (h : s.quietFor (m + n))
    (ht : t.faults = spendFaults m s.faults) : t.quietFor n := by
  unfold State.quietFor at *
  rcases hs : s.faults with _ | ⟨k, rest⟩ <;> simp_all [spendFaults]
  omega

/-- Micro-operations run undisturbed when no pin operation of theirs faults and none asks an output-only pin to
become an input. -/
theorem runOps_quiet (err : Status) (ops : List MicroOp) (s : State) (hq : s.quietFor (faultCalls ops))
    (hv : s.cfg.pinVariant = .bidirectional ∨ ∀ op ∈ ops, op.wantsInput = false) :
    runOps err ops s = .going ((applyOps ops s).withFaults (spendFaults (faultCalls ops) s.faults)) := by
  induction ops generalizing s with
  | nil => simp [runOps]
  | cons op ops ih =>
    have hw : (op.wantsInput && s.cfg.pinVariant == .outputOnly) = false := by
      rcases hv with hv | hv
      · simp [hv]
      · simp [hv op List.mem_cons_self]
    have hv' : ∀ t : State, t.cfg = s.cfg →
        (t.cfg.pinVariant = .bidirectional ∨ ∀ o ∈ ops, o.wantsInput = false) := by
      intro t ht
      rcases hv with hv | hv
      · exact .inl (by rw [ht, hv])
      · exact .inr fun o m => hv o (List.mem_cons_of_mem _ m)
    rw [runOps]
    by_cases hm : op.mayFault = true
    · have hcalls : faultCalls (op :: ops) = 1 + faultCalls ops := by simp [faultCalls_cons, hm]
      have hgo : op.perform err s = .going (op.effect (s.withFaults (spendFaults 1 s.faults))) := by
        unfold MicroOp.perform
        rw [hw, if_neg (by simp), if_pos hm]
        rcases hs : s.faults with _ | ⟨k, rest⟩
        · simp [spendFaults, State.withFaults, ← hs]
        · rcases k with _ | k
          · simp [State.quietFor, hs, hcalls] at hq
          · simp [spendFaults, State.withFaults]
      rw [hgo, Progress.bind_going, MicroOp.effect_withFaults, ih]
      · rw [applyOps_withFaults, State.withFaults_withFaults, State.withFaults_faults, spendFaults_add, hcalls,
          applyOps_cons]
      · exact State.quietFor_spend (hcalls ▸ hq) (by simp)
      · exact hv' _ (by simp)
    · have hcalls : faultCalls (op :: ops) = faultCalls ops := by simp [faultCalls_cons, hm]
      have hgo : op.perform err s = .going (op.effect s) := by
        unfold MicroOp.perform
        rw [hw, if_neg (by simp), if_neg hm]
      rw [hgo, Progress.bind_going, ih]
      · rw [hcalls, MicroOp.effect_faults, applyOps_cons]
      · simpa [State.quietFor, hcalls] using hq
      · exact hv' _ (by simp)

/-- A pin fault stops the micro-operations precisely (R110): those before the faulting pin operation have taken
effect, it and those after it have not. -/
theorem runOps_abort (err : Status) (ops : List MicroOp) (s : State) (q : Nat) (rest : List Nat)
    (hq : s.faults = q :: rest) (hlt : q < faultCalls ops)
    (hv : s.cfg.pinVariant = .bidirectional ∨ ∀ op ∈ ops, op.wantsInput = false) :
    runOps err ops s = .raised err ((applyOps (opsBefore q ops) s).withFaults rest) := by
  induction ops generalizing s q with
  | nil => simp at hlt
  | cons op ops ih =>
    have hw : (op.wantsInput && s.cfg.pinVariant == .outputOnly) = false := by
      rcases hv with hv | hv
      · simp [hv]
      · simp [hv op List.mem_cons_self]
    have hv' : ∀ t : State, t.cfg = s.cfg →
        (t.cfg.pinVariant = .bidirectional ∨ ∀ o ∈ ops, o.wantsInput = false) := by
      intro t ht
      rcases hv with hv | hv
      · exact .inl (by rw [ht, hv])
      · exact .inr fun o m => hv o (List.mem_cons_of_mem _ m)
    rw [runOps]
    by_cases hm : op.mayFault = true
    · have hcalls : faultCalls (op :: ops) = 1 + faultCalls ops := by simp [faultCalls_cons, hm]
      rcases q with _ | q
      · have hgo : op.perform err s = .raised err (s.withFaults rest) := by
          unfold MicroOp.perform
          rw [hw, if_neg (by simp), if_pos hm, hq]
          rfl
        rw [hgo, opsBefore, if_pos hm]
        rfl
      · have hgo : op.perform err s = .going (op.effect (s.withFaults (q :: rest))) := by
          unfold MicroOp.perform
          rw [hw, if_neg (by simp), if_pos hm, hq]
          rfl
        rw [hgo, Progress.bind_going, MicroOp.effect_withFaults,
          ih _ q (by simp) (by omega) (hv' _ (by simp)), opsBefore, if_pos hm, applyOps_withFaults,
          State.withFaults_withFaults, applyOps_cons]
    · have hcalls : faultCalls (op :: ops) = faultCalls ops := by simp [faultCalls_cons, hm]
      have hgo : op.perform err s = .going (op.effect s) := by
        unfold MicroOp.perform
        rw [hw, if_neg (by simp), if_neg hm]
      have hb : opsBefore q (op :: ops) = op :: opsBefore q ops := by simp [opsBefore, hm]
      rw [hgo, Progress.bind_going, ih _ q (by simpa using hq) (hcalls ▸ hlt) (hv' _ (by simp)), hb,
        applyOps_cons]

end Sys2Proof.Machine
end

