-- ==== Sys2Proof/Laws/Bus.lean ====
section
/-! SUPPORT. What the transactions come to when no pin operation faults. -/

namespace Sys2Proof.Machine

/-! ## Bits of bus words -/

theorem lowOnes_getLsbD (n j : Nat) : (lowOnes n).getLsbD j = (decide (j < 32) && decide (j < n)) := by
  simp [lowOnes, BitVec.getLsbD_ofNat, Nat.testBit_two_pow_sub_one]

theorem busWord_getLsbD (w : Width) (v : Word) (j : Nat) :
    (busWord w v).getLsbD j = (v.getLsbD j && decide (j < w.bits)) := by
  simp only [busWord, BitVec.getLsbD_and, lowOnes_getLsbD]
  by_cases h : j < 32
  · simp [h]
  · simp [BitVec.getLsbD_of_ge v j (by omega)]

theorem busWord_congr {w : Width} {u v : Word} (h : ∀ j < w.bits, u.getLsbD j = v.getLsbD j) :
    busWord w u = busWord w v := by
  apply BitVec.eq_of_getLsbD_eq
  intro j _
  rw [busWord_getLsbD, busWord_getLsbD]
  by_cases hj : j < w.bits
  · rw [h j hj]
  · simp [hj]

@[simp] theorem busWord_busWord (w : Width) (v : Word) : busWord w (busWord w v) = busWord w v := by
  apply busWord_congr
  intro j hj
  simp [busWord_getLsbD, hj]

theorem width_bits_le (w : Width) : 8 ≤ w.bits ∧ w.bits ≤ 18 := by cases w <;> decide

@[simp] theorem busWord_wordOfByte (w : Width) (b : Byte) : busWord w (wordOfByte b) = wordOfByte b := by
  apply BitVec.eq_of_getLsbD_eq
  intro j hj
  have := width_bits_le w
  rw [busWord_getLsbD]
  by_cases h : j < w.bits
  · simp [h]
  · have : (wordOfByte b).getLsbD j = false := by
      simp [wordOfByte, BitVec.getLsbD_setWidth, BitVec.getLsbD_of_ge b j (by omega)]
    simp [this]

@[simp] theorem byteOfWord_wordOfByte (b : Byte) : byteOfWord (wordOfByte b) = b := by
  simp [byteOfWord, wordOfByte]

theorem setBit_getLsbD (v : Word) (i j : Nat) (b : Level) (hj : j < 32) :
    (setBit v i b).getLsbD j = if j = i then b else v.getLsbD j := by
  unfold setBit
  by_cases hb : b = true
  · rw [if_pos hb]
    by_cases h : j = i
    · subst h; simp [hb, hj]
    · simp only [BitVec.getLsbD_or, BitVec.getLsbD_shiftLeft, BitVec.getLsbD_one, if_neg h]
      have : ¬ (j - i = 0 ∧ ¬ j < i) := by omega
      by_cases hlt : j < i <;> simp [hlt]
      intro _
      omega
  · rw [if_neg hb]
    by_cases h : j = i
    · subst h; simp [hb, hj]
    · simp only [BitVec.getLsbD_and, BitVec.getLsbD_not, BitVec.getLsbD_shiftLeft, BitVec.getLsbD_one, if_neg h]
      by_cases hlt : j < i <;> simp [hlt, hj]
      intro _ hz
      omega

/-! ## What a sequence leaves as it was -/

/-- The fields that only control lines, words and samples change. -/
structure SameLines (s t : State) : Prop where
  cs : t.cs = s.cs
  dcx : t.dcx = s.dcx
  rdx : t.rdx = s.rdx
  wrx : t.wrx = s.wrx
  resx : t.resx = s.resx
  ghost : t.ghost = s.ghost
  captured : t.captured = s.captured
  draws : t.draws = s.draws

theorem SameLines.refl (s : State) : SameLines s s := by constructor <;> rfl

theorem SameLines.trans {s t u : State} (h : SameLines s t) (k : SameLines t u) : SameLines s u := by
  constructor <;> simp only [h.cs, h.dcx, h.rdx, h.wrx, h.resx, h.ghost, h.captured, h.draws, k.cs, k.dcx, k.rdx,
    k.wrx, k.resx, k.ghost, k.captured, k.draws]

/-- What no micro-operation of a write transaction changes. -/
structure SameInputs (s t : State) : Prop where
  levels : t.levels = s.levels
  rdWords : t.rdWords = s.rdWords
  sample : t.sample = s.sample

theorem SameInputs.refl (s : State) : SameInputs s s := by constructor <;> rfl

theorem SameInputs.trans {s t u : State} (h : SameInputs s t) (k : SameInputs t u) : SameInputs s u := by
  constructor <;> simp only [h.levels, h.rdWords, h.sample, k.levels, k.rdWords, k.sample]

/-- The micro-operation reads nothing. -/
def MicroOp.readsNothing : MicroOp → Bool
  | .get _ => false
  | .clearSamples => false
  | .deliver => false
  | .serialRead _ => false
  | _ => true

theorem State.captureBurst_sameInputs (m : Mode) (burst : List (Mark × Word)) (s : State) :
    SameInputs s (s.captureBurst m burst) ∧ (s.captureBurst m burst).resx = s.resx := by
  induction burst generalizing s with
  | nil => exact ⟨.refl s, rfl⟩
  | cons kv rest ih =>
    obtain ⟨h, hr⟩ := ih ((s.noteMark kv.1).capture m (busWord s.cfg.width kv.2))
    exact ⟨SameInputs.trans (by constructor <;> simp) h, by simpa [State.captureBurst] using hr⟩

theorem MicroOp.effect_sameInputs {op : MicroOp} (h : op.readsNothing = true) (s : State) :
    SameInputs s (op.effect s) := by
  cases op with
  | get i => simp [MicroOp.readsNothing] at h
  | clearSamples => simp [MicroOp.readsNothing] at h
  | deliver => simp [MicroOp.readsNothing] at h
  | serialRead k => simp [MicroOp.readsNothing] at h
  | serialWrite m burst =>
    have := (State.captureBurst_sameInputs m burst s).1
    exact this.trans (by constructor <;> rfl)
  | _ => constructor <;> simp [MicroOp.effect]

theorem applyOps_sameInputs {ops : List MicroOp} (h : ∀ op ∈ ops, op.readsNothing = true) (s : State) :
    SameInputs s (applyOps ops s) := by
  induction ops generalizing s with
  | nil => exact .refl s
  | cons op ops ih =>
    exact (MicroOp.effect_sameInputs (h op List.mem_cons_self) s).trans
      (ih (fun o m => h o (List.mem_cons_of_mem _ m)) _)

/-! ## The trace of a sequence -/

/-- The event of a micro-operation that reads nothing. -/
def MicroOp.event : MicroOp → List Event
  | .mode i dir => [.mode i dir]
  | .set p v => [.set p v]
  | .delay us => [.delay us]
  | .serialWrite m burst => [.serialWrite m (burst.map Prod.snd)]
  | _ => []

theorem State.captureBurst_trace (m : Mode) (burst : List (Mark × Word)) (s : State) :
    (s.captureBurst m burst).trace = s.trace := by
  induction burst generalizing s with
  | nil => rfl
  | cons kv rest ih => simp [State.captureBurst, ih]

theorem applyOps_events {ops : List MicroOp} (h : ∀ op ∈ ops, op.readsNothing = true) (s : State) :
    (applyOps ops s).events = s.events ++ ops.flatMap MicroOp.event := by
  induction ops generalizing s with
  | nil => simp
  | cons op ops ih =>
    rw [applyOps_cons, ih (fun o m => h o (List.mem_cons_of_mem _ m)), List.flatMap_cons, ← List.append_assoc]
    congr 1
    have hop := h op List.mem_cons_self
    cases op <;>
      simp_all [State.events, MicroOp.effect, MicroOp.event, MicroOp.readsNothing, State.captureBurst_trace]

/-- The micro-operation belongs to a serial bus. -/
def MicroOp.serial : MicroOp → Bool
  | .serialWrite _ _ => true
  | .serialRead _ => true
  | _ => false

theorem applyOps_pinOperations {ops : List MicroOp} (h : ∀ op ∈ ops, op.serial = false) (s : State) :
    pinOperations (applyOps ops s).trace = pinOperations s.trace + faultCalls ops := by
  induction ops generalizing s with
  | nil => rfl
  | cons op ops ih =>
    have hop := h op List.mem_cons_self
    rw [applyOps_cons, ih (fun o m => h o (List.mem_cons_of_mem _ m)), faultCalls_cons, ← Nat.add_assoc]
    congr 1
    cases op <;> simp_all [pinOperations, MicroOp.effect, MicroOp.mayFault, MicroOp.serial]

/-- The micro-operation is the fall of RDX. -/
def MicroOp.fallsRdx : MicroOp → Bool
  | .set .rdx false => true
  | _ => false

theorem State.senseSamples_trace (bits k : Nat) (s : State) : (s.senseSamples bits k).trace = s.trace := by
  induction k generalizing s with
  | zero => rfl
  | succ k ih =>
    rw [State.senseSamples, ih]
    unfold State.senseWord
    simp only [State.deliver_trace]
    induction List.range bits generalizing s with
    | nil => rfl
    | cons i rest ih' => simp [ih']

theorem applyOps_readPulses (ops : List MicroOp) (s : State) :
    readPulses (applyOps ops s).trace = readPulses s.trace + ops.countP MicroOp.fallsRdx := by
  induction ops generalizing s with
  | nil => rfl
  | cons op ops ih =>
    rw [applyOps_cons, ih, List.countP_cons, Nat.add_comm (ops.countP _), ← Nat.add_assoc]
    congr 1
    cases op with
    | set p v => cases p <;> cases v <;> simp [readPulses, MicroOp.effect, MicroOp.fallsRdx]
    | serialWrite m burst =>
      simp [readPulses, MicroOp.effect, MicroOp.fallsRdx, State.captureBurst_trace]
    | serialRead k => simp [readPulses, MicroOp.effect, MicroOp.fallsRdx, State.senseSamples_trace]
    | _ => simp [readPulses, MicroOp.effect, MicroOp.fallsRdx]

/-! ## Driving a word -/

/-- The data pins carry the low `n` bits of a word, as outputs, and nothing else moved (R101). -/
theorem applyOps_driveWord (n : Nat) (v : Word) (s : State) :
    SameLines s (applyOps (driveWord n v) s) ∧
    (∀ j < 32, (applyOps (driveWord n v) s).dout.getLsbD j = if j < n then v.getLsbD j else s.dout.getLsbD j) ∧
    (∀ j < 32, (applyOps (driveWord n v) s).ddir.getLsbD j = if j < n then true else s.ddir.getLsbD j) := by
  induction n with
  | zero => exact ⟨.refl s, by simp [driveWord], by simp [driveWord]⟩
  | succ n ih =>
    have hcat : driveWord (n + 1) v = driveWord n v ++ [.mode n .output, .set (.d n) (v.getLsbD n)] := by
      simp [driveWord, List.range_succ, List.flatMap_append]
    obtain ⟨hl, ho, hd⟩ := ih
    rw [hcat, applyOps_append]
    generalize applyOps (driveWord n v) s = t at hl ho hd
    refine ⟨hl.trans (by constructor <;> rfl), ?_, ?_⟩ <;> intro j hj
    · change (setBit t.dout n (v.getLsbD n)).getLsbD j = _
      rw [setBit_getLsbD _ _ _ _ hj, ho j hj]
      split <;> rename_i h
      · subst h; simp
      · rw [if_congr (by omega : j < n ↔ j < n + 1) rfl rfl]
    · change (setBit t.ddir n true).getLsbD j = _
      rw [setBit_getLsbD _ _ _ _ hj, hd j hj]
      split <;> rename_i h
      · subst h; simp
      · rw [if_congr (by omega : j < n ↔ j < n + 1) rfl rfl]

theorem busWord_eq_lowOnes {w : Width} {v : Word} (h : ∀ j < w.bits, v.getLsbD j = true) :
    busWord w v = lowOnes w.bits := by
  apply BitVec.eq_of_getLsbD_eq
  intro j hj
  have := width_bits_le w
  rw [busWord_getLsbD, lowOnes_getLsbD]
  by_cases hb : j < w.bits
  · simp [h j hb, hb, hj]
  · simp [hb]

/-- The lines while a burst passes: the device is selected, the write strobe rests, DCX tells the mode. -/
structure InBurst (m : Mode) (s : State) : Prop where
  cs : s.cs = false
  wrx : s.wrx = true
  rdx : s.rdx = true
  dcx : s.dcx = dcxLevel m

/-- One word is sent: the device captures it (R101, R104). -/
theorem applyOps_sendWord {m : Mode} {s : State} (h : InBurst m s) (kv : Mark × Word) :
    let t := applyOps (sendWord s.cfg.width.bits kv) s
    let u := (s.noteMark kv.1).capture m (busWord s.cfg.width kv.2)
    InBurst m t ∧ t.captured = u.captured ∧ t.ghost = u.ghost ∧ t.draws = u.draws ∧ t.resx = s.resx ∧
      busWord s.cfg.width t.dout = busWord s.cfg.width kv.2 ∧
      busWord s.cfg.width t.ddir = lowOnes s.cfg.width.bits := by
  intro t u
  obtain ⟨hl, ho, hd⟩ := applyOps_driveWord s.cfg.width.bits kv.2 (s.noteMark kv.1)
  have hb := width_bits_le s.cfg.width
  have ht : t = applyOps [.set .wrx false, .set .wrx true]
      (applyOps (driveWord s.cfg.width.bits kv.2) (s.noteMark kv.1)) := by
    simp only [t, sendWord, applyOps_cons, applyOps_append]
    rfl
  have hcore := (applyOps_sameCore (driveWord s.cfg.width.bits kv.2) (s.noteMark kv.1)).1
  generalize applyOps (driveWord s.cfg.width.bits kv.2) (s.noteMark kv.1) = r at *
  have hdout : busWord s.cfg.width r.dout = busWord s.cfg.width kv.2 :=
    busWord_congr fun j hj => by rw [ho j (by omega), if_pos hj]
  have hddir : busWord s.cfg.width r.ddir = lowOnes s.cfg.width.bits :=
    busWord_eq_lowOnes fun j hj => by rw [hd j (by omega), if_pos hj]
  have hcfg : r.cfg = s.cfg := hcore.cfg
  have hcs : r.cs = false := hl.cs.trans h.cs
  have hdcx : r.dcx = dcxLevel m := hl.dcx.trans h.dcx
  have hmode : modeOfLevel r.dcx = m := by rw [hdcx]; cases m <;> rfl
  have hcap : t = { ({ r with wrx := false, trace := .set .wrx false :: r.trace, seq := r.seq.map (· + 1) } : State).capture m
      (busWord s.cfg.width kv.2) with
      wrx := true, trace := .set .wrx true :: .set .wrx false :: r.trace,
      seq := (r.seq.map (· + 1)).map (· + 1) } := by
    rw [ht]
    simp only [applyOps_cons, applyOps_nil, MicroOp.effect, State.setPin, State.emit]
    simp [hcs, hmode, hcfg, hdout]
  rw [hcap]
  refine ⟨⟨?_, ?_, ?_, ?_⟩, ?_, ?_, ?_, ?_, ?_, ?_⟩
  · simpa using hcs
  · rfl
  · simpa using hl.rdx.trans h.rdx
  · simpa using hdcx
  · simp [u, hl.captured]
  · simp only [u]
    cases m <;> simp [State.capture, hl.ghost, hl.draws, hcfg]
  · simp only [u]
    cases m <;> simp [State.capture, hl.draws]
  · simpa using hl.resx
  · simpa using hdout
  · simpa using hddir

/-! ## Write transactions -/

/-- What a burst does to what the monitor holds, whatever carries it. -/
structure Burst (m : Mode) (burst : List (Mark × Word)) (s t : State) : Prop where
  captured : t.captured = (s.captureBurst m burst).captured
  ghost : t.ghost = (s.captureBurst m burst).ghost
  draws : t.draws = (s.captureBurst m burst).draws
  resx : t.resx = s.resx

/-- `captureBurst` reads only the parameters and what the monitor holds. -/
theorem State.captureBurst_congr (m : Mode) (burst : List (Mark × Word)) {s t : State} (hc : t.cfg = s.cfg)
    (hcap : t.captured = s.captured) (hg : t.ghost = s.ghost) (hd : t.draws = s.draws) :
    (t.captureBurst m burst).captured = (s.captureBurst m burst).captured ∧
    (t.captureBurst m burst).ghost = (s.captureBurst m burst).ghost ∧
    (t.captureBurst m burst).draws = (s.captureBurst m burst).draws := by
  induction burst generalizing s t with
  | nil => exact ⟨hcap, hg, hd⟩
  | cons kv rest ih =>
    simp only [State.captureBurst]
    apply ih
    · simpa using hc
    · simp [hcap, hc]
    · cases m <;> simp [State.capture, hg, hc, hd]
    · cases m <;> simp [State.capture, hd]

theorem applyOps_words {m : Mode} (burst : List (Mark × Word)) {s : State} (h : InBurst m s) :
    let t := applyOps (burst.flatMap (sendWord s.cfg.width.bits)) s
    InBurst m t ∧ Burst m burst s t ∧
      (∀ kv, burst.getLast? = some kv → busWord s.cfg.width t.dout = busWord s.cfg.width kv.2 ∧
        busWord s.cfg.width t.ddir = lowOnes s.cfg.width.bits) := by
  induction burst generalizing s with
  | nil => exact ⟨h, by constructor <;> rfl, by simp⟩
  | cons kv rest ih =>
    intro t
    obtain ⟨hb, hcap, hg, hd, hr, hout, hdir⟩ := applyOps_sendWord h kv
    have ht : t = applyOps (rest.flatMap (sendWord s.cfg.width.bits)) (applyOps (sendWord s.cfg.width.bits kv) s) := by
      simp only [t, List.flatMap_cons, applyOps_append]
    have hcfg : (applyOps (sendWord s.cfg.width.bits kv) s).cfg = s.cfg := applyOps_cfg _ _
    generalize applyOps (sendWord s.cfg.width.bits kv) s = r at *
    obtain ⟨hb', hB, hlast⟩ := ih hb
    rw [hcfg] at hb' hB hlast
    have hcong := State.captureBurst_congr m rest (t := r)
      (s := (s.noteMark kv.1).capture m (busWord s.cfg.width kv.2)) (by simpa using hcfg) hcap hg hd
    rw [ht]
    refine ⟨hb', ⟨?_, ?_, ?_, ?_⟩, ?_⟩
    · rw [hB.captured, hcong.1]; rfl
    · rw [hB.ghost, hcong.2.1]; rfl
    · rw [hB.draws, hcong.2.2]; rfl
    · rw [hB.resx, hr]
    · intro kv' hk
      rcases rest with _ | ⟨kv2, rest⟩
      · simp only [List.getLast?_singleton, Option.some.injEq] at hk
        subst hk
        exact ⟨hout, hdir⟩
      · exact hlast kv' (by simpa using hk)

theorem State.settled_of_serial {s : State} (h : s.cfg.isSerial = true) : s.Settled := by simp [State.Settled, State.pulseHalfDone, h]

theorem State.settled_of_cs {s : State} (h : s.cs = true) : s.Settled := by simp [State.Settled, State.pulseHalfDone, h]

theorem State.settled_of_wrx {s : State} (h : s.wrx = true) : s.Settled := by simp [State.Settled, State.pulseHalfDone, h]

/-- On a settled parallel bus a set of WRX to 1 captures nothing. -/
theorem State.Settled.noCapture {s : State} (h : s.Settled) (hp : s.cfg.isSerial = false) :
    (true && !s.wrx && !s.cs) = false := by
  simp only [State.Settled, State.pulseHalfDone, hp, Bool.not_false, Bool.true_and] at h
  rw [Bool.true_and, Bool.and_comm, h]

/-- The opening of a write transaction on a settled bus moves the lines and captures nothing (R101). -/
theorem applyOps_openWrite (m : Mode) {s : State} (h : s.Settled) (hp : s.cfg.isSerial = false) :
    let t := applyOps (openWrite m) s
    InBurst m t ∧ t.captured = s.captured ∧ t.ghost = s.ghost ∧ t.draws = s.draws ∧ t.resx = s.resx ∧
      t.dout = s.dout ∧ t.ddir = s.ddir := by
  intro t
  have hrise := h.noCapture hp
  have ht : t = { s with rdx := true, wrx := true, cs := false, dcx := dcxLevel m, trace := t.trace, seq := t.seq } := by
    simp only [t, openWrite, applyOps_cons, applyOps_nil, MicroOp.effect, State.setPin, State.emit]
    simp only [hrise, Bool.false_eq_true, if_false]
  rw [ht]
  exact ⟨⟨rfl, rfl, rfl, rfl⟩, rfl, rfl, rfl, rfl, rfl, rfl⟩

/-- The lines after a transaction that ended well (R103). -/
structure AfterWrite (m : Mode) (v : Word) (t : State) : Prop where
  cs : t.cs = true
  wrx : t.wrx = true
  rdx : t.rdx = true
  dcx : t.dcx = !dcxLevel m
  ddir : busWord t.cfg.width t.ddir = lowOnes t.cfg.width.bits
  dout : busWord t.cfg.width t.dout = busWord t.cfg.width v

theorem applyOps_closeWrite {m : Mode} {s : State} (h : InBurst m s) :
    let t := applyOps (closeWrite m) s
    t.cs = true ∧ t.wrx = true ∧ t.rdx = true ∧ t.dcx = (!dcxLevel m) ∧ SameInputs s t ∧
      t.captured = s.captured ∧ t.ghost = s.ghost ∧ t.draws = s.draws ∧ t.resx = s.resx ∧
      t.dout = s.dout ∧ t.ddir = s.ddir := by
  intro t
  have ht : t = { s with wrx := true, cs := true, dcx := !dcxLevel m, trace := t.trace, seq := t.seq } := by
    simp only [t, closeWrite, applyOps_cons, applyOps_nil, MicroOp.effect, State.setPin, State.emit]
    simp only [h.wrx, Bool.not_true, Bool.and_false, Bool.false_and, Bool.false_eq_true, if_false]
  rw [ht]
  exact ⟨rfl, rfl, h.rdx, rfl, by constructor <;> rfl, rfl, rfl, rfl, rfl, rfl, rfl⟩

theorem sendWord_faultCalls (bits : Nat) (kv : Mark × Word) : faultCalls (sendWord bits kv) = 2 * bits + 2 := by
  have hd : ∀ n, faultCalls (driveWord n kv.2) = 2 * n := by
    intro n
    induction n with
    | zero => rfl
    | succ n ih =>
      have : driveWord (n + 1) kv.2 = driveWord n kv.2 ++ [.mode n .output, .set (.d n) (kv.2.getLsbD n)] := by
        simp [driveWord, List.range_succ, List.flatMap_append]
      rw [this, faultCalls_append, ih]
      rfl
  simp [sendWord, faultCalls_cons, faultCalls_append, hd, MicroOp.mayFault]

theorem words_faultCalls (bits : Nat) (burst : List (Mark × Word)) :
    faultCalls (burst.flatMap (sendWord bits)) = burst.length * (2 * bits + 2) := by
  induction burst with
  | nil => simp
  | cons kv rest ih =>
    rw [List.flatMap_cons, faultCalls_append, ih, sendWord_faultCalls, List.length_cons, Nat.add_mul, Nat.one_mul,
      Nat.add_comm]

/-- The number of pin operations of a write transaction (R112). -/
theorem writeOps_faultCalls (c : Config) (m : Mode) (burst : List (Mark × Word)) :
    faultCalls (writeOps c m burst) = writeCost c burst.length := by
  rcases burst with _ | ⟨kv, rest⟩
  · rfl
  · cases hs : c.isSerial
    · have : writeOps c m (kv :: rest) = openWrite m ++ (kv :: rest).flatMap (sendWord c.width.bits) ++ closeWrite m := by
        simp [writeOps, hs, writeWords]
      rw [this, faultCalls_append, faultCalls_append, words_faultCalls]
      simp only [writeCost, hs]
      have h1 : faultCalls (openWrite m) = 4 := rfl
      have h2 : faultCalls (closeWrite m) = 3 := rfl
      simp [h1, h2]
      omega
    · simp [writeOps, hs, writeCost, faultCalls, MicroOp.mayFault]

theorem writeOps_readsNothing (c : Config) (m : Mode) (burst : List (Mark × Word)) :
    ∀ op ∈ writeOps c m burst, op.readsNothing = true ∧ op.wantsInput = false := by
  intro op h
  unfold writeOps at h
  split at h
  · simp at h
  · split at h
    · simp only [List.mem_singleton] at h; subst h; exact ⟨rfl, rfl⟩
    · simp only [writeWords, openWrite, closeWrite, sendWord, driveWord, List.mem_append, List.mem_cons,
        List.not_mem_nil, or_false, List.mem_flatMap] at h
      rcases h with ((rfl | rfl | rfl | rfl) | ⟨kv, _, rfl | ⟨i, _, rfl | rfl⟩ | rfl | rfl⟩) | rfl | rfl | rfl <;>
        exact ⟨rfl, rfl⟩

theorem writeOps_event (c : Config) (m : Mode) (burst : List (Mark × Word)) :
    (writeOps c m burst).flatMap MicroOp.event = writeEvents c m (burst.map Prod.snd) := by
  have hword : ∀ kv : Mark × Word, (sendWord c.width.bits kv).flatMap MicroOp.event =
      (List.range c.width.bits).flatMap (fun i => [Event.mode i .output, .set (.d i) (kv.2.getLsbD i)])
        ++ [.set .wrx false, .set .wrx true] := by
    intro kv
    simp [sendWord, driveWord, List.flatMap_append, List.flatMap_assoc, MicroOp.event]
  rcases burst with _ | ⟨kv, rest⟩
  · rfl
  · cases hs : c.isSerial
    · simp only [writeOps, writeEvents, hs, writeWords, List.isEmpty_cons, List.map_cons, Bool.false_eq_true, if_false,
        List.flatMap_append, List.flatMap_assoc, hword]
      have h3 : ∀ l : List (Mark × Word), l.flatMap (fun kv => (List.range c.width.bits).flatMap
          (fun i => [Event.mode i .output, .set (.d i) (kv.2.getLsbD i)]) ++ [.set .wrx false, .set .wrx true]) =
          (l.map Prod.snd).flatMap (fun v => (List.range c.width.bits).flatMap
          (fun i => [Event.mode i .output, .set (.d i) (v.getLsbD i)]) ++ [.set .wrx false, .set .wrx true]) := by
        intro l; rw [List.flatMap_map]
      rw [h3]
      cases m <;> rfl
    · simp [writeOps, writeEvents, hs, MicroOp.event]

/-- One write transaction in which nothing faults, on a settled bus: the events of R101, every word captured once, the
lines of R103, and nothing else. -/
theorem busWrite_quiet (m : Mode) (burst : List (Mark × Word)) {s : State} (hs : s.Settled)
    (hq : s.quietFor (writeCost s.cfg burst.length)) :
    ∃ t, busWrite m burst s = .going t ∧ SameCore s t ∧ SameInputs s t ∧ Burst m burst s t ∧ t.Settled ∧
      t.faults = spendFaults (writeCost s.cfg burst.length) s.faults ∧
      t.events = s.events ++ writeEvents s.cfg m (burst.map Prod.snd) ∧
      (s.cfg.isSerial = false → ∀ kv, burst.getLast? = some kv → AfterWrite m kv.2 t) := by
  have hro := writeOps_readsNothing s.cfg m burst
  refine ⟨_, runOps_quiet _ _ _ ((writeOps_faultCalls s.cfg m burst).symm ▸ hq) (.inr fun o h => (hro o h).2), ?_⟩
  rw [writeOps_faultCalls]
  have hcore := (applyOps_sameCore (writeOps s.cfg m burst) s).1
  have hin := applyOps_sameInputs (fun o h => (hro o h).1) s
  have hev := applyOps_events (fun o h => (hro o h).1) s
  rw [writeOps_event] at hev
  have main : Burst m burst s (applyOps (writeOps s.cfg m burst) s) ∧ (applyOps (writeOps s.cfg m burst) s).Settled ∧
      (s.cfg.isSerial = false → ∀ kv, burst.getLast? = some kv →
        AfterWrite m kv.2 (applyOps (writeOps s.cfg m burst) s)) := by
    rcases burst with _ | ⟨kv, rest⟩
    · exact ⟨by constructor <;> rfl, hs, by simp⟩
    · cases hser : s.cfg.isSerial
      · have hops : writeOps s.cfg m (kv :: rest) =
            openWrite m ++ ((kv :: rest).flatMap (sendWord s.cfg.width.bits) ++ closeWrite m) := by
          simp [writeOps, hser, writeWords]
        rw [hops] at hcore ⊢
        simp only [applyOps_append] at hcore ⊢
        obtain ⟨hb, hcap, hg, hd, hr, _, _⟩ := applyOps_openWrite m hs hser
        have hc1 : (applyOps (openWrite m) s).cfg = s.cfg := applyOps_cfg _ _
        generalize applyOps (openWrite m) s = r1 at *
        obtain ⟨hb2, hB2, hl2⟩ := applyOps_words (kv :: rest) hb
        rw [hc1] at hb2 hB2 hl2
        have hc2 : (applyOps ((kv :: rest).flatMap (sendWord s.cfg.width.bits)) r1).cfg = s.cfg := by
          rw [applyOps_cfg, hc1]
        generalize applyOps ((kv :: rest).flatMap (sendWord s.cfg.width.bits)) r1 = r2 at *
        obtain ⟨k1, k2, k3, k4, _, k6, k7, k8, k9, k10, k11⟩ := applyOps_closeWrite hb2
        have hc3 : (applyOps (closeWrite m) r2).cfg = s.cfg := by rw [applyOps_cfg, hc2]
        generalize applyOps (closeWrite m) r2 = r3 at *
        have hcong := State.captureBurst_congr m (kv :: rest) hc1 hcap hg hd
        refine ⟨⟨?_, ?_, ?_, ?_⟩, State.settled_of_cs k1, fun _ kv' hk => ?_⟩
        · rw [k6, hB2.captured, hcong.1]
        · rw [k7, hB2.ghost, hcong.2.1]
        · rw [k8, hB2.draws, hcong.2.2]
        · rw [k9, hB2.resx, hr]
        · obtain ⟨l1, l2⟩ := hl2 kv' hk
          exact ⟨k1, k2, k3, k4, by rw [hc3, k11, l2], by rw [hc3, k10, l1]⟩
      · have hops : writeOps s.cfg m (kv :: rest) = [.serialWrite m (kv :: rest)] := by simp [writeOps, hser]
        rw [hops]
        refine ⟨⟨rfl, rfl, rfl, (State.captureBurst_sameInputs m _ s).2⟩, State.settled_of_serial ?_, by simp⟩
        rw [applyOps_cfg, hser]
  obtain ⟨hB, hS, hA⟩ := main
  exact ⟨hcore.trans (.withFaults _ _), hin.trans (by constructor <;> rfl), ⟨hB.captured, hB.ghost, hB.draws, hB.resx⟩,
    hS, rfl, hev, fun h kv hk => ⟨(hA h kv hk).cs, (hA h kv hk).wrx, (hA h kv hk).rdx, (hA h kv hk).dcx,
      (hA h kv hk).ddir, (hA h kv hk).dout⟩⟩

/-- The words a burst adds to the captured word stream. -/
theorem State.captureBurst_stream (m : Mode) (burst : List (Mark × Word)) (s : State) :
    (s.captureBurst m burst).stream = s.stream ++ tagged m (burst.map fun kv => busWord s.cfg.width kv.2) := by
  induction burst generalizing s with
  | nil => simp [State.captureBurst, tagged]
  | cons kv rest ih =>
    rw [State.captureBurst, ih]
    simp [tagged, State.stream]

/-! ## Samples -/

/-- Sampling reads only the inputs and the sample so far. -/
theorem State.senseBit_congr {s t : State} (hl : t.levels = s.levels) (hd : t.draws = s.draws)
    (hs : t.sample = s.sample) (i : Nat) :
    (t.senseBit i).levels = (s.senseBit i).levels ∧ (t.senseBit i).draws = (s.senseBit i).draws ∧
    (t.senseBit i).sample = (s.senseBit i).sample := by
  rcases h : s.levels with _ | ⟨l, ls⟩ <;>
    simp [State.senseBit, State.dropLevel, State.nextLevel, hl, hd, hs, h]

theorem State.senseWord_succ (n : Nat) (s : State) : s.senseWord (n + 1) = (s.senseWord n).senseBit n := by
  simp [State.senseWord, List.range_succ]

/-- Sampling changes the inputs and the sample, nothing else. -/
theorem State.senseWord_frame (n : Nat) (s : State) :
    (s.senseWord n).rdWords = s.rdWords ∧ (s.senseWord n).trace = s.trace ∧ (s.senseWord n).lines = s.lines ∧
      (s.senseWord n).ghost = s.ghost := by
  induction n with
  | zero => exact ⟨rfl, rfl, rfl, rfl⟩
  | succ n ih =>
    rw [State.senseWord_succ]
    simpa [State.lines] using ih

/-- A sample keeps the bits above the ones it takes. -/
theorem State.senseWord_high (n : Nat) (s : State) (j : Nat) (hj : n ≤ j) (hj' : j < 32) :
    (s.senseWord n).sample.getLsbD j = s.sample.getLsbD j := by
  induction n with
  | zero => rfl
  | succ n ih =>
    rw [State.senseWord_succ, State.senseBit_sample, setBit_getLsbD _ _ _ _ hj', if_neg (by omega), ih (by omega)]

/-- The device drives the bits of a word: that word is sampled (R56, R107). -/
theorem State.senseWord_levels (n : Nat) (v : Word) (rest : List Level) {s : State} (hn : n ≤ 32)
    (hl : s.levels = (List.range n).map (fun i => v.getLsbD i) ++ rest) :
    (∀ j < n, (s.senseWord n).sample.getLsbD j = v.getLsbD j) ∧ (s.senseWord n).levels = rest ∧
      (s.senseWord n).draws = s.draws := by
  induction n generalizing rest with
  | zero => exact ⟨by simp, (by simpa using hl : s.levels = rest), rfl⟩
  | succ n ih =>
    obtain ⟨h1, h2, h3⟩ := ih (v.getLsbD n :: rest) (by omega) (by
      rw [hl, List.range_succ, List.map_append]; simp)
    rw [State.senseWord_succ]
    refine ⟨fun j hj => ?_, ?_, ?_⟩
    · rw [State.senseBit_sample, setBit_getLsbD _ _ _ _ (by omega)]
      split <;> rename_i h
      · subst h; simp [State.nextLevel, h2]
      · exact h1 j (by omega)
    · simp [State.senseBit, State.dropLevel, h2]
    · simp [State.senseBit, State.dropLevel, h2, h3]

/-- The micro-operations of one sample on a parallel bus: they sample as `senseWord` does, and leave the lines as they
were but for the pulse. -/
theorem applyOps_gets (n : Nat) (hn : n ≤ 32) (s : State) :
    let t := applyOps ((List.range n).map .get) s
    t.lines = s.lines ∧ t.ghost = s.ghost ∧ t.rdWords = s.rdWords ∧ t.sample = (s.senseWord n).sample ∧
      t.levels = (s.senseWord n).levels ∧ t.draws = (s.senseWord n).draws ∧
      t.events = s.events ++ (List.range n).map (fun i => .get i (t.sample.getLsbD i)) := by
  induction n with
  | zero => exact ⟨rfl, rfl, rfl, rfl, rfl, rfl, by simp⟩
  | succ n ih =>
    intro t
    have ht : t = (MicroOp.get n).effect (applyOps ((List.range n).map .get) s) := by
      simp only [t, List.range_succ, List.map_append, applyOps_append]
      rfl
    obtain ⟨h1, h2, h3, h4, h5, h6, h7⟩ := ih (by omega)
    rw [ht]
    generalize applyOps ((List.range n).map .get) s = r at *
    obtain ⟨c1, c2, c3⟩ := State.senseBit_congr h5 h6 h4 n
    refine ⟨by simpa [MicroOp.effect, State.lines] using h1, by simpa [MicroOp.effect] using h2,
      by simpa [MicroOp.effect] using h3, ?_, ?_, ?_, ?_⟩
    · rw [State.senseWord_succ]; simpa [MicroOp.effect] using c3
    · rw [State.senseWord_succ]; simpa [MicroOp.effect] using c1
    · rw [State.senseWord_succ]; simpa [MicroOp.effect] using c2
    · have hs : ((MicroOp.get n).effect r).sample = setBit r.sample n r.nextLevel := by simp [MicroOp.effect]
      have he : ((MicroOp.get n).effect r).events = r.events ++ [.get n r.nextLevel] := by
        simp [MicroOp.effect, State.events]
      rw [he, h7, List.range_succ, List.map_append, List.append_assoc, hs]
      congr 2
      · apply List.map_congr_left
        intro i hi
        have := List.mem_range.mp hi
        rw [setBit_getLsbD _ _ _ _ (by omega), if_neg (by omega)]
      · simp [setBit_getLsbD r.sample n n r.nextLevel (by omega)]

/-- What reading leaves as it was. -/
structure ReadFrame (s t : State) : Prop where
  dout : t.dout = s.dout
  resx : t.resx = s.resx
  captured : t.captured = s.captured
  ghost : t.ghost = s.ghost

theorem ReadFrame.refl (s : State) : ReadFrame s s := by constructor <;> rfl

theorem ReadFrame.trans {s t u : State} (h : ReadFrame s t) (k : ReadFrame t u) : ReadFrame s u := by
  constructor <;> simp only [h.dout, h.resx, h.captured, h.ghost, k.dout, k.resx, k.captured, k.ghost]

/-- The events of samples (R106). -/
def sampleEvents (bits : Nat) (samples : List Word) : List Event :=
  samples.flatMap fun v =>
    [.set .rdx false] ++ (List.range bits).map (fun i => .get i (v.getLsbD i)) ++ [.set .rdx true]

/-- Samples that were taken one after another from a state: `t` is the state after them. -/
structure Sampled (w : Width) (samples : List Word) (s t : State) : Prop where
  words : t.rdWords = s.rdWords ++ samples
  fit : ∀ v ∈ samples, busWord w v = v
  sample : t.sample = 0
  driven : ∀ ws rest, ws.length = samples.length → s.levels = levelsOf w.bits ws ++ rest →
    samples = ws.map (busWord w) ∧ t.levels = rest ∧ t.draws = s.draws

theorem busWord_zero_of_high {w : Width} {v : Word} (h : ∀ j, w.bits ≤ j → j < 32 → v.getLsbD j = false) :
    busWord w v = v := by
  apply BitVec.eq_of_getLsbD_eq
  intro j hj
  rw [busWord_getLsbD]
  by_cases hb : j < w.bits
  · simp [hb]
  · simp [h j (by omega) hj]

/-- The sample that `senseWord` assembles from an empty buffer. -/
theorem State.senseWord_sampled (w : Width) {s : State} (h0 : s.sample = 0) :
    Sampled w [(s.senseWord w.bits).sample] s (s.senseWord w.bits).deliver := by
  have hw := width_bits_le w
  have hfit : busWord w (s.senseWord w.bits).sample = (s.senseWord w.bits).sample :=
    busWord_zero_of_high fun j hj hj' => by
      rw [State.senseWord_high _ _ _ hj hj', h0]; simp
  refine ⟨by simp [(State.senseWord_frame w.bits s).1], by simpa using hfit, rfl, ?_⟩
  intro ws rest hlen hl
  obtain ⟨v, rfl⟩ : ∃ v, ws = [v] := by
    rcases ws with _ | ⟨v, _ | ⟨u, ws⟩⟩ <;> simp at hlen
    exact ⟨v, rfl⟩
  obtain ⟨h1, h2, h3⟩ := State.senseWord_levels w.bits v rest (by omega) (by simpa [levelsOf] using hl)
  refine ⟨?_, by simpa using h2, by simpa using h3⟩
  rw [List.map_singleton, ← hfit, busWord_congr h1]

theorem Sampled.nil (w : Width) {s : State} (h0 : s.sample = 0) : Sampled w [] s s :=
  ⟨by simp, by simp, h0, fun ws rest hlen hl => by
    obtain rfl : ws = [] := List.length_eq_zero_iff.mp (by simpa using hlen)
    exact ⟨rfl, by simpa [levelsOf] using hl, rfl⟩⟩

theorem Sampled.trans {w : Width} {v : Word} {vs : List Word} {s t u : State} (h : Sampled w [v] s t)
    (k : Sampled w vs t u) : Sampled w (v :: vs) s u := by
  refine ⟨by rw [k.words, h.words, List.append_assoc]; rfl, ?_, k.sample, ?_⟩
  · intro x hx
    rcases List.mem_cons.mp hx with rfl | hx
    · exact h.fit _ (by simp)
    · exact k.fit x hx
  · intro ws rest hlen hl
    rcases ws with _ | ⟨x, ws⟩
    · simp at hlen
    · obtain ⟨h1, h2, h3⟩ := h.driven [x] (levelsOf w.bits ws ++ rest) (by simp) (by
        rw [hl]; simp [levelsOf])
      obtain ⟨k1, k2, k3⟩ := k.driven ws rest (by simpa using hlen) h2
      simp only [List.map_cons, List.map_nil, List.cons.injEq, and_true] at h1
      exact ⟨by rw [List.map_cons, ← h1, ← k1], k2, k3.trans h3⟩

/-- `Sampled` looks only at the inputs and the read buffer. -/
theorem Sampled.congr {w : Width} {vs : List Word} {s t s' t' : State} (h : Sampled w vs s t)
    (h1 : s'.rdWords = s.rdWords) (h2 : s'.levels = s.levels) (h3 : s'.draws = s.draws)
    (k1 : t'.rdWords = t.rdWords) (k2 : t'.levels = t.levels) (k3 : t'.draws = t.draws)
    (k4 : t'.sample = t.sample) : Sampled w vs s' t' :=
  ⟨by rw [k1, h1, h.words], h.fit, by rw [k4, h.sample], fun ws rest hl hs => by
    obtain ⟨a, b, c⟩ := h.driven ws rest hl (by rw [← h2, hs])
    exact ⟨a, by rw [k2, b], by rw [k3, h3, c]⟩⟩

/-- Samples on a parallel bus, one pulse each. -/
theorem applyOps_samples (k : Nat) {s : State} (h0 : s.sample = 0) (hr : s.rdx = true) :
    let t := applyOps (List.replicate k (readSample s.cfg.width.bits)).flatten s
    ∃ samples, samples.length = k ∧ Sampled s.cfg.width samples s t ∧ ReadFrame s t ∧ t.ddir = s.ddir ∧
      t.cs = s.cs ∧ t.wrx = s.wrx ∧ t.dcx = s.dcx ∧ t.rdx = true ∧
      t.events = s.events ++ sampleEvents s.cfg.width.bits samples := by
  induction k generalizing s with
  | zero => exact ⟨[], rfl, .nil _ h0, .refl s, rfl, rfl, rfl, rfl, hr, by simp [sampleEvents]⟩
  | succ k ih =>
    intro t
    have hw := width_bits_le s.cfg.width
    let r0 := (MicroOp.set .rdx false).effect s
    let r1 := applyOps ((List.range s.cfg.width.bits).map .get) r0
    let r2 := ((MicroOp.set .rdx true).effect r1).deliver
    have ht : t = applyOps (List.replicate k (readSample s.cfg.width.bits)).flatten r2 := by
      simp only [t, List.replicate_succ, List.flatten_cons, applyOps_append, readSample, applyOps_cons, applyOps_nil,
        List.cons_append]
      rfl
    obtain ⟨g1, g2, g3, g4, g5, g6, g7⟩ := applyOps_gets s.cfg.width.bits (by omega) r0
    have hc2 : r2.cfg = s.cfg := by
      change r1.cfg = s.cfg
      rw [show r1.cfg = r0.cfg from applyOps_cfg _ _]
      rfl
    obtain ⟨samples, hl, hS, hF, f1, f2, f3, f4, f5, f6⟩ := ih (s := r2) rfl rfl
    rw [hc2] at hS f6 hF f1 f2 f3 f4 f5
    rw [← ht] at hS hF f1 f2 f3 f4 f5 f6
    have hone := State.senseWord_sampled s.cfg.width (s := r0) h0
    have hfirst : Sampled s.cfg.width [r1.sample] s r2 := by
      rw [g4]
      exact hone.congr rfl rfl rfl (by
        change r1.rdWords ++ [r1.sample] = _
        rw [g3, g4, State.deliver_rdWords, (State.senseWord_frame _ r0).1]) g5 g6 rfl
    have hlines : r1.lines = r0.lines := g1
    have e1 : r2.dout = s.dout := congrArg Lines.dout hlines
    have e2 : r2.resx = s.resx := congrArg Lines.resx hlines
    have e3 : r2.captured = s.captured := congrArg Lines.captured hlines
    have e4 : r2.ghost = s.ghost := g2
    have e5 : r2.ddir = s.ddir := congrArg Lines.ddir hlines
    have e6 : r2.cs = s.cs := congrArg Lines.cs hlines
    have e7 : r2.wrx = s.wrx := congrArg Lines.wrx hlines
    have e8 : r2.dcx = s.dcx := congrArg Lines.dcx hlines
    refine ⟨r1.sample :: samples, by simp [hl], hfirst.trans hS, ReadFrame.trans ⟨e1, e2, e3, e4⟩ hF, f1.trans e5,
      f2.trans e6, f3.trans e7, f4.trans e8, f5, ?_⟩
    rw [f6]
    have he : r2.events = r1.events ++ [.set .rdx true] := by simp [r2, State.events, MicroOp.effect]
    have he0 : r0.events = s.events ++ [.set .rdx false] := by simp [r0, State.events, MicroOp.effect]
    rw [he, show r1.events = _ from g7, he0]
    simp [sampleEvents, r1, List.append_assoc]

theorem readOps_faultCalls (c : Config) (k : Nat) : faultCalls (readOps c k) = readCost c k := by
  cases hs : c.isSerial
  · have hmap : ∀ (f : Nat → MicroOp) (n : Nat), (∀ i, (f i).mayFault = true) →
        faultCalls ((List.range n).map f) = n := by
      intro f n hf
      simp [faultCalls, List.countP_map, Function.comp_def, hf]
    have hsample : faultCalls (readSample c.width.bits) = c.width.bits + 2 := by
      simp [readSample, faultCalls_cons, faultCalls_append, hmap MicroOp.get _ (fun _ => rfl), MicroOp.mayFault]
      omega
    have hflat : faultCalls (List.replicate k (readSample c.width.bits)).flatten = k * (c.width.bits + 2) := by
      induction k with
      | zero => simp
      | succ k ih => rw [List.replicate_succ, List.flatten_cons, faultCalls_append, ih, hsample, Nat.add_mul]; omega
    simp only [readOps, hs, readSamples, openRead, closeRead, Bool.false_eq_true, if_false, faultCalls_cons,
      faultCalls_append, hflat, readCost, hmap (fun i => MicroOp.mode i .input) _ (fun _ => rfl)]
    simp [MicroOp.mayFault]
    omega
  · simp [readOps, hs, readCost, faultCalls, MicroOp.mayFault]

/-- The data pins become inputs (R106). -/
theorem applyOps_inputs (n : Nat) (s : State) :
    let t := applyOps ((List.range n).map fun i => .mode i .input) s
    SameLines s t ∧ SameInputs s t ∧ t.dout = s.dout ∧
      (∀ j < 32, t.ddir.getLsbD j = if j < n then false else s.ddir.getLsbD j) := by
  induction n with
  | zero => exact ⟨.refl s, .refl s, rfl, by simp⟩
  | succ n ih =>
    intro t
    have ht : t = (MicroOp.mode n .input).effect (applyOps ((List.range n).map fun i => .mode i .input) s) := by
      simp only [t, List.range_succ, List.map_append, applyOps_append]
      rfl
    obtain ⟨h1, h2, h3, h4⟩ := ih
    rw [ht]
    generalize applyOps ((List.range n).map fun i => .mode i .input) s = r at *
    refine ⟨h1.trans (by constructor <;> rfl), h2.trans (by constructor <;> rfl), h3, fun j hj => ?_⟩
    change (setBit r.ddir n false).getLsbD j = _
    rw [setBit_getLsbD _ _ _ _ hj, h4 j hj]
    split <;> rename_i h
    · subst h; simp
    · rw [if_congr (by omega : j < n ↔ j < n + 1) rfl rfl]

/-- The opening of a read transaction on a settled bus (R106). -/
theorem applyOps_openRead {s : State} (h : s.Settled) (hp : s.cfg.isSerial = false) :
    let t := applyOps (openRead s.cfg.width.bits) s
    ReadFrame s t ∧ SameInputs s t ∧ t.draws = s.draws ∧ t.cs = false ∧ t.wrx = true ∧ t.rdx = true ∧ t.dcx = true ∧
      busWord s.cfg.width t.ddir = 0 ∧
      t.events = s.events ++ [.set .rdx true, .set .wrx true, .set .cs false, .set .dcx true]
        ++ (List.range s.cfg.width.bits).map (fun i => .mode i .input) := by
  intro t
  have hw := width_bits_le s.cfg.width
  have hrise := h.noCapture hp
  have hev := applyOps_events (ops := openRead s.cfg.width.bits) (by
    intro op ho
    simp only [openRead, List.mem_append, List.mem_cons, List.not_mem_nil, or_false, List.mem_map] at ho
    rcases ho with (rfl | rfl | rfl | rfl) | ⟨i, _, rfl⟩ <;> rfl) s
  let r : State := applyOps [.set .rdx true, .set .wrx true, .set .cs false, .set .dcx true] s
  have hr : r = { s with rdx := true, wrx := true, cs := false, dcx := true, trace := r.trace, seq := r.seq } := by
    simp only [r, applyOps_cons, applyOps_nil, MicroOp.effect, State.setPin, State.emit]
    simp only [hrise, Bool.false_eq_true, if_false]
  have ht : t = applyOps ((List.range s.cfg.width.bits).map fun i => .mode i .input) r := by
    simp only [t, openRead, applyOps_append, r]
  obtain ⟨h1, h2, h3, h4⟩ := applyOps_inputs s.cfg.width.bits r
  rw [← ht] at h1 h2 h3 h4
  refine ⟨⟨h3.trans (by rw [hr]), h1.resx.trans (by rw [hr]), h1.captured.trans (by rw [hr]),
    h1.ghost.trans (by rw [hr])⟩, SameInputs.trans (by rw [hr]; constructor <;> rfl) h2, h1.draws.trans (by rw [hr]),
    h1.cs.trans (by rw [hr]), h1.wrx.trans (by rw [hr]), h1.rdx.trans (by rw [hr]), h1.dcx.trans (by rw [hr]), ?_, ?_⟩
  · apply BitVec.eq_of_getLsbD_eq
    intro j hj
    rw [busWord_getLsbD]
    by_cases hb : j < s.cfg.width.bits
    · rw [h4 j hj, if_pos hb]; simp
    · simp [hb]
  · rw [show t.events = _ from hev]
    simp [openRead, MicroOp.event, List.flatMap_map, ← List.map_eq_flatMap]

/-- The lines after a read transaction that ended well (R106). -/
structure AfterRead (t : State) : Prop where
  cs : t.cs = true
  wrx : t.wrx = true
  rdx : t.rdx = true
  dcx : t.dcx = false
  ddir : busWord t.cfg.width t.ddir = 0

theorem senseSamples_sampled (k : Nat) {s : State} (h0 : s.sample = 0) :
    ∃ samples, samples.length = k ∧ Sampled s.cfg.width samples s (s.senseSamples s.cfg.width.bits k) ∧
      (s.senseSamples s.cfg.width.bits k).lines = s.lines ∧
      (s.senseSamples s.cfg.width.bits k).ghost = s.ghost := by
  induction k generalizing s with
  | zero => exact ⟨[], rfl, .nil _ h0, rfl, rfl⟩
  | succ k ih =>
    obtain ⟨h1, h2, h3, h4⟩ := State.senseWord_frame s.cfg.width.bits s
    have hc : (s.senseWord s.cfg.width.bits).deliver.cfg = s.cfg := by
      simpa using (State.senseWord_sameCore s.cfg.width.bits s).1.cfg
    obtain ⟨samples, hl, hS, hL, hG⟩ := ih (s := (s.senseWord s.cfg.width.bits).deliver) rfl
    rw [hc] at hS hL hG
    exact ⟨_, by simp [hl], (State.senseWord_sampled s.cfg.width h0).trans hS, hL.trans h3, hG.trans h4⟩

/-- The effects of a read transaction of `k` samples on a settled bus: the events of R106, the samples as the device
drives them, the lines of R106, and nothing else. -/
theorem applyOps_readOps (k : Nat) {s : State} (hs : s.Settled) :
    ∃ samples, samples.length = k ∧ Sampled s.cfg.width samples s.clearSamples (applyOps (readOps s.cfg k) s) ∧
      ReadFrame s (applyOps (readOps s.cfg k) s) ∧ (applyOps (readOps s.cfg k) s).Settled ∧
      (applyOps (readOps s.cfg k) s).events = s.events ++ readEvents s.cfg samples ∧
      (s.cfg.isSerial = false → AfterRead (applyOps (readOps s.cfg k) s)) := by
  cases hser : s.cfg.isSerial
  · have hops : applyOps (readOps s.cfg k) s = applyOps closeRead (applyOps
        (List.replicate k (readSample s.cfg.width.bits)).flatten (applyOps (openRead s.cfg.width.bits) s.clearSamples)) := by
      simp only [readOps, hser, readSamples, Bool.false_eq_true, if_false, applyOps_cons, applyOps_append]
      rfl
    rw [hops]
    obtain ⟨o1, o2, o3, o4, o5, o6, o7, o8, o9⟩ := applyOps_openRead (s := s.clearSamples) hs hser
    have hc1 : (applyOps (openRead s.cfg.width.bits) s.clearSamples).cfg = s.cfg := applyOps_cfg _ _
    simp only [State.clearSamples_cfg] at o1 o2 o3 o4 o5 o6 o7 o8 o9
    generalize applyOps (openRead s.cfg.width.bits) s.clearSamples = r1 at *
    obtain ⟨samples, l0, l1, l2, l3, l4, l5, l6, l7, l8⟩ := applyOps_samples k (s := r1) o2.sample o6
    rw [hc1] at l1 l2 l3 l4 l5 l6 l7 l8
    have hc2 : (applyOps (List.replicate k (readSample s.cfg.width.bits)).flatten r1).cfg = s.cfg := by
      rw [applyOps_cfg, hc1]
    generalize applyOps (List.replicate k (readSample s.cfg.width.bits)).flatten r1 = r2 at *
    have e : applyOps closeRead r2 = { r2 with dcx := false, rdx := true, cs := true, trace := .set .cs true :: .set .rdx true :: .set .dcx false :: r2.trace, seq := (applyOps closeRead r2).seq } := rfl
    rw [e]
    refine ⟨samples, l0, l1.congr o2.rdWords.symm o2.levels.symm o3.symm rfl rfl rfl rfl,
      ⟨l2.dout.trans o1.dout, l2.resx.trans o1.resx, l2.captured.trans o1.captured, l2.ghost.trans o1.ghost⟩,
      State.settled_of_cs rfl, ?_,
      fun _ => ⟨rfl, l5.trans o5, rfl, rfl, ?_⟩⟩
    · have : ({ r2 with dcx := false, rdx := true, cs := true, trace := .set .cs true :: .set .rdx true :: .set .dcx false :: r2.trace, seq := (applyOps closeRead r2).seq } : State).events = r2.events ++ [.set .dcx false, .set .rdx true, .set .cs true] := by
        simp [State.events]
      rw [this, l8, o9]
      have : s.clearSamples.events = s.events := rfl
      rw [this]
      simp [readEvents, hser, sampleEvents, List.append_assoc]
    · change busWord r2.cfg.width r2.ddir = 0
      rw [hc2, l3, o8]
  · have hops : applyOps (readOps s.cfg k) s = (MicroOp.serialRead k).effect s.clearSamples := by
      simp only [readOps, hser, if_true, applyOps_cons, applyOps_nil]
      rfl
    rw [hops]
    obtain ⟨samples, l0, l1, l2, l3⟩ := senseSamples_sampled k (s := s.clearSamples) rfl
    simp only [State.clearSamples_cfg] at l1 l2 l3
    have htr := State.senseSamples_trace s.cfg.width.bits k s.clearSamples
    refine ⟨samples, l0, l1.congr rfl rfl rfl rfl rfl rfl rfl,
      ⟨congrArg Lines.dout l2, congrArg Lines.resx l2, congrArg Lines.captured l2, l3⟩, ?_, ?_, by simp⟩
    · refine State.settled_of_serial ?_
      rw [MicroOp.effect_cfg]
      exact hser
    · have hw := l1.words
      simp only [State.clearSamples_rdWords, List.nil_append] at hw
      simp [MicroOp.effect, State.events, htr, readEvents, hser, hw]

/-- One read transaction of `k` samples in which nothing faults, on a settled bus: the events of R106, the samples as
the device drives them, the lines of R106, and nothing else. -/
theorem busRead_quiet (k : Nat) {s : State} (hs : s.Settled)
    (hv : s.cfg.isSerial = true ∨ s.cfg.pinVariant = .bidirectional) (hq : s.quietFor (readCost s.cfg k)) :
    ∃ t samples, busRead k s = .going t ∧ samples.length = k ∧ SameCore s t ∧ t.rdWords = samples ∧
      (∀ v ∈ samples, busWord s.cfg.width v = v) ∧ ReadFrame s t ∧ t.Settled ∧
      t.faults = spendFaults (readCost s.cfg k) s.faults ∧ t.events = s.events ++ readEvents s.cfg samples ∧
      (∀ ws rest, ws.length = k → s.levels = levelsOf s.cfg.width.bits ws ++ rest →
        samples = ws.map (busWord s.cfg.width) ∧ t.levels = rest) ∧
      (s.cfg.isSerial = false → AfterRead t) := by
  have hvar : s.cfg.pinVariant = .bidirectional ∨ ∀ op ∈ readOps s.cfg k, op.wantsInput = false := by
    rcases hv with hv | hv
    · right
      intro op ho
      simp only [readOps, hv, if_true, List.mem_cons, List.not_mem_nil, or_false] at ho
      rcases ho with rfl | rfl <;> rfl
    · exact .inl hv
  have hrun := runOps_quiet .busReadError _ s ((readOps_faultCalls s.cfg k).symm ▸ hq) hvar
  rw [readOps_faultCalls] at hrun
  have hcore := (applyOps_sameCore (readOps s.cfg k) s).1
  obtain ⟨samples, m1, m2, m3, m4, m5, m6⟩ := applyOps_readOps k hs
  refine ⟨_, samples, hrun, m1, hcore.trans (.withFaults _ _), m2.words, m2.fit,
    m3.trans ⟨rfl, rfl, rfl, rfl⟩, m4, rfl, m5, ?_, fun h => ⟨(m6 h).cs, (m6 h).wrx, (m6 h).rdx, (m6 h).dcx, (m6 h).ddir⟩⟩
  intro ws rest hl hlev
  obtain ⟨a, b, _⟩ := m2.driven ws rest (by rw [hl, m1]) hlev
  exact ⟨a, b⟩

end Sys2Proof.Machine
end

