-- ==== Sys2Proof/Laws/Encoder.lean ====
section
/-! SUPPORT. The words of the pixel encoder fit the bus. -/

namespace Sys2Proof.Machine

/-- The words have no bit at or above bit `n`. -/
def Below (n : Nat) (ws : List Word) : Prop := ∀ v ∈ ws, ∀ j, n ≤ j → j < 32 → v.getLsbD j = false

theorem Below.append {n : Nat} {a b : List Word} (ha : Below n a) (hb : Below n b) : Below n (a ++ b) :=
  fun v hv => (List.mem_append.mp hv).elim (ha v) (hb v)

theorem masks_are_ones : (0x07#32 = lowOnes 3) ∧ (0x1F#32 = lowOnes 5) ∧ (0x3F#32 = lowOnes 6) ∧
    (0xFF#32 = lowOnes 8) ∧ (0xE0#32 = lowOnes 3 <<< 5) := by decide

theorem enc565w8_below (pack : Pack565) (p : Pixel) : Below 8 (enc565w8 pack p) := by
  obtain ⟨m1, m2, m3, m4, m5⟩ := masks_are_ones
  cases pack <;> simp only [Below, enc565w8, List.forall_mem_cons, m1, m2, m5, BitVec.getLsbD_or, BitVec.getLsbD_and,
    BitVec.getLsbD_shiftLeft, lowOnes_getLsbD] <;>
  refine ⟨fun j hj hj' => ?_, fun j hj hj' => ?_, by simp⟩ <;> simp <;> omega

theorem enc565w16_below (pack : Pack565) (p : Pixel) : Below 16 (enc565w16 pack p) := by
  obtain ⟨m1, m2, m3, m4, m5⟩ := masks_are_ones
  cases pack <;> simp only [Below, enc565w16, List.forall_mem_cons, m2, m3, BitVec.getLsbD_or, BitVec.getLsbD_and,
    BitVec.getLsbD_shiftLeft, lowOnes_getLsbD] <;>
  refine ⟨fun j hj hj' => ?_, by simp⟩ <;> simp <;> omega

theorem enc666w8_below (p : Pixel) : Below 8 (enc666w8 p) := by
  obtain ⟨m1, m2, m3, m4, m5⟩ := masks_are_ones
  simp only [Below, enc666w8, List.forall_mem_cons, m4, BitVec.getLsbD_and, lowOnes_getLsbD]
  refine ⟨fun j hj hj' => ?_, fun j hj hj' => ?_, fun j hj hj' => ?_, by simp⟩ <;> simp <;> omega

theorem enc666w16Pair_below (p q : Pixel) : Below 16 (enc666w16Pair p q) := by
  obtain ⟨m1, m2, m3, m4, m5⟩ := masks_are_ones
  simp only [Below, enc666w16Pair, List.forall_mem_cons, m3, BitVec.getLsbD_or, BitVec.getLsbD_and,
    BitVec.getLsbD_shiftLeft, lowOnes_getLsbD]
  refine ⟨fun j hj hj' => ?_, fun j hj hj' => ?_, fun j hj hj' => ?_, by simp⟩ <;> simp <;> omega

theorem enc666w16_below (p : Pixel) : Below 16 (enc666w16 p) := by
  obtain ⟨m1, m2, m3, m4, m5⟩ := masks_are_ones
  simp only [Below, enc666w16, List.forall_mem_cons, m3, BitVec.getLsbD_or, BitVec.getLsbD_and,
    BitVec.getLsbD_shiftLeft, lowOnes_getLsbD]
  refine ⟨fun j hj hj' => ?_, fun j hj hj' => ?_, by simp⟩ <;> simp <;> omega

theorem enc666w18_below (p : Pixel) : Below 18 (enc666w18 p) := by
  obtain ⟨m1, m2, m3, m4, m5⟩ := masks_are_ones
  simp only [Below, enc666w18, List.forall_mem_cons, m3, BitVec.getLsbD_or, BitVec.getLsbD_and,
    BitVec.getLsbD_shiftLeft, lowOnes_getLsbD]
  refine ⟨fun j hj hj' => ?_, by simp⟩
  simp
  omega

/-- Every word of the encoder fits the bus (R7, R133). -/
theorem encodePixels_below {pack : Pack565} {fmt : PixFmt} {w : Width} {p1 : Pixel} {p2 : Option Pixel}
    {ws : List Word} (h : encodePixels pack fmt w p1 p2 = some ws) : Below w.bits ws := by
  cases p2 <;> cases fmt <;> cases w <;>
    simp only [encodePixels, encodeOne, encodeTwo, reduceCtorEq, Option.some.injEq] at h <;> subst h
  · exact enc565w8_below _ _
  · exact enc565w16_below _ _
  · exact enc666w8_below _
  · exact enc666w16_below _
  · exact enc666w18_below _
  · exact (enc565w8_below _ _).append (enc565w8_below _ _)
  · exact (enc565w16_below _ _).append (enc565w16_below _ _)
  · exact (enc666w8_below _).append (enc666w8_below _)
  · exact enc666w16Pair_below _ _
  · exact (enc666w18_below _).append (enc666w18_below _)

theorem encodePixels_fits {pack : Pack565} {fmt : PixFmt} {w : Width} {p1 : Pixel} {p2 : Option Pixel}
    {ws : List Word} (h : encodePixels pack fmt w p1 p2 = some ws) : ∀ v ∈ ws, busWord w v = v :=
  fun v hv => busWord_zero_of_high (encodePixels_below h v hv)

end Sys2Proof.Machine
end

