-- ==== Sys2Proof/Laws/Frames.lean ====
section
/-! SUPPORT. What holds of a request however it ends: properties that its micro-operations keep are kept by the whole of
it, and the errors it can raise. -/

namespace Sys2Proof.Machine

/-! ## Properties that micro-operations keep -/

/-- The micro-operation names a data pin of the bus, and asks only a bidirectional pin to become an input. -/
def MicroOp.fits (c : Config) : MicroOp → Bool
  | .mode i dir => decide (i < c.width.bits) && (dir == .output || c.pinVariant == .bidirectional)
  | .set (.d i) _ => decide (i < c.width.bits)
  | .get i => decide (i < c.width.bits)
  | _ => true

/-- The data pin that the micro-operation names is one of the bus. -/
def MicroOp.indexFits (bits : Nat) : MicroOp → Bool
  | .mode i _ => decide (i < bits)
  | .set (.d i) _ => decide (i < bits)
  | .get i => decide (i < bits)
  | _ => true

/-- The micro-operation does not set the reset pin. -/
def MicroOp.notReset : MicroOp → Bool
  | .set .resx _ => false
  | _ => true

/-- The micro-operation belongs to a write transaction. -/
def MicroOp.isWrite (op : MicroOp) : Bool := op.readsNothing && op.notReset && !op.wantsInput

/-- A property that the micro-operations of a kind, the schedule of faults and the monitor's note on a failed format
command leave alone. -/
structure Closed (kind : MicroOp → Bool) (P : State → Prop) : Prop where
  faults : ∀ s f, P s → P (s.withFaults f)
  effect : ∀ s op, kind op = true → op.fits s.cfg = true → P s → P (op.effect s)
  lost : ∀ s, P s → P s.noteFormatLost

theorem Closed.weaken {a b : MicroOp → Bool} {P : State → Prop} (h : Closed a P) (hab : ∀ op, b op = true → a op = true) :
    Closed b P := ⟨h.faults, fun s op hb hf hp => h.effect s op (hab op hb) hf hp, h.lost⟩

theorem MicroOp.fits_of_index {c : Config} {op : MicroOp} (h : op.indexFits c.width.bits = true)
    (hw : (op.wantsInput && c.pinVariant == .outputOnly) = false) : op.fits c = true := by
  cases op with
  | mode i dir =>
    rcases hv : c.pinVariant <;> cases dir <;> simp_all [MicroOp.indexFits, MicroOp.fits, MicroOp.wantsInput]
  | set p v => cases p <;> simp_all [MicroOp.indexFits, MicroOp.fits]
  | get i => simp_all [MicroOp.indexFits, MicroOp.fits]
  | _ => rfl

theorem runOps_closed {kind : MicroOp → Bool} {P : State → Prop} (C : Closed kind P) (err : Status) (ops : List MicroOp)
    {s : State} (ho : ∀ op ∈ ops, kind op = true ∧ op.indexFits s.cfg.width.bits = true) (h : P s) :
    P (runOps err ops s).state := by
  induction ops generalizing s with
  | nil => exact h
  | cons op ops ih =>
    obtain ⟨hk, hi⟩ := ho op List.mem_cons_self
    rcases op.perform_cases err s with ⟨f, hp, hw⟩ | ⟨f, hp, _⟩ | ⟨hp, _⟩
    · rw [runOps, hp]
      refine ih (fun o m => ?_) (C.effect _ op hk (MicroOp.fits_of_index hi hw) (C.faults s f h))
      simpa using ho o (List.mem_cons_of_mem _ m)
    · rw [runOps, hp]
      exact C.faults s f h
    · rw [runOps, hp]
      exact h

theorem sendWord_kind (bits : Nat) (kv : Mark × Word) :
    ∀ op ∈ sendWord bits kv, op.isWrite = true ∧ op.indexFits bits = true := by
  intro op h
  simp only [sendWord, driveWord, List.mem_cons, List.mem_append, List.mem_flatMap, List.mem_range,
    List.not_mem_nil, or_false] at h
  rcases h with rfl | ⟨i, hi, rfl | rfl⟩ | rfl | rfl <;> first | exact ⟨rfl, rfl⟩ | exact ⟨rfl, by simpa [MicroOp.indexFits]⟩

theorem writeWords_kind (bits : Nat) (m : Mode) (burst : List (Mark × Word)) :
    ∀ op ∈ writeWords bits m burst, op.isWrite = true ∧ op.indexFits bits = true := by
  intro op h
  simp only [writeWords, openWrite, List.mem_append, List.mem_cons, List.mem_flatMap, List.not_mem_nil, or_false] at h
  rcases h with (rfl | rfl | rfl | rfl) | ⟨kv, _, h⟩
  · exact ⟨rfl, rfl⟩
  · exact ⟨rfl, rfl⟩
  · exact ⟨rfl, rfl⟩
  · exact ⟨rfl, rfl⟩
  · exact sendWord_kind bits kv op h

theorem writeOps_kind (c : Config) (m : Mode) (burst : List (Mark × Word)) :
    ∀ op ∈ writeOps c m burst, op.isWrite = true ∧ op.indexFits c.width.bits = true := by
  intro op h
  unfold writeOps at h
  split at h
  · simp at h
  · split at h
    · rw [List.mem_singleton] at h
      subst h
      exact ⟨rfl, rfl⟩
    · rcases List.mem_append.mp h with h | h
      · exact writeWords_kind _ _ _ op h
      · simp only [closeWrite, List.mem_cons, List.not_mem_nil, or_false] at h
        rcases h with rfl | rfl | rfl <;> exact ⟨rfl, rfl⟩

theorem readSamples_kind (bits k : Nat) :
    ∀ op ∈ readSamples bits k, op.notReset = true ∧ op.indexFits bits = true := by
  intro op h
  simp only [readSamples, openRead, readSample, List.mem_append, List.mem_cons, List.mem_map, List.mem_range,
    List.mem_flatten, List.mem_replicate, List.not_mem_nil, or_false] at h
  rcases h with ((rfl | rfl | rfl | rfl) | ⟨i, hi, rfl⟩) | ⟨l, ⟨_, rfl⟩, h⟩
  · exact ⟨rfl, rfl⟩
  · exact ⟨rfl, rfl⟩
  · exact ⟨rfl, rfl⟩
  · exact ⟨rfl, rfl⟩
  · exact ⟨rfl, by simpa [MicroOp.indexFits]⟩
  · simp only [List.mem_cons, List.mem_append, List.mem_map, List.mem_range, List.not_mem_nil, or_false] at h
    rcases h with rfl | ⟨i, hi, rfl⟩ | rfl | rfl <;> first | exact ⟨rfl, rfl⟩ | exact ⟨rfl, by simpa [MicroOp.indexFits]⟩

theorem readOps_kind (c : Config) (k : Nat) :
    ∀ op ∈ readOps c k, op.notReset = true ∧ op.indexFits c.width.bits = true := by
  intro op h
  rw [readOps, List.mem_cons] at h
  rcases h with rfl | h
  · exact ⟨rfl, rfl⟩
  · split at h
    · rw [List.mem_singleton] at h
      subst h
      exact ⟨rfl, rfl⟩
    · rcases List.mem_append.mp h with h | h
      · exact readSamples_kind _ _ op h
      · simp only [closeRead, List.mem_cons, List.not_mem_nil, or_false] at h
        rcases h with rfl | rfl | rfl <;> exact ⟨rfl, rfl⟩

section Sequences

variable {P : State → Prop} (C : Closed MicroOp.isWrite P)
include C

theorem busWrite_closed (m : Mode) (burst : List (Mark × Word)) {s : State} (h : P s) : P (busWrite m burst s).state :=
  runOps_closed C _ _ (writeOps_kind s.cfg m burst) h

theorem streamWrite_closed (m : Mode) (n : Nat) (elems : List Word) {s : State} (h : P s) :
    P (streamWrite m n elems s).state := by
  unfold streamWrite
  split
  · exact busWrite_closed C _ _ h
  · refine Progress.bind_keeps (runOps_closed C _ _ ?_ h) fun t ht => ht
    split
    · simp
    · exact writeWords_kind _ _ _

theorem noteLost_closed (opc : Byte) {p : Progress} (h : P p.state) : P (noteLost opc p).state := by
  cases p with
  | raised e s =>
    simp only [noteLost, Progress.state_raised]
    split
    · exact C.lost s h
    · exact h
  | _ => exact h

theorem sendCommand_closed (opc : Byte) (n : Nat) (elems : List Word) {s : State} (h : P s) :
    P (sendCommand opc n elems s).state :=
  noteLost_closed C opc (Progress.bind_keeps (busWrite_closed C _ _ h) fun _ ht => streamWrite_closed C _ _ _ ht)

theorem sendWire_closed (opc : Byte) (params : List Byte) {s : State} (h : P s) : P (sendWire opc params s).state :=
  sendCommand_closed C _ _ _ h

theorem setWindow_closed (c0 c1 p0 p1 : Coord) {s : State} (h : P s) : P (setWindow c0 c1 p0 p1 s).state :=
  Progress.bind_keeps (sendWire_closed C _ _ h) fun _ ht => sendWire_closed C _ _ ht

theorem window_closed (c0 c1 p0 p1 : Coord) {s : State} (h : P s) :
    P ((setWindow c0 c1 p0 p1 s).bind (sendWire 0x2C [])).state :=
  Progress.bind_keeps (setWindow_closed C _ _ _ _ h) fun _ ht => sendWire_closed C _ _ ht

theorem writePixelsOp_closed (p1 : Pixel) (p2 : Option Pixel) {s : State} (h : P s) : P (writePixelsOp p1 p2 s).state := by
  unfold writePixelsOp
  split
  · exact h
  · exact busWrite_closed C _ _ h

theorem fillPixels_closed (p1 : Pixel) (n : Nat) {s : State} (h : P s) : P (fillPixels p1 n s).state := by
  refine Progress.bind_keeps (repeatOp_keeps (fun t ht => writePixelsOp_closed C _ _ ht) _ h) fun t ht => ?_
  split
  · exact writePixelsOp_closed C _ _ ht
  · exact ht

theorem fillRectangle_closed (x y w h : Coord) (p1 : Pixel) {s : State} (hs : P s) :
    P (fillRectangle x y w h p1 s).state :=
  Progress.bind_keeps (window_closed C _ _ _ _ hs) fun _ ht => fillPixels_closed C _ _ ht

/-- WRITE_REPEATED_PIXEL writes `ENC` before its transaction (R129). -/
theorem repeatPixelOp_closed (p1 : Pixel) (n : Nat) {s : State} (h : P s)
    (he : ∀ ws, encodePixels s.cfg.pack565 s.pixFmt s.cfg.width p1 none = some ws → P { s with enc := ws }) :
    P (repeatPixelOp p1 n s).state := by
  unfold repeatPixelOp
  split
  · exact h
  · rename_i ws hw
    exact busWrite_closed C _ _ (he ws hw)

/-- The format command writes `PIXFMT` at its end (R146). -/
theorem setFormat_closed (fmt : BitVec 3) {s : State} (h : P s) (hp : ∀ t tag, P t → P { t with pixFmt := tag }) :
    P (setFormat fmt s).state := by
  unfold setFormat
  split
  · exact h
  · exact Progress.bind_keeps (sendWire_closed C _ _ h) fun t ht => hp t _ ht

end Sequences

theorem busRead_closed {P : State → Prop} (C : Closed MicroOp.notReset P) (k : Nat) {s : State} (h : P s) :
    P (busRead k s).state :=
  runOps_closed C _ _ (readOps_kind s.cfg k) h

theorem streamRead_closed {P : State → Prop} (C : Closed MicroOp.notReset P) (answers : List Bool) {s : State} (h : P s) :
    P (streamRead answers s).state := by
  unfold streamRead
  split
  · exact busRead_closed C _ h
  · refine Progress.bind_keeps (runOps_closed C _ _ ?_ h) fun t ht => ht
    intro op ho
    rw [List.mem_cons] at ho
    rcases ho with rfl | ho
    · exact ⟨rfl, rfl⟩
    · split at ho
      · simp at ho
      · exact readSamples_kind _ _ op ho

theorem MicroOp.notReset_of_isWrite (op : MicroOp) (h : op.isWrite = true) : op.notReset = true := by
  simp only [MicroOp.isWrite, Bool.and_eq_true] at h
  exact h.1.2

theorem MicroOp.readsNothing_of_isWrite (op : MicroOp) (h : op.isWrite = true) :
    (op.readsNothing && !op.wantsInput) = true := by
  simp only [MicroOp.isWrite, Bool.and_eq_true] at h
  simp [h.1.1, h.2]

/-! ## A property of the whole request -/

/-- The micro-operations that a request performs. -/
def kindOf : Instr → MicroOp → Bool
  | .init _ => fun op => op.readsNothing && !op.wantsInput
  | .readCommand _ _ => MicroOp.notReset
  | .busRead => MicroOp.notReset
  | _ => MicroOp.isWrite

/-- The request tells the device a pixel format and stores it. -/
def writesFormat : Instr → Bool
  | .init _ => true
  | .setPixelFormat _ => true
  | _ => false

/-- The request reads. -/
def isRead : Instr → Bool
  | .readCommand _ _ => true
  | .busRead => true
  | _ => false

/-- The request is WRITE_REPEATED_PIXEL. -/
def isRepeat : Instr → Bool
  | .writeRepeatedPixel _ _ => true
  | _ => false

theorem kindOf_readsNothing {i : Instr} (hi : isRead i = false) {op : MicroOp} (h : kindOf i op = true) :
    op.readsNothing = true := by
  have hw : op.isWrite = true → op.readsNothing = true := by
    intro h
    simp only [MicroOp.isWrite, Bool.and_eq_true] at h
    exact h.1.1
  cases i with
  | init fmt => exact (Bool.and_eq_true _ _ ▸ h : _ ∧ _).1
  | readCommand opc n => cases hi
  | busRead => cases hi
  | _ => exact hw h

theorem kindOf_notReset {i : Instr} (hi : isInit i = false) {op : MicroOp} (h : kindOf i op = true) :
    op.notReset = true := by
  cases i with
  | init fmt => cases hi
  | readCommand opc n => exact h
  | busRead => exact h
  | _ => exact op.notReset_of_isWrite h

/-- A property that everything this request does leaves alone. -/
structure Invariant (i : Instr) (P : State → Prop) : Prop where
  closed : Closed (kindOf i) P
  pixFmt : writesFormat i = true → ∀ s tag, P s → P { s with pixFmt := tag }
  inited : isInit i = true → ∀ s b, P s → P { s with inited := b }
  deviceReset : isInit i = true → ∀ s, P s → P s.noteDeviceReset
  enc : isRepeat i = true → ∀ s ws, ws.length ≤ 3 → P s → P { s with enc := ws }
  rdWords : isRead i = true → ∀ s ws n, P s → P { s with rdWords := ws, draws := n }

/-- A property that everything any request does leaves alone. -/
theorem Invariant.ofAll {P : State → Prop} (closed : Closed (fun _ => true) P)
    (pixFmt : ∀ s tag, P s → P { s with pixFmt := tag }) (inited : ∀ s b, P s → P { s with inited := b })
    (deviceReset : ∀ s, P s → P s.noteDeviceReset) (enc : ∀ s ws, ws.length ≤ 3 → P s → P { s with enc := ws })
    (rdWords : ∀ s ws n, P s → P { s with rdWords := ws, draws := n }) (i : Instr) : Invariant i P :=
  ⟨closed.weaken fun _ _ => rfl, fun _ => pixFmt, fun _ => inited, fun _ => deviceReset, fun _ => enc, fun _ => rdWords⟩

theorem encodeOne_length {pack : Pack565} {fmt : PixFmt} {w : Width} {p : Pixel} {ws : List Word}
    (h : encodePixels pack fmt w p none = some ws) : ws.length ≤ 3 := by
  cases pack <;> cases fmt <;> cases w <;>
    simp only [encodePixels, encodeOne, reduceCtorEq, Option.some.injEq] at h <;> subst h <;>
    simp [enc565w8, enc565w16, enc666w8, enc666w16, enc666w18]

theorem Progress.settle_keeps {P : State → Prop} (hc : ∀ s st, P s → P (s.complete st)) {p : Progress} (h : P p.state) :
    P p.settle := by
  cases p with
  | going s => exact hc s _ h
  | raised e s => exact hc s _ h
  | stalled s => exact h

theorem loseSamples_keeps {P : State → Prop} (hr : ∀ s ws n, P s → P { s with rdWords := ws, draws := n }) {p : Progress}
    (h : P p.state) : P (loseSamples p).state := by
  cases p with
  | raised e s => exact hr s _ _ h
  | _ => exact h

theorem initialiseDevice_keeps {P : State → Prop} {fmt : BitVec 3} (I : Invariant (.init fmt) P) {s : State} (h : P s) :
    P (initialiseDevice fmt s).state := by
  have Cw : Closed MicroOp.isWrite P := I.closed.weaken fun op h => op.readsNothing_of_isWrite h
  refine Progress.bind_keeps (Progress.bind_keeps ?_ fun t ht => ?_) fun t ht => I.inited rfl t true ht
  · refine runOps_closed I.closed _ _ (fun op ho => ?_) (I.inited rfl s false h)
    simp only [resetPulse, List.mem_cons, List.not_mem_nil, or_false] at ho
    rcases ho with rfl | rfl | rfl | rfl <;> exact ⟨rfl, rfl⟩
  · exact setFormat_closed Cw fmt (I.deviceReset rfl t ht) (I.pixFmt rfl)

/-- The work of a request, once it is accepted with operands that have a meaning. -/
def body : Instr → State → Progress
  | .init fmt, s => initialiseDevice fmt s
  | .writeCommand opc len, s => sendCommand opc len.toNat (s.plWords.map fun v => wordOfByte (byteOfWord v)) s
  | .readCommand opc len, s => loseSamples (readAfterOpcode opc len.toNat s)
  | .setPixelFormat fmt, s => setFormat fmt s
  | .columnAddressSet a0 a1, s => sendWire 0x2A (coordBytes a0 a1) s
  | .pageAddressSet a0 a1, s => sendWire 0x2B (coordBytes a0 a1) s
  | .writePixels p1 p2, s => writePixelsOp p1 p2 s
  | .writeRepeatedPixel p1 len, s => repeatPixelOp p1 len.toNat s
  | .drawPixel x y p1, s => ((setWindow x x y y s).bind (sendWire 0x2C [])).bind (writePixelsOp p1 none)
  | .drawRect x y w h p1, s => fillRectangle x y w h p1 s
  | .clearScreen, s => fillRectangle 0 0 s.cfg.panelW s.cfg.panelH { r := 0, g := 0, b := 0 } s
  | .busWrite mode len, s => streamWrite mode len.toNat (s.plWords.map (busWord s.cfg.width)) s
  | .busRead, s => loseSamples (streamRead s.rdMore s)
  | .cmdNop, s => sendWire 0x00 [] s
  | .cmdSoftwareReset, s => sendWire 0x01 [] s
  | .cmdSleepOut, s => sendWire 0x11 [] s
  | .cmdNormalDisplayMode, s => sendWire 0x13 [] s
  | .cmdDisplayInversionOff, s => sendWire 0x20 [] s
  | .cmdDisplayOn, s => sendWire 0x29 [] s
  | .cmdColumnAddressSet a0 a1, s => sendWire 0x2A (coordBytes a0 a1) s
  | .cmdPageAddressSet a0 a1, s => sendWire 0x2B (coordBytes a0 a1) s
  | .cmdMemoryWrite, s => sendWire 0x2C [] s
  | .cmdMemoryAccessControl mask, s => sendWire 0x36 [mask] s
  | .cmdIdleModeOff, s => sendWire 0x38 [] s
  | .cmdInterfacePixelFormat param, s => sendWire 0x3A [param] s

theorem whenInited_next {s t : State} {f : State → State} (h : whenInited s f = .next t) : t = f s ∧ s.inited = true := by
  unfold whenInited at h
  split at h
  · cases h
    exact ⟨rfl, ‹_›⟩
  · cases h

theorem drawRectangle_next {x y w h : Coord} {p1 : Pixel} {s t : State} (hx : drawRectangle x y w h p1 s = .next t) :
    t = (fillRectangle x y w h p1 s).settle ∧ s.inited = true ∧ emptyRect w h = false ∧
      spanOverflows x w = false ∧ spanOverflows y h = false := by
  unfold drawRectangle at hx
  repeat' split at hx
  all_goals cases hx
  simp_all

/-- A request that answers a next state has done its work. -/
theorem exec_next {i : Instr} {s t : State} (hx : exec i s = .next t) :
    t = (body i s).settle ∧ (s.inited = true ∨ isInit i = true) := by
  have w : ∀ {f : State → State}, whenInited s f = .next t → t = f s ∧ (s.inited = true ∨ isInit i = true) :=
    fun h => (whenInited_next h).imp_right .inl
  cases i <;> simp only [exec, execInit, execWriteCommand, execReadCommand, execSetPixelFormat, execColumnAddressSet,
    execPageAddressSet, execWritePixels, execWriteRepeatedPixel, execDrawPixel, execDrawRect, execClearScreen,
    execBusWrite, execBusRead, execCmdNop, execCmdSoftwareReset, execCmdSleepOut, execCmdNormalDisplayMode,
    execCmdDisplayInversionOff, execCmdDisplayOn, execCmdColumnAddressSet, execCmdPageAddressSet, execCmdMemoryWrite,
    execCmdMemoryAccessControl, execCmdIdleModeOff, execCmdInterfacePixelFormat, wireCommand] at hx
  case init fmt =>
    cases hx
    exact ⟨rfl, .inr rfl⟩
  case readCommand opc len =>
    repeat' split at hx
    all_goals cases hx
    exact ⟨rfl, .inl ‹_›⟩
  case drawRect => exact (drawRectangle_next hx).imp_right fun h => .inl h.1
  case clearScreen => exact (drawRectangle_next hx).imp_right fun h => .inl h.1
  all_goals exact w hx

/-- A property that everything a request does leaves alone is kept by its work, however far it comes. -/
theorem body_keeps {P : State → Prop} {i : Instr} (I : Invariant i P) {s : State} (h : P s) : P (body i s).state := by
  have Cw : Closed MicroOp.isWrite P := I.closed.weaken fun op h => by
    cases i <;> first | exact h | exact op.notReset_of_isWrite h | exact op.readsNothing_of_isWrite h
  cases i with
  | init fmt => exact initialiseDevice_keeps I h
  | writeCommand opc len => exact sendCommand_closed Cw _ _ _ h
  | readCommand opc len =>
    exact loseSamples_keeps (I.rdWords rfl) (Progress.bind_keeps (busWrite_closed Cw _ _ h)
      fun u hu => busRead_closed I.closed _ hu)
  | setPixelFormat fmt => exact setFormat_closed Cw fmt h (I.pixFmt rfl)
  | columnAddressSet a0 a1 => exact sendWire_closed Cw _ _ h
  | pageAddressSet a0 a1 => exact sendWire_closed Cw _ _ h
  | writePixels p1 p2 => exact writePixelsOp_closed Cw _ _ h
  | writeRepeatedPixel p1 len => exact repeatPixelOp_closed Cw _ _ h fun ws hw => I.enc rfl s ws (encodeOne_length hw) h
  | drawPixel x y p1 =>
    exact Progress.bind_keeps (window_closed Cw _ _ _ _ h) fun u hu => writePixelsOp_closed Cw _ _ hu
  | drawRect x y w h' p1 => exact fillRectangle_closed Cw _ _ _ _ _ h
  | clearScreen => exact fillRectangle_closed Cw _ _ _ _ _ h
  | busWrite mode len => exact streamWrite_closed Cw _ _ _ h
  | busRead => exact loseSamples_keeps (I.rdWords rfl) (streamRead_closed I.closed _ h)
  | _ => exact sendWire_closed Cw _ _ h

/-- A property that everything a request does leaves alone is kept by it, however it ends. -/
theorem exec_keeps {P : State → Prop} {i : Instr} (I : Invariant i P) (hc : ∀ s st, P s → P (s.complete st))
    {s t : State} (h : P s) (hx : exec i s = .next t) : P t := by
  rw [(exec_next hx).1]
  exact Progress.settle_keeps hc (body_keeps I h)

/-- A property that everything any request does, and its acceptance, leave alone is kept by every step. -/
theorem step_keeps {P : State → Prop} (I : ∀ i, Invariant i P) (hc : ∀ s st, P s → P (s.complete st))
    (ha : ∀ s p rest, P s → P (s.accept p rest)) {s t : State} (h : P s) (hx : step s = .next t) : P t := by
  unfold step at hx
  split at hx
  · cases hx
  · split at hx
    · cases hx
      exact h
    · split at hx
      · cases hx
      · exact exec_keeps (I _) hc (ha _ _ _ h) hx

/-! ## What a micro-operation does to the rest of the state -/

theorem State.senseSamples_frame (bits k : Nat) (s : State) :
    (s.senseSamples bits k).lines = s.lines ∧ (s.senseSamples bits k).ghost = s.ghost ∧
      (s.senseSamples bits k).trace = s.trace ∧ (s.senseSamples bits k).seq = s.seq := by
  have hseq : ∀ (n : Nat) (u : State), (u.senseWord n).seq = u.seq := by
    intro n u
    induction n with
    | zero => rfl
    | succ n ih => rw [State.senseWord_succ, ← ih]; simp
  induction k generalizing s with
  | zero => exact ⟨rfl, rfl, rfl, rfl⟩
  | succ k ih =>
    obtain ⟨a, b, c, d⟩ := ih (s.senseWord bits).deliver
    obtain ⟨_, f, g, h⟩ := State.senseWord_frame bits s
    exact ⟨a.trans g, b.trans h, c.trans f, d.trans (hseq bits s)⟩

theorem State.captureBurst_seq (m : Mode) (burst : List (Mark × Word)) (s : State) :
    (s.captureBurst m burst).seq = s.seq := by
  induction burst generalizing s with
  | nil => rfl
  | cons kv rest ih => simp [State.captureBurst, ih]

theorem State.captureBurst_lines (m : Mode) (burst : List (Mark × Word)) (s : State) :
    (s.captureBurst m burst).lines =
      { s.lines with captured := (s.captureBurst m burst).captured } := by
  induction burst generalizing s with
  | nil => rfl
  | cons kv rest ih =>
    rw [State.captureBurst, ih]
    cases m <;> rfl

/-- A micro-operation changes `RESX` only when it sets the reset pin. -/
theorem MicroOp.effect_resx {op : MicroOp} (h : op.notReset = true) (s : State) : (op.effect s).resx = s.resx := by
  cases op with
  | set p v =>
    cases p with
    | resx => cases h
    | wrx =>
      simp only [MicroOp.effect, State.setPin]
      split <;> simp
    | _ => rfl
  | serialWrite m b => exact (State.captureBurst_sameInputs m b s).2
  | serialRead k => exact congrArg Lines.resx (State.senseSamples_frame s.cfg.width.bits k s).1
  | _ => simp [MicroOp.effect]

/-- Each micro-operation is at most one event, and no end of a request. -/
theorem MicroOp.effect_trace (op : MicroOp) (s : State) :
    (op.effect s).trace = s.trace ∧ (op.effect s).seq = s.seq ∨
    ∃ e, (op.effect s).trace = e :: s.trace ∧ (op.effect s).seq = s.seq.map (· + 1) ∧ ∀ st, e ≠ .done st := by
  cases op with
  | mode i dir => exact .inr ⟨_, rfl, rfl, fun _ h => by cases h⟩
  | set p v =>
    refine .inr ⟨.set p v, ?_, ?_, fun _ h => by cases h⟩
    · cases p <;> simp [MicroOp.effect]
    · cases p <;> simp [MicroOp.effect]
  | get i => exact .inr ⟨.get i s.nextLevel, by simp [MicroOp.effect], by simp [MicroOp.effect], fun _ h => by cases h⟩
  | delay us => exact .inr ⟨_, rfl, rfl, fun _ h => by cases h⟩
  | mark m => exact .inl ⟨rfl, rfl⟩
  | clearSamples => exact .inl ⟨rfl, rfl⟩
  | deliver => exact .inl ⟨rfl, rfl⟩
  | serialWrite m b =>
    refine .inr ⟨_, congrArg _ (State.captureBurst_trace m b s), congrArg (Option.map (· + 1)) (State.captureBurst_seq m b s),
      fun _ h => by cases h⟩
  | serialRead k =>
    obtain ⟨_, _, c, d⟩ := State.senseSamples_frame s.cfg.width.bits k s
    exact .inr ⟨_, congrArg _ c, congrArg (Option.map (· + 1)) d, fun _ h => by cases h⟩

/-- A micro-operation makes of the lines and the captured words what its event says (R11). -/
theorem MicroOp.effect_lines (op : MicroOp) (s : State) :
    ∃ new : List Event, (op.effect s).trace = new ++ s.trace ∧
      (op.effect s).lines = new.foldr (fun e l => l.after s.cfg.width e) s.lines := by
  cases op with
  | mode i dir => exact ⟨[_], rfl, rfl⟩
  | set p v =>
    refine ⟨[.set p v], by cases p <;> simp [MicroOp.effect], ?_⟩
    cases p with
    | wrx =>
      have hl : (Lines.after s.cfg.width s.lines (.set .wrx v)) = { s.lines with
          wrx := v
          captured := if v && !s.wrx && !s.cs then
            (modeOfLevel s.dcx, busWord s.cfg.width s.dout) :: s.captured else s.captured } := rfl
      simp only [List.foldr, hl, MicroOp.effect, State.setPin]
      split
      · cases modeOfLevel s.dcx <;> rfl
      · rfl
    | _ => rfl
  | get i => exact ⟨[.get i s.nextLevel], by simp [MicroOp.effect], by simp [MicroOp.effect, State.lines, Lines.after]⟩
  | delay us => exact ⟨[_], rfl, rfl⟩
  | mark m => exact ⟨[], rfl, rfl⟩
  | clearSamples => exact ⟨[], rfl, rfl⟩
  | deliver => exact ⟨[], rfl, rfl⟩
  | serialWrite m b =>
    refine ⟨[.serialWrite m (b.map Prod.snd)], congrArg _ (State.captureBurst_trace m b s), ?_⟩
    have h := State.captureBurst_stream m b s
    have hc : (s.captureBurst m b).captured = (tagged m ((b.map Prod.snd).map (busWord s.cfg.width))).reverse
        ++ s.captured := by
      have := congrArg List.reverse h
      simpa [State.stream, Function.comp_def] using this
    change (s.captureBurst m b).lines = _
    rw [State.captureBurst_lines, hc]
    rfl
  | serialRead k =>
    obtain ⟨a, _, c, _⟩ := State.senseSamples_frame s.cfg.width.bits k s
    exact ⟨[_], congrArg _ c, a⟩

end Sys2Proof.Machine
end

