-- ==== Sys2Proof/Laws/Errors.lean ====
section
/-! SUPPORT. The errors that the parts of a request can raise, and which parts never wait. -/

namespace Sys2Proof.Machine

/-- The errors that a part of a request can raise. -/
def Progress.Raises (E : Status → Prop) (p : Progress) : Prop := ∀ e t, p = .raised e t → E e

/-- The part of a request does not stall. -/
def Progress.Ends (p : Progress) : Prop := ∀ t, p ≠ .stalled t

theorem Progress.Raises.bind {E : Status → Prop} {p : Progress} {f : State → Progress} (hp : p.Raises E)
    (hf : ∀ t, p = .going t → (f t).Raises E) : (p.bind f).Raises E := by
  cases p with
  | going s => exact hf s rfl
  | raised e s => exact hp
  | stalled s => exact fun e t h => by cases h

theorem Progress.Raises.mono {E F : Status → Prop} {p : Progress} (h : p.Raises E) (hEF : ∀ e, E e → F e) : p.Raises F :=
  fun e t ht => hEF e (h e t ht)

theorem Progress.Ends.bind {p : Progress} {f : State → Progress} (hp : p.Ends) (hf : ∀ t, (f t).Ends) : (p.bind f).Ends := by
  cases p with
  | going s => exact hf s
  | raised e s => exact fun t h => by cases h
  | stalled s => exact absurd rfl (hp s)

theorem runOps_raises (err : Status) (ops : List MicroOp) (s : State) :
    (runOps err ops s).Raises fun e => e = err ∨
      (e = .inputNotAvailable ∧ s.cfg.pinVariant = .outputOnly ∧ ∃ op ∈ ops, op.wantsInput = true) := by
  intro e t h
  rcases runOps_cases err ops s with ⟨f, hr⟩ | ⟨f, done, rest, _, hr⟩ | ⟨f, done, op, rest, ho, hw, hv, hr⟩
  · rw [hr] at h
    cases h
  · rw [hr] at h
    cases h
    exact .inl rfl
  · rw [hr] at h
    cases h
    exact .inr ⟨rfl, hv, op, by simp [ho], hw⟩

theorem runOps_ends (err : Status) (ops : List MicroOp) (s : State) : (runOps err ops s).Ends := by
  intro t h
  rcases runOps_cases err ops s with ⟨f, hr⟩ | ⟨f, done, rest, _, hr⟩ | ⟨f, done, op, rest, ho, hw, hv, hr⟩ <;>
    · rw [hr] at h
      cases h

theorem busWrite_raises (m : Mode) (burst : List (Mark × Word)) (s : State) :
    (busWrite m burst s).Raises (· = .busWriteError) := by
  intro e t h
  rcases runOps_raises _ _ _ e t h with h | ⟨_, _, op, ho, hw⟩
  · exact h
  · have := (writeOps_kind s.cfg m burst op ho).1
    simp [MicroOp.isWrite, hw] at this

theorem busRead_raises (k : Nat) (s : State) :
    (busRead k s).Raises fun e => e = .busReadError ∨ (e = .inputNotAvailable ∧ s.cfg.pinVariant = .outputOnly) :=
  (runOps_raises _ _ _).mono fun _ h => h.imp_right fun h => ⟨h.1, h.2.1⟩

theorem streamWrite_raises (m : Mode) (n : Nat) (elems : List Word) (s : State) :
    (streamWrite m n elems s).Raises (· = .busWriteError) := by
  unfold streamWrite
  split
  · exact busWrite_raises _ _ _
  · refine Progress.Raises.bind ?_ fun t _ e u hu => by cases hu
    intro e t h
    rcases runOps_raises _ _ _ e t h with h | ⟨_, _, op, ho, hw⟩
    · exact h
    · split at ho
      · simp at ho
      · have := (writeWords_kind _ _ _ op ho).1
        simp [MicroOp.isWrite, hw] at this

theorem noteLost_raises {E : Status → Prop} (opc : Byte) {p : Progress} (h : p.Raises E) : (noteLost opc p).Raises E := by
  cases p with
  | raised e s =>
    intro e' t ht
    cases ht
    exact h _ _ rfl
  | going s => exact fun e t ht => by cases ht
  | stalled s => exact fun e t ht => by cases ht

theorem sendCommand_raises (opc : Byte) (n : Nat) (elems : List Word) (s : State) :
    (sendCommand opc n elems s).Raises (· = .busWriteError) :=
  noteLost_raises opc ((busWrite_raises _ _ _).bind fun _ _ => streamWrite_raises _ _ _ _)

theorem sendWire_raises (opc : Byte) (params : List Byte) (s : State) :
    (sendWire opc params s).Raises (· = .busWriteError) := sendCommand_raises _ _ _ _

theorem window_raises (c0 c1 p0 p1 : Coord) (s : State) :
    ((setWindow c0 c1 p0 p1 s).bind (sendWire 0x2C [])).Raises (· = .busWriteError) :=
  ((sendWire_raises _ _ _).bind fun _ _ => sendWire_raises _ _ _).bind fun _ _ => sendWire_raises _ _ _

theorem setFormat_raises (fmt : BitVec 3) (s : State) :
    (setFormat fmt s).Raises fun e => e = .busWriteError ∨ e = .invalidFormatError := by
  unfold setFormat
  split
  · intro e t h
    cases h
    exact .inr rfl
  · exact Progress.Raises.bind ((sendWire_raises _ _ _).mono fun _ h => .inl h) fun t _ e u hu => by cases hu

theorem encodePixels_none {pack : Pack565} {fmt : PixFmt} {w : Width} {p1 : Pixel} {p2 : Option Pixel}
    (h : encodePixels pack fmt w p1 p2 = none) : fmt = .rgb565 ∧ w = .w18 := by
  cases p2 <;> cases fmt <;> cases w <;> first | exact ⟨rfl, rfl⟩ | cases h

theorem writePixelsOp_raises (p1 : Pixel) (p2 : Option Pixel) (s : State) :
    (writePixelsOp p1 p2 s).Raises fun e =>
      e = .busWriteError ∨ (e = .dataFormatNotImplemented ∧ s.pixFmt = .rgb565 ∧ s.cfg.width = .w18) := by
  unfold writePixelsOp
  split
  · rename_i h
    intro e t ht
    cases ht
    exact .inr ⟨rfl, encodePixels_none h⟩
  · exact (busWrite_raises _ _ _).mono fun _ h => .inl h

theorem repeatPixelOp_raises (p1 : Pixel) (n : Nat) (s : State) :
    (repeatPixelOp p1 n s).Raises fun e =>
      e = .busWriteError ∨ (e = .dataFormatNotImplemented ∧ s.pixFmt = .rgb565 ∧ s.cfg.width = .w18) := by
  unfold repeatPixelOp
  split
  · rename_i h
    intro e t ht
    cases ht
    exact .inr ⟨rfl, encodePixels_none h⟩
  · exact (busWrite_raises _ _ _).mono fun _ h => .inl h

theorem Progress.state_of_going {p : Progress} {t : State} (h : p = .going t) : p.state = t := by rw [h]; rfl

theorem Progress.state_of_raised {p : Progress} {e : Status} {t : State} (h : p = .raised e t) : p.state = t := by
  rw [h]; rfl

theorem noteLost_ends (opc : Byte) {p : Progress} (h : p.Ends) : (noteLost opc p).Ends := by
  cases p with
  | stalled s => exact absurd rfl (h s)
  | going s => exact fun t ht => by cases ht
  | raised e s => exact fun t ht => by cases ht

/-- The wire commands whose parameters the block forms itself never wait. -/
theorem sendWire_ends (opc : Byte) (params : List Byte) (s : State) : (sendWire opc params s).Ends := by
  refine noteLost_ends opc ((runOps_ends _ _ _).bind fun t => ?_)
  rw [streamWrite, if_pos (by simp)]
  exact runOps_ends _ _ _

theorem setFormat_ends (fmt : BitVec 3) (s : State) : (setFormat fmt s).Ends := by
  unfold setFormat
  split
  · exact fun t h => by cases h
  · exact (sendWire_ends _ _ _).bind fun t u h => by cases h

theorem writePixelsOp_ends (p1 : Pixel) (p2 : Option Pixel) (s : State) : (writePixelsOp p1 p2 s).Ends := by
  unfold writePixelsOp
  split
  · exact fun t h => by cases h
  · exact runOps_ends _ _ _

theorem repeatOp_ends {f : State → Progress} (hf : ∀ t, (f t).Ends) (n : Nat) (s : State) : (repeatOp f n s).Ends := by
  induction n generalizing s with
  | zero => exact fun t h => by cases h
  | succ n ih => exact (hf s).bind ih

theorem fillPixels_ends (p1 : Pixel) (n : Nat) (s : State) : (fillPixels p1 n s).Ends := by
  refine (repeatOp_ends (writePixelsOp_ends p1 (some p1)) _ _).bind fun t => ?_
  split
  · exact writePixelsOp_ends _ _ _
  · exact fun t h => by cases h

theorem window_ends (c0 c1 p0 p1 : Coord) (s : State) : ((setWindow c0 c1 p0 p1 s).bind (sendWire 0x2C [])).Ends :=
  ((sendWire_ends _ _ _).bind fun _ => sendWire_ends _ _ _).bind fun _ => sendWire_ends _ _ _

theorem loseSamples_raises {E : Status → Prop} {p : Progress} (h : p.Raises E) : (loseSamples p).Raises E := by
  cases p with
  | raised e s =>
    intro e' t ht
    cases ht
    exact h _ _ rfl
  | going s => exact fun e t ht => by cases ht
  | stalled s => exact fun e t ht => by cases ht

theorem streamRead_raises (answers : List Bool) (s : State) :
    (streamRead answers s).Raises fun e =>
      e = .busReadError ∨ (e = .inputNotAvailable ∧ s.cfg.pinVariant = .outputOnly) := by
  unfold streamRead
  split
  · exact busRead_raises _ _
  · refine Progress.Raises.bind ?_ fun t _ e u hu => by cases hu
    exact (runOps_raises _ _ _).mono fun _ h => h.imp_right fun h => ⟨h.1, h.2.1⟩

/-- A write part of a request changes neither the format tag nor the parameters. -/
theorem writesKeepTag (s : State) : Closed MicroOp.isWrite (fun u => u.pixFmt = s.pixFmt ∧ u.cfg = s.cfg) :=
  ⟨fun _ _ h => h, fun u op _ _ h => ⟨(op.effect_sameCore u).1.pixFmt.trans h.1, (op.effect_sameCore u).1.cfg.trans h.2⟩,
    fun _ h => h⟩

/-- The errors of a part of a request that writes pixels. -/
abbrev PixelError (s : State) (e : Status) : Prop :=
  e = .busWriteError ∨ (e = .dataFormatNotImplemented ∧ s.pixFmt = .rgb565 ∧ s.cfg.width = .w18)

theorem writePixelsOp_raises_at {s t : State} (h : t.pixFmt = s.pixFmt ∧ t.cfg = s.cfg) (p1 : Pixel)
    (p2 : Option Pixel) : (writePixelsOp p1 p2 t).Raises (PixelError s) := by
  have := writePixelsOp_raises p1 p2 t
  rwa [h.1, h.2] at this

theorem fillPixels_raises {s t : State} (h : t.pixFmt = s.pixFmt ∧ t.cfg = s.cfg) (p1 : Pixel) (n : Nat) :
    (fillPixels p1 n t).Raises (PixelError s) := by
  have hrep : ∀ k t, t.pixFmt = s.pixFmt ∧ t.cfg = s.cfg →
      (repeatOp (writePixelsOp p1 (some p1)) k t).Raises (PixelError s) := by
    intro k
    induction k with
    | zero => exact fun t _ e u hu => by cases hu
    | succ k ih =>
      intro t ht
      refine (writePixelsOp_raises_at ht _ _).bind fun u hu => ih u ?_
      have := writePixelsOp_closed (writesKeepTag s) p1 (some p1) ht
      rwa [Progress.state_of_going hu] at this
  refine (hrep _ t h).bind fun u hu => ?_
  have hk := repeatOp_keeps (P := fun u => u.pixFmt = s.pixFmt ∧ u.cfg = s.cfg)
    (fun t ht => writePixelsOp_closed (writesKeepTag s) p1 (some p1) ht) (n / 2) h
  rw [Progress.state_of_going hu] at hk
  split
  · exact writePixelsOp_raises_at hk _ _
  · exact fun e u hu => by cases hu

theorem window_keepsTag (c0 c1 p0 p1 : Coord) {s t : State}
    (h : (setWindow c0 c1 p0 p1 s).bind (sendWire 0x2C []) = .going t) : t.pixFmt = s.pixFmt ∧ t.cfg = s.cfg := by
  have := window_closed (writesKeepTag s) c0 c1 p0 p1 (s := s) ⟨rfl, rfl⟩
  rwa [Progress.state_of_going h] at this

theorem fillRectangle_raises (x y w h : Coord) (p1 : Pixel) (s : State) :
    (fillRectangle x y w h p1 s).Raises (PixelError s) :=
  ((window_raises _ _ _ _ _).mono fun _ h => .inl h).bind fun _ ht => fillPixels_raises (window_keepsTag _ _ _ _ ht) _ _

theorem initialiseDevice_raises (fmt : BitVec 3) (s : State) :
    (initialiseDevice fmt s).Raises fun e => e = .busWriteError ∨ e = .invalidFormatError := by
  refine Progress.Raises.bind (Progress.Raises.bind ?_ fun t _ => setFormat_raises fmt _) fun t _ e u hu => by cases hu
  intro e t h
  rcases runOps_raises _ _ _ e t h with h | ⟨_, _, op, ho, hw⟩
  · exact .inl h
  · simp only [resetPulse, List.mem_cons, List.not_mem_nil, or_false] at ho
    rcases ho with rfl | rfl | rfl | rfl <;> cases hw

theorem initialiseDevice_ends (fmt : BitVec 3) (s : State) : (initialiseDevice fmt s).Ends :=
  ((runOps_ends _ _ _).bind fun _ => setFormat_ends _ _).bind fun t u h => by cases h

theorem readAfterOpcode_raises (opc : Byte) (n : Nat) (s : State) :
    (readAfterOpcode opc n s).Raises fun e =>
      e = .busWriteError ∨ e = .busReadError ∨ (e = .inputNotAvailable ∧ s.cfg.pinVariant = .outputOnly) := by
  refine Progress.Raises.bind ((busWrite_raises _ _ _).mono fun _ h => .inl h) fun t ht => ?_
  have hk := busWrite_closed (writesKeepTag s) .command (rawBurst [wordOfByte opc]) (s := s) ⟨rfl, rfl⟩
  rw [Progress.state_of_going ht] at hk
  have := busRead_raises n t
  rw [hk.2] at this
  exact this.mono fun _ h => .inr h

end Sys2Proof.Machine
end

