-- ==== Sys2Proof/Laws/Decode.lean ====
section
/-! SUPPORT. The operand forms of the decoder and the encoder undo each other. -/

namespace Sys2Proof

/-- A coordinate is made of its two bytes, most significant first (R53, R78). -/
theorem coordOfBytes_bytes (c : Coord) : coordOfBytes (hiByte c) (loByte c) = c := by
  apply BitVec.eq_of_getLsbD_eq
  intro j hj
  simp only [coordOfBytes, hiByte, loByte, BitVec.getLsbD_or, BitVec.getLsbD_shiftLeft, BitVec.getLsbD_setWidth,
    BitVec.getLsbD_ushiftRight]
  by_cases h : j < 8
  · simp [h, hj]
  · have : j - 8 < 8 := by omega
    simp [h, hj, this]
    have : 8 + (j - 8) = j := by omega
    rw [this]; simp [hj]
    omega

/-- A pixel is read back from its port field (R71). -/
theorem pixelOfField_fieldOfPixel (p : Pixel) : pixelOfField (fieldOfPixel p) = p := by
  have h : ∀ (a b : Byte), a = b ↔ ∀ j < 8, a.getLsbD j = b.getLsbD j := fun a b => ⟨fun h => by simp [h], BitVec.eq_of_getLsbD_eq⟩
  rcases p with ⟨r, g, b⟩
  simp only [pixelOfField, fieldOfPixel, Pixel.mk.injEq, h]
  refine ⟨fun j hj => ?_, fun j hj => ?_, fun j hj => ?_⟩ <;>
   simp only [BitVec.getLsbD_or, BitVec.getLsbD_shiftLeft, BitVec.getLsbD_setWidth, BitVec.getLsbD_ushiftRight]
  · have e1 : 16 + j < 24 := by omega
    have e2 : 16 + j - 16 = j := by omega
    have e3 : ¬ 16 + j < 16 := by omega
    have e4 : ¬ 16 + j < 8 := by omega
    have e6 : 16 + j - 8 < 24 := by omega
    have e7 : g.getLsbD (16 + j - 8) = false := BitVec.getLsbD_of_ge _ _ (by omega)
    have e8 : b.getLsbD (16 + j) = false := BitVec.getLsbD_of_ge _ _ (by omega)
    have e9 : j < 24 := by omega
    simp [hj, e1, e2, e3, e4, e6, e7, e8, e9]
  · have e1 : 8 + j < 24 := by omega
    have e2 : 8 + j < 16 := by omega
    have e3 : 8 + j - 8 = j := by omega
    have e9 : j < 24 := by omega
    have e10: ¬ 8 + j < 8 := by omega
    simp [hj, e1, e2, e3, e9, e10]
  · have e9 : j < 24 := by omega
    have e1 : j < 16 := by omega
    simp [hj, e1, e9]

end Sys2Proof
end

