-- ==== Sys2Proof/Laws/Requests.lean ====
section
/-! SUPPORT. What the sequences the requests share come to: undisturbed runs as lists of write transactions, and the
frames that hold however a request ends. -/

namespace Sys2Proof.Machine

/-! ## Lists of write transactions -/

/-- A write transaction: its mode and its burst. -/
abbrev Transaction := Mode × List (Mark × Word)

/-- The pin operations of write transactions one after another. -/
def txCost (c : Config) (txs : List Transaction) : Nat := (txs.map fun t => writeCost c t.2.length).sum

/-- The events of write transactions one after another. -/
def txEvents (c : Config) (txs : List Transaction) : List Event :=
  txs.flatMap fun t => writeEvents c t.1 (t.2.map Prod.snd)

/-- The captured words of write transactions one after another. -/
def txStream (w : Width) (txs : List Transaction) : List (Mode × Word) :=
  txs.flatMap fun t => tagged t.1 (t.2.map fun kv => busWord w kv.2)

/-- What the monitor notes of write transactions one after another. -/
def noteAll (txs : List Transaction) (s : State) : State := txs.foldl (fun t tx => t.captureBurst tx.1 tx.2) s

@[simp] theorem noteAll_nil (s : State) : noteAll [] s = s := rfl
@[simp] theorem noteAll_cons (tx : Transaction) (txs : List Transaction) (s : State) :
    noteAll (tx :: txs) s = noteAll txs (s.captureBurst tx.1 tx.2) := rfl

theorem noteAll_append (a b : List Transaction) (s : State) : noteAll (a ++ b) s = noteAll b (noteAll a s) := by
  simp [noteAll]

theorem txCost_append (c : Config) (a b : List Transaction) : txCost c (a ++ b) = txCost c a + txCost c b := by
  simp [txCost]

theorem txEvents_append (c : Config) (a b : List Transaction) : txEvents c (a ++ b) = txEvents c a ++ txEvents c b := by
  simp [txEvents]

theorem txStream_append (w : Width) (a b : List Transaction) : txStream w (a ++ b) = txStream w a ++ txStream w b := by
  simp [txStream]

/-- Two states in which the monitor holds the same. -/
structure SameMonitor (s t : State) : Prop where
  captured : t.captured = s.captured
  ghost : t.ghost = s.ghost
  draws : t.draws = s.draws

theorem noteAll_congr (txs : List Transaction) {s t : State} (hc : t.cfg = s.cfg) (h : SameMonitor s t) :
    SameMonitor (noteAll txs s) (noteAll txs t) := by
  induction txs generalizing s t with
  | nil => exact h
  | cons tx txs ih =>
    obtain ⟨a, b, c⟩ := State.captureBurst_congr tx.1 tx.2 hc h.captured h.ghost h.draws
    exact ih (by rw [(State.captureBurst_sameCore _ _ _).1.cfg, (State.captureBurst_sameCore _ _ _).1.cfg, hc]) ⟨a, b, c⟩

theorem noteAll_cfg (txs : List Transaction) (s : State) : (noteAll txs s).cfg = s.cfg := by
  induction txs generalizing s with
  | nil => rfl
  | cons tx txs ih => rw [noteAll_cons, ih, (State.captureBurst_sameCore _ _ _).1.cfg]

theorem noteAll_stream (txs : List Transaction) (s : State) :
    (noteAll txs s).stream = s.stream ++ txStream s.cfg.width txs := by
  induction txs generalizing s with
  | nil => simp [txStream]
  | cons tx txs ih =>
    rw [noteAll_cons, ih, State.captureBurst_stream, (State.captureBurst_sameCore _ _ _).1.cfg]
    simp [txStream]

/-- From `s` to `t` these write transactions were performed, undisturbed, and nothing else happened. -/
structure Sent (txs : List Transaction) (s t : State) : Prop where
  core : SameCore s t
  inputs : SameInputs s t
  resx : t.resx = s.resx
  settled : t.Settled
  faults : t.faults = spendFaults (txCost s.cfg txs) s.faults
  events : t.events = s.events ++ txEvents s.cfg txs
  monitor : SameMonitor (noteAll txs s) t

theorem Sent.nil {s : State} (h : s.Settled) : Sent [] s s :=
  ⟨.refl s, .refl s, rfl, h, by simp [txCost], by simp [txEvents], ⟨rfl, rfl, rfl⟩⟩

theorem Sent.trans {a b : List Transaction} {s t u : State} (h : Sent a s t) (k : Sent b t u) : Sent (a ++ b) s u := by
  have hc : t.cfg = s.cfg := h.core.cfg
  have hm := noteAll_congr b (by rw [noteAll_cfg, hc]) h.monitor
  refine ⟨h.core.trans k.core, h.inputs.trans k.inputs, k.resx.trans h.resx, k.settled, ?_, ?_, ?_⟩
  · rw [k.faults, h.faults, spendFaults_add, txCost_append, hc]
  · rw [k.events, h.events, txEvents_append, hc, List.append_assoc]
  · rw [noteAll_append]
    exact ⟨k.monitor.captured.trans hm.captured, k.monitor.ghost.trans hm.ghost, k.monitor.draws.trans hm.draws⟩

theorem Sent.stream {txs : List Transaction} {s t : State} (h : Sent txs s t) :
    t.stream = s.stream ++ txStream s.cfg.width txs := by
  rw [State.stream, h.monitor.captured]
  exact noteAll_stream txs s

theorem Sent.quiet {txs : List Transaction} {s t : State} (h : Sent txs s t) {n : Nat}
    (hq : s.quietFor (txCost s.cfg txs + n)) : t.quietFor n := State.quietFor_spend hq h.faults

/-- A request whose work is these transactions ends with OK and changes no register. -/
theorem Sent.finish {txs : List Transaction} {s t : State} (h : Sent txs s t) :
    t.finish.EndedWith .ok ∧ s.KeepsRegisters t.finish ∧ t.finish.stream = s.stream ++ txStream s.cfg.width txs ∧
      t.finish.events = s.events ++ txEvents s.cfg txs ++ [.done .ok] ∧ t.finish.ghost = (noteAll txs s).ghost := by
  refine ⟨⟨rfl, rfl, rfl, rfl⟩, ⟨h.core.cfg, h.core.pixFmt, h.core.inited, h.core.lat, h.core.enc, h.resx,
    h.inputs.rdWords, h.inputs.levels, h.core.pending⟩, h.stream, ?_, h.monitor.ghost⟩
  rw [← h.events]
  simp [State.events, State.finish, State.complete]

theorem AfterWrite.rests {m : Mode} {v : Word} {t : State} (h : AfterWrite m v t) (hv : busWord t.cfg.width v = v) :
    t.finish.RestsAfterWrite m v := by
  refine ⟨h.cs, h.wrx, h.rdx, h.dcx.trans ?_, h.ddir, h.dout.trans hv⟩
  cases m <;> rfl

theorem busWrite_sent (m : Mode) (burst : List (Mark × Word)) {s : State} (hs : s.Settled)
    (hq : s.quietFor (writeCost s.cfg burst.length)) :
    ∃ t, busWrite m burst s = .going t ∧ Sent [(m, burst)] s t ∧
      (s.cfg.isSerial = false → ∀ kv, burst.getLast? = some kv → AfterWrite m kv.2 t) := by
  obtain ⟨t, h1, h2, h3, h4, h5, h6, h7, h8⟩ := busWrite_quiet m burst hs hq
  exact ⟨t, h1, ⟨h2, h3, h4.resx, h5, by simpa [txCost] using h6, by simpa [txEvents] using h7,
    ⟨h4.captured, h4.ghost, h4.draws⟩⟩, h8⟩

/-! ## Wire commands -/

/-- The transactions of a wire command (R75). -/
def wireTx (opc : Byte) (params : List Word) : List Transaction :=
  [(.command, rawBurst [wordOfByte opc]), (.data, rawBurst params)]

@[simp] theorem rawBurst_length (ws : List Word) : (rawBurst ws).length = ws.length := by simp [rawBurst]

theorem rawBurst_snd (ws : List Word) : (rawBurst ws).map Prod.snd = ws := by simp [rawBurst, Function.comp_def]

theorem rawBurst_getLast? {ws : List Word} {v : Word} (h : ws.getLast? = some v) :
    (rawBurst ws).getLast? = some (Mark.raw, v) := by simp [rawBurst, h]

theorem wireTx_cost (c : Config) (opc : Byte) (params : List Word) :
    txCost c (wireTx opc params) = wireCost c params.length := by simp [txCost, wireTx, wireCost, rawBurst]

/-- A wire command in which nothing faults (R75, R141). -/
theorem sendCommand_sent (opc : Byte) (n : Nat) (elems : List Word) {s : State} (hs : s.Settled)
    (hn : n ≤ elems.length) (hq : s.quietFor (wireCost s.cfg n)) :
    ∃ t, sendCommand opc n elems s = .going t ∧ Sent (wireTx opc (elems.take n)) s t ∧
      (s.cfg.isSerial = false → ∀ v, (elems.take n).getLast? = some v → AfterWrite .data v t) ∧
      (s.cfg.isSerial = false → n = 0 → AfterWrite .command (wordOfByte opc) t) := by
  obtain ⟨r, h1, h2, h3⟩ := busWrite_sent .command (rawBurst [wordOfByte opc]) hs
    (State.quietFor_mono hq (by simp [wireCost]))
  have hc : r.cfg = s.cfg := h2.core.cfg
  have hlen : (rawBurst (elems.take n)).length = n := by simp [hn]
  have hq2 : r.quietFor (writeCost r.cfg (rawBurst (elems.take n)).length) := by
    rw [hlen, hc]
    exact h2.quiet (by simpa [txCost, wireCost] using hq)
  obtain ⟨t, k1, k2, k3⟩ := busWrite_sent .data (rawBurst (elems.take n)) h2.settled hq2
  refine ⟨t, ?_, h2.trans k2, ?_, ?_⟩
  · rw [sendCommand, h1, Progress.bind_going, streamWrite, if_pos hn, k1]
    rfl
  · intro hser v hv
    exact k3 (hc ▸ hser) (Mark.raw, v) (rawBurst_getLast? hv)
  · intro hser h0
    have : t = r := by
      have : rawBurst (elems.take n) = [] := by simp [h0, rawBurst]
      rw [this] at k1
      simpa [busWrite, writeOps, runOps] using k1.symm
    rw [this]
    exact h3 hser (Mark.raw, wordOfByte opc) rfl

theorem sendWire_sent (opc : Byte) (params : List Byte) {s : State} (hs : s.Settled)
    (hq : s.quietFor (wireCost s.cfg params.length)) :
    ∃ t, sendWire opc params s = .going t ∧ Sent (wireTx opc (params.map wordOfByte)) s t ∧
      (s.cfg.isSerial = false → ∀ b, params.getLast? = some b → AfterWrite .data (wordOfByte b) t) ∧
      (s.cfg.isSerial = false → params = [] → AfterWrite .command (wordOfByte opc) t) := by
  obtain ⟨t, h1, h2, h3, h4⟩ := sendCommand_sent opc params.length (params.map wordOfByte) hs (by simp) hq
  rw [List.take_of_length_le (by simp)] at h2 h3
  exact ⟨t, h1, h2, fun h b hb => h3 h _ (by simp [hb]), fun h hp => h4 h (by simp [hp])⟩

theorem wireTx_stream (w : Width) (opc : Byte) (params : List Byte) :
    txStream w (wireTx opc (params.map wordOfByte)) = wireStream opc params := by
  simp [txStream, wireTx, wireStream, rawBurst, tagged, Function.comp_def]

theorem wireTx_events (c : Config) (opc : Byte) (params : List Byte) :
    txEvents c (wireTx opc (params.map wordOfByte)) = wireEvents c opc params := by
  simp [txEvents, wireTx, wireEvents, rawBurst, Function.comp_def]

/-- The transactions of `SetWindow` (R173) and the memory-write command (R177). -/
def windowTx (c0 c1 p0 p1 : Coord) : List Transaction :=
  wireTx 0x2A ((coordBytes c0 c1).map wordOfByte) ++ wireTx 0x2B ((coordBytes p0 p1).map wordOfByte) ++ wireTx 0x2C []

theorem windowTx_cost (c : Config) (c0 c1 p0 p1 : Coord) : txCost c (windowTx c0 c1 p0 p1) = windowCost c := by
  simp [windowTx, txCost_append, wireTx_cost, windowCost, coordBytes, Nat.add_assoc]

theorem windowTx_stream (w : Width) (c0 c1 p0 p1 : Coord) :
    txStream w (windowTx c0 c1 p0 p1) = windowStream c0 c1 p0 p1 := by
  have h := wireTx_stream w 0x2C []
  simp only [List.map_nil] at h
  rw [windowTx, txStream_append, txStream_append, wireTx_stream, wireTx_stream, h, windowStream]

theorem window_sent (c0 c1 p0 p1 : Coord) {s : State} (hs : s.Settled) (hq : s.quietFor (windowCost s.cfg)) :
    ∃ t, (setWindow c0 c1 p0 p1 s).bind (sendWire 0x2C []) = .going t ∧ Sent (windowTx c0 c1 p0 p1) s t := by
  obtain ⟨r1, a1, a2, _⟩ := sendWire_sent 0x2A (coordBytes c0 c1) hs
    (State.quietFor_mono hq (by simp [windowCost, coordBytes]; omega))
  have c1' : r1.cfg = s.cfg := a2.core.cfg
  obtain ⟨r2, b1, b2, _⟩ := sendWire_sent 0x2B (coordBytes p0 p1) a2.settled (by
    rw [c1']
    exact a2.quiet (State.quietFor_mono hq (by simp [windowCost, coordBytes, wireTx_cost])))
  have c2' : r2.cfg = s.cfg := b2.core.cfg.trans c1'
  obtain ⟨r3, d1, d2, _⟩ := sendWire_sent 0x2C [] b2.settled (by
    rw [c2']
    exact (a2.trans b2).quiet (State.quietFor_mono hq (by
      simp [windowCost, coordBytes, wireTx_cost, txCost_append])))
  exact ⟨r3, by rw [setWindow, a1, Progress.bind_going, b1, Progress.bind_going, d1], (a2.trans b2).trans d2⟩

end Sys2Proof.Machine
end

