-- ==== Sys2Proof/Laws/Monitor.lean ====
section
/-! SUPPORT. What the monitor records of the wire commands and of the pixel stream (R33 to R36). -/

namespace Sys2Proof.Machine

/-! ## Raw words -/

theorem byteOfWord_busWord (w : Width) (b : Byte) : byteOfWord (busWord w (wordOfByte b)) = b := by
  apply BitVec.eq_of_getLsbD_eq
  intro j hj
  have hb : 8 ≤ w.bits := by cases w <;> decide
  have h1 : j < w.bits := by omega
  have h2 : j < 32 := by omega
  rw [byteOfWord, BitVec.getLsbD_setWidth, busWord_getLsbD, wordOfByte, BitVec.getLsbD_setWidth]
  simp [hj, h1, h2]

theorem Ghost.parameter_owed (g : Ghost) (opc b : Byte) : (g.parameter opc b).owed = g.owed := by
  unfold Ghost.parameter
  split <;> rfl

theorem Ghost.parameter_opcode (g : Ghost) (opc b : Byte) : (g.parameter opc b).opcode = g.opcode := by
  unfold Ghost.parameter
  split <;> rfl

/-- The monitor's record of parameter bytes after an opcode. -/
def Ghost.parameters (opc : Byte) : List Byte → Ghost → Ghost
  | [], g => g
  | b :: bs, g => Ghost.parameters opc bs (({ g with mark := .raw } : Ghost).parameter opc b)

theorem captureBurst_parameters {opc : Byte} (bs : List Byte) {s : State} (ho : s.ghost.owed = none)
    (hc : s.ghost.opcode = some opc) :
    (s.captureBurst .data (rawBurst (bs.map wordOfByte))).ghost = s.ghost.parameters opc bs := by
  induction bs generalizing s with
  | nil => rfl
  | cons b bs ih =>
    have hg : ((s.noteMark .raw).capture .data (busWord s.cfg.width (wordOfByte b))).ghost =
        ({ s.ghost with mark := .raw } : Ghost).parameter opc b := by
      simp only [State.capture, State.noteMark, Ghost.data, ho, hc, byteOfWord_busWord]
    have hstep := ih (s := (s.noteMark .raw).capture .data (busWord s.cfg.width (wordOfByte b)))
      (by rw [hg, Ghost.parameter_owed]; exact ho) (by rw [hg, Ghost.parameter_opcode]; exact hc)
    change (((s.noteMark .raw).capture .data (busWord s.cfg.width (wordOfByte b))).captureBurst .data
      (rawBurst (bs.map wordOfByte))).ghost = _
    rw [hstep, hg]
    rfl

theorem captureBurst_opcode (opc : Byte) (s : State) :
    (s.captureBurst .command (rawBurst [wordOfByte opc])).ghost = ({ s.ghost with mark := .raw } : Ghost).command opc := by
  simp only [rawBurst, List.map_cons, List.map_nil, State.captureBurst, State.capture, State.noteMark, byteOfWord_busWord]

/-- The record of a wire command that starts no pixel stream, or has no parameters. -/
theorem noteAll_wire (opc : Byte) (params : List Byte) (s : State) (h : opc ≠ 0x2C ∨ params = []) :
    (noteAll (wireTx opc (params.map wordOfByte)) s).ghost =
      (({ s.ghost with mark := .raw } : Ghost).command opc).parameters opc params := by
  simp only [wireTx, noteAll_cons, noteAll_nil]
  rcases h with h | rfl
  · rw [captureBurst_parameters (opc := opc), captureBurst_opcode]
    · rw [captureBurst_opcode]
      simp only [Ghost.command, if_neg h]
    · rw [captureBurst_opcode]
      rfl
  · rw [show rawBurst (List.map wordOfByte []) = [] from rfl]
    exact captureBurst_opcode opc s

/-- The record of COLUMN_ADDRESS_SET on the wire (R156). -/
theorem columns_recorded (g : Ghost) (c0 c1 : Coord) :
    let u := (g.command 0x2A).parameters 0x2A (coordBytes c0 c1)
    u.devWin = { g.devWin with c0 := c0, c1 := c1 } ∧ u.owed = none ∧ u.phase = g.phase ∧ u.devFmt = g.devFmt := by
  simp [Ghost.command, Ghost.parameters, Ghost.parameter, phaseAfter, devWinAfter, coordBytes, coordOfBytes_bytes]

/-- The record of PAGE_ADDRESS_SET on the wire (R157). -/
theorem pages_recorded (g : Ghost) (p0 p1 : Coord) :
    let u := (g.command 0x2B).parameters 0x2B (coordBytes p0 p1)
    u.devWin = { g.devWin with p0 := p0, p1 := p1 } ∧ u.owed = none ∧ u.phase = g.phase ∧ u.devFmt = g.devFmt := by
  simp [Ghost.command, Ghost.parameters, Ghost.parameter, phaseAfter, devWinAfter, coordBytes, coordOfBytes_bytes]

/-- The record of INTERFACE_PIXEL_FORMAT on the wire (R161). -/
theorem format_recorded (g : Ghost) (b : Byte) :
    let u := (g.command 0x3A).parameters 0x3A [b]
    u.devWin = g.devWin ∧ u.owed = none ∧ u.phase = .formatSet ∧ u.devFmt = devFmtOf b := by
  simp [Ghost.command, Ghost.parameters, Ghost.parameter, devWinAfter]

/-- The record of `SetWindow` and the memory-write command (R173, R177). -/
theorem window_recorded (c0 c1 p0 p1 : Coord) (s : State) :
    (noteAll (windowTx c0 c1 p0 p1) s).ghost.devWin = { c0 := c0, c1 := c1, p0 := p0, p1 := p1 } ∧
    (noteAll (windowTx c0 c1 p0 p1) s).ghost.owed =
      some (windowCount { c0 := c0, c1 := c1, p0 := p0, p1 := p1 }) := by
  have hm := noteAll_wire 0x2C [] (noteAll (wireTx 0x2A ((coordBytes c0 c1).map wordOfByte)
    ++ wireTx 0x2B ((coordBytes p0 p1).map wordOfByte)) s) (.inr rfl)
  have hp := noteAll_wire 0x2B (coordBytes p0 p1) (noteAll (wireTx 0x2A ((coordBytes c0 c1).map wordOfByte)) s)
    (.inl (by decide))
  have hc := noteAll_wire 0x2A (coordBytes c0 c1) s (.inl (by decide))
  have e1 := (columns_recorded { s.ghost with mark := .raw } c0 c1).1
  rw [← hc] at e1
  have e2 := (pages_recorded { (noteAll (wireTx 0x2A ((coordBytes c0 c1).map wordOfByte)) s).ghost with mark := .raw } p0 p1).1
  rw [← hp] at e2
  rw [windowTx, noteAll_append]
  have hm' : (noteAll (wireTx 0x2C []) (noteAll (wireTx 0x2A ((coordBytes c0 c1).map wordOfByte)
    ++ wireTx 0x2B ((coordBytes p0 p1).map wordOfByte)) s)).ghost = _ := hm
  rw [hm', noteAll_append]
  simp only [Ghost.parameters, Ghost.command]
  rw [e2, e1]
  exact ⟨rfl, rfl⟩

/-! ## Pixel words -/

/-- The pixels that become complete with a burst of encoded words. -/
def pixelsOf (burst : List (Mark × Word)) : Nat :=
  (burst.map fun kv => match kv.1 with
    | .raw => 0
    | .pixels n => n).sum

/-- The words of the burst are words of the encoder. -/
def AllPixels (burst : List (Mark × Word)) : Prop := ∀ kv ∈ burst, ∃ n, kv.1 = .pixels n

theorem captureBurst_pixels (burst : List (Mark × Word)) (hb : AllPixels burst) {s : State} {k : Int}
    (ho : s.ghost.owed = some k) :
    (s.captureBurst .data burst).ghost.owed = some (k - pixelsOf burst) ∧
      (s.captureBurst .data burst).ghost.devWin = s.ghost.devWin := by
  induction burst generalizing s k with
  | nil => exact ⟨by simpa [pixelsOf, State.captureBurst] using ho, rfl⟩
  | cons kv rest ih =>
    obtain ⟨n, hn⟩ := hb kv List.mem_cons_self
    have hg : ((s.noteMark kv.1).capture .data (busWord s.cfg.width kv.2)).ghost =
        { s.ghost with mark := .pixels n, owed := some (k - n) } := by
      simp [State.capture, State.noteMark, Ghost.data, Ghost.pixelWord, ho, hn]
    obtain ⟨h1, h2⟩ := ih (fun kv h => hb kv (List.mem_cons_of_mem _ h))
      (s := (s.noteMark kv.1).capture .data (busWord s.cfg.width kv.2)) (k := k - n) (by rw [hg])
    refine ⟨?_, by rw [State.captureBurst, h2, hg]⟩
    rw [State.captureBurst, h1]
    simp only [pixelsOf, List.map_cons, hn, List.sum_cons]
    push_cast
    congr 1
    ring

theorem onePixelBurst_pixels {ws : List Word} (h : ws ≠ []) :
    AllPixels (onePixelBurst ws) ∧ pixelsOf (onePixelBurst ws) = 1 ∧ (onePixelBurst ws).map Prod.snd = ws := by
  induction ws with
  | nil => exact absurd rfl h
  | cons w ws ih =>
    rcases ws with _ | ⟨v, vs⟩
    · exact ⟨fun kv hk => ⟨1, by rw [List.mem_singleton.mp hk]⟩, rfl, rfl⟩
    · obtain ⟨a, b, c⟩ := ih (by simp)
      refine ⟨?_, ?_, ?_⟩
      · intro kv hk
        rcases List.mem_cons.mp hk with rfl | hk
        · exact ⟨0, rfl⟩
        · exact a kv hk
      · simpa [pixelsOf, onePixelBurst] using b
      · simpa [onePixelBurst] using c

/-- The pixels of a WRITE_PIXELS. -/
def pixelNumber : Option Pixel → Nat
  | none => 1
  | some _ => 2

theorem AllPixels.append {a b : List (Mark × Word)} (ha : AllPixels a) (hb : AllPixels b) : AllPixels (a ++ b) :=
  fun kv h => (List.mem_append.mp h).elim (ha kv) (hb kv)

theorem pixelsOf_append (a b : List (Mark × Word)) : pixelsOf (a ++ b) = pixelsOf a + pixelsOf b := by
  simp [pixelsOf]

/-- The burst of encoded pixels carries the encoder's words, and completes as many pixels as were encoded. -/
theorem pixelBurst_pixels {pack : Pack565} {fmt : PixFmt} {w : Width} {p1 : Pixel} {p2 : Option Pixel}
    {ws : List Word} (h : encodePixels pack fmt w p1 p2 = some ws) :
    AllPixels (pixelBurst fmt w p2 ws) ∧ pixelsOf (pixelBurst fmt w p2 ws) = pixelNumber p2 ∧
      (pixelBurst fmt w p2 ws).map Prod.snd = ws ∧ ws ≠ [] := by
  have two : ∀ (a b : List Word), a ≠ [] → b ≠ [] → a.length = b.length →
      AllPixels (onePixelBurst ((a ++ b).take ((a ++ b).length / 2)) ++ onePixelBurst ((a ++ b).drop ((a ++ b).length / 2))) ∧
      pixelsOf (onePixelBurst ((a ++ b).take ((a ++ b).length / 2)) ++ onePixelBurst ((a ++ b).drop ((a ++ b).length / 2))) = 2 ∧
      (onePixelBurst ((a ++ b).take ((a ++ b).length / 2)) ++ onePixelBurst ((a ++ b).drop ((a ++ b).length / 2))).map Prod.snd
        = a ++ b ∧ a ++ b ≠ [] := by
    intro a b ha hb hl
    have e : (a ++ b).length / 2 = a.length := by rw [List.length_append]; omega
    rw [e, List.take_left, List.drop_left]
    obtain ⟨a1, a2, a3⟩ := onePixelBurst_pixels ha
    obtain ⟨b1, b2, b3⟩ := onePixelBurst_pixels hb
    exact ⟨a1.append b1, by rw [pixelsOf_append, a2, b2], by rw [List.map_append, a3, b3], by simp [ha]⟩
  have three : ∀ (a b c : Word), AllPixels [(Mark.pixels 0, a), (Mark.pixels 1, b), (Mark.pixels 1, c)] := by
    intro a b c kv hk
    simp only [List.mem_cons, List.not_mem_nil, or_false] at hk
    rcases hk with rfl | rfl | rfl <;> exact ⟨_, rfl⟩
  rcases p2 with _ | q
  · have hne : ws ≠ [] := by
      cases pack <;> cases fmt <;> cases w <;>
        simp only [encodePixels, encodeOne, reduceCtorEq, Option.some.injEq] at h <;> subst h <;>
        simp [enc565w8, enc565w16, enc666w8, enc666w16, enc666w18]
    obtain ⟨a, b, c⟩ := onePixelBurst_pixels hne
    exact ⟨a, b, c, hne⟩
  · cases pack <;> cases fmt <;> cases w <;>
      simp only [encodePixels, encodeTwo, reduceCtorEq, Option.some.injEq] at h <;> subst h <;>
      first
      | exact ⟨three _ _ _, rfl, rfl, by simp [enc666w16Pair]⟩
      | (refine two _ _ ?_ ?_ ?_ <;>
          simp [enc565w8, enc565w16, enc666w8, enc666w18])

end Sys2Proof.Machine
end

