-- ==== Sys2Proof/Laws/Pixels.lean ====
section
/-! SUPPORT. What the pixel writer and the drawing sequences come to: undisturbed runs, and runs that are known to have
gone well. -/

namespace Sys2Proof.Machine

/-! ## Runs that went well were undisturbed -/

theorem runOps_going_quiet {err : Status} {ops : List MicroOp} {s t : State} (h : runOps err ops s = .going t)
    (hv : s.cfg.pinVariant = .bidirectional ∨ ∀ op ∈ ops, op.wantsInput = false) : s.quietFor (faultCalls ops) := by
  rcases hf : s.faults with _ | ⟨q, rest⟩
  · simp [State.quietFor, hf]
  · by_cases hlt : q < faultCalls ops
    · rw [runOps_abort err ops s q rest hf hlt hv] at h
      cases h
    · simpa [State.quietFor, hf] using hlt

theorem busWrite_going {m : Mode} {burst : List (Mark × Word)} {s t : State} (hs : s.Settled)
    (h : busWrite m burst s = .going t) : Sent [(m, burst)] s t := by
  have hq : s.quietFor (writeCost s.cfg burst.length) := by
    rw [← writeOps_faultCalls s.cfg m burst]
    exact runOps_going_quiet h (.inr fun op ho => (writeOps_readsNothing s.cfg m burst op ho).2)
  obtain ⟨u, hu, hsent, _⟩ := busWrite_sent m burst hs hq
  rw [h] at hu
  cases hu
  exact hsent

theorem Progress.bind_eq_going {p : Progress} {f : State → Progress} {t : State} (h : p.bind f = .going t) :
    ∃ u, p = .going u ∧ f u = .going t := by
  cases p with
  | going u => exact ⟨u, rfl, h⟩
  | raised e u => cases h
  | stalled u => cases h

theorem sendWire_going {opc : Byte} {params : List Byte} {s t : State} (hs : s.Settled)
    (h : sendWire opc params s = .going t) : Sent (wireTx opc (params.map wordOfByte)) s t := by
  have hb : (busWrite .command (rawBurst [wordOfByte opc]) s).bind
      (streamWrite .data params.length (params.map wordOfByte)) = .going t := by
    unfold sendWire sendCommand at h
    rcases hp : (busWrite .command (rawBurst [wordOfByte opc]) s).bind
      (streamWrite .data params.length (params.map wordOfByte)) with u | ⟨e, u⟩ | u <;> rw [hp] at h <;> cases h
    rfl
  obtain ⟨u, h1, h2⟩ := Progress.bind_eq_going hb
  rw [streamWrite, if_pos (by simp), List.take_of_length_le (by simp)] at h2
  have k1 := busWrite_going hs h1
  exact k1.trans (busWrite_going k1.settled h2)

theorem window_going {c0 c1 p0 p1 : Coord} {s t : State} (hs : s.Settled)
    (h : (setWindow c0 c1 p0 p1 s).bind (sendWire 0x2C []) = .going t) : Sent (windowTx c0 c1 p0 p1) s t := by
  obtain ⟨v, h1, h2⟩ := Progress.bind_eq_going h
  obtain ⟨u, h3, h4⟩ := Progress.bind_eq_going h1
  have k1 := sendWire_going hs h3
  have k2 := sendWire_going k1.settled h4
  exact (k1.trans k2).trans (sendWire_going k2.settled h2)

/-! ## The pixel writer -/

/-- The transaction of a WRITE_PIXELS (R120, R127). -/
def pixelTx (s : State) (p2 : Option Pixel) (ws : List Word) : Transaction :=
  (.data, pixelBurst s.pixFmt s.cfg.width p2 ws)

theorem pixelTx_congr {s t : State} (hp : t.pixFmt = s.pixFmt) (hc : t.cfg = s.cfg) (p2 : Option Pixel)
    (ws : List Word) : pixelTx t p2 ws = pixelTx s p2 ws := by rw [pixelTx, pixelTx, hp, hc]

theorem burst_length {burst : List (Mark × Word)} {ws : List Word} (h : burst.map Prod.snd = ws) :
    burst.length = ws.length := by simpa using congrArg List.length h

theorem burst_getLast? {burst : List (Mark × Word)} {ws : List Word} (h : burst.map Prod.snd = ws) {v : Word}
    (hv : ws.getLast? = some v) : ∃ m, burst.getLast? = some (m, v) := by
  subst h
  rcases hb : burst.getLast? with _ | ⟨m, w⟩
  · simp [List.getLast?_map, hb] at hv
  · simp [List.getLast?_map, hb] at hv
    exact ⟨m, by rw [hv]⟩

/-- WRITE_PIXELS in which nothing faults (R127). -/
theorem writePixelsOp_sent {p1 : Pixel} {p2 : Option Pixel} {ws : List Word} {s : State} (hs : s.Settled)
    (he : encodePixels s.cfg.pack565 s.pixFmt s.cfg.width p1 p2 = some ws)
    (hq : s.quietFor (writeCost s.cfg ws.length)) :
    ∃ t, writePixelsOp p1 p2 s = .going t ∧ Sent [pixelTx s p2 ws] s t ∧
      (s.cfg.isSerial = false → ∀ v, ws.getLast? = some v → AfterWrite .data v t) := by
  obtain ⟨_, _, hmap, _⟩ := pixelBurst_pixels he
  obtain ⟨t, h1, h2, h3⟩ := busWrite_sent .data (pixelBurst s.pixFmt s.cfg.width p2 ws) hs (by rwa [burst_length hmap])
  refine ⟨t, by rw [writePixelsOp, he]; exact h1, h2, fun hser v hv => ?_⟩
  obtain ⟨m, hm⟩ := burst_getLast? hmap hv
  exact h3 hser (m, v) hm

theorem writePixelsOp_going {p1 : Pixel} {p2 : Option Pixel} {s t : State} (hs : s.Settled)
    (h : writePixelsOp p1 p2 s = .going t) :
    ∃ ws, encodePixels s.cfg.pack565 s.pixFmt s.cfg.width p1 p2 = some ws ∧ Sent [pixelTx s p2 ws] s t := by
  unfold writePixelsOp at h
  split at h
  · cases h
  · rename_i ws he
    exact ⟨ws, he, busWrite_going hs h⟩

theorem pixelTx_stream {p1 : Pixel} {p2 : Option Pixel} {ws : List Word} {s : State}
    (he : encodePixels s.cfg.pack565 s.pixFmt s.cfg.width p1 p2 = some ws) :
    txStream s.cfg.width [pixelTx s p2 ws] = tagged .data ws := by
  obtain ⟨_, _, hmap, _⟩ := pixelBurst_pixels he
  have hfit := encodePixels_fits he
  have : (pixelBurst s.pixFmt s.cfg.width p2 ws).map (fun kv => busWord s.cfg.width kv.2) = ws := by
    rw [show (fun kv : Mark × Word => busWord s.cfg.width kv.2) = busWord s.cfg.width ∘ Prod.snd from rfl,
      ← List.map_map, hmap]
    exact (List.map_congr_left hfit).trans (List.map_id ws)
  simp [txStream, pixelTx, this]

theorem pixelTx_events {p1 : Pixel} {p2 : Option Pixel} {ws : List Word} {s : State}
    (he : encodePixels s.cfg.pack565 s.pixFmt s.cfg.width p1 p2 = some ws) :
    txEvents s.cfg [pixelTx s p2 ws] = writeEvents s.cfg .data ws := by
  obtain ⟨_, _, hmap, _⟩ := pixelBurst_pixels he
  simp [txEvents, pixelTx, hmap]

theorem pixelTx_cost {p1 : Pixel} {p2 : Option Pixel} {ws : List Word} {s : State}
    (he : encodePixels s.cfg.pack565 s.pixFmt s.cfg.width p1 p2 = some ws) :
    txCost s.cfg [pixelTx s p2 ws] = writeCost s.cfg ws.length := by
  obtain ⟨_, _, hmap, _⟩ := pixelBurst_pixels he
  simp [txCost, pixelTx, burst_length hmap]

/-! ## Repetition -/

theorem txCost_replicate (c : Config) (n : Nat) (tx : Transaction) :
    txCost c (List.replicate n tx) = n * txCost c [tx] := by
  simp [txCost]

theorem txEvents_replicate (c : Config) (n : Nat) (tx : Transaction) :
    txEvents c (List.replicate n tx) = (List.replicate n (txEvents c [tx])).flatten := by
  simp [txEvents, List.flatMap_def]

theorem txStream_replicate (w : Width) (n : Nat) (tx : Transaction) :
    txStream w (List.replicate n tx) = (List.replicate n (txStream w [tx])).flatten := by
  simp [txStream, List.flatMap_def]

/-- The same WRITE_PIXELS `n` times, in which nothing faults. -/
theorem repeatOp_writePixels_sent {p1 : Pixel} {p2 : Option Pixel} {ws : List Word} (n : Nat) {s : State}
    (hs : s.Settled) (he : encodePixels s.cfg.pack565 s.pixFmt s.cfg.width p1 p2 = some ws)
    (hq : s.quietFor (n * writeCost s.cfg ws.length)) :
    ∃ t, repeatOp (writePixelsOp p1 p2) n s = .going t ∧ Sent (List.replicate n (pixelTx s p2 ws)) s t := by
  induction n generalizing s with
  | zero => exact ⟨s, rfl, Sent.nil hs⟩
  | succ n ih =>
    obtain ⟨u, h1, h2, _⟩ := writePixelsOp_sent hs he (State.quietFor_mono hq (by rw [Nat.succ_mul]; omega))
    have hp : u.pixFmt = s.pixFmt := h2.core.pixFmt
    have hc : u.cfg = s.cfg := h2.core.cfg
    obtain ⟨t, k1, k2⟩ := ih (s := u) h2.settled (by rw [hp, hc]; exact he) (by
      rw [hc]
      refine h2.quiet ?_
      rw [pixelTx_cost he]
      exact State.quietFor_mono hq (by rw [Nat.succ_mul]; omega))
    rw [pixelTx_congr hp hc] at k2
    exact ⟨t, by rw [repeatOp, h1, Progress.bind_going, k1], by rw [List.replicate_succ]; exact h2.trans k2⟩

theorem repeatOp_writePixels_going {p1 : Pixel} {p2 : Option Pixel} {ws : List Word} (n : Nat) {s t : State}
    (hs : s.Settled) (he : encodePixels s.cfg.pack565 s.pixFmt s.cfg.width p1 p2 = some ws)
    (h : repeatOp (writePixelsOp p1 p2) n s = .going t) : Sent (List.replicate n (pixelTx s p2 ws)) s t := by
  induction n generalizing s with
  | zero =>
    cases h
    exact Sent.nil hs
  | succ n ih =>
    obtain ⟨u, h1, h2⟩ := Progress.bind_eq_going h
    obtain ⟨ws', he', k⟩ := writePixelsOp_going hs h1
    obtain rfl : ws' = ws := Option.some.inj (he'.symm.trans he)
    have hp : u.pixFmt = s.pixFmt := k.core.pixFmt
    have hc : u.cfg = s.cfg := k.core.cfg
    have k2 := ih (s := u) k.settled (by rw [hp, hc]; exact he) h2
    rw [pixelTx_congr hp hc] at k2
    rw [List.replicate_succ]
    exact k.trans k2

/-- The transactions of `n` pixels of one colour, two at a time (R175, R176). -/
def fillTx (s : State) (p1 : Pixel) (n : Nat) (pair one : List Word) : List Transaction :=
  List.replicate (n / 2) (pixelTx s (some p1) pair) ++ List.replicate (n % 2) (pixelTx s none one)

/-- `n` pixels of one colour, in which nothing faults (R175, R176, R80). -/
theorem fillPixels_sent {p1 : Pixel} {pair one : List Word} (n : Nat) {s : State} (hs : s.Settled)
    (hp : encodePixels s.cfg.pack565 s.pixFmt s.cfg.width p1 (some p1) = some pair)
    (h1 : encodePixels s.cfg.pack565 s.pixFmt s.cfg.width p1 none = some one)
    (hq : s.quietFor (n / 2 * writeCost s.cfg pair.length + n % 2 * writeCost s.cfg one.length)) :
    ∃ t, fillPixels p1 n s = .going t ∧ Sent (fillTx s p1 n pair one) s t := by
  obtain ⟨u, a, b⟩ := repeatOp_writePixels_sent (n / 2) hs hp (State.quietFor_mono hq (Nat.le_add_right _ _))
  have ht : u.pixFmt = s.pixFmt := b.core.pixFmt
  have hc : u.cfg = s.cfg := b.core.cfg
  rcases Nat.mod_two_eq_zero_or_one n with h | h
  · exact ⟨u, by rw [fillPixels, a, Progress.bind_going, if_neg (by omega)], by simpa [fillTx, h] using b⟩
  · obtain ⟨t, c, d, _⟩ := writePixelsOp_sent (s := u) (p1 := p1) (p2 := none) (ws := one) b.settled
      (by rw [ht, hc]; exact h1) (by
        rw [hc]
        refine b.quiet ?_
        rw [txCost_replicate, pixelTx_cost hp]
        simpa [h] using hq)
    rw [pixelTx_congr ht hc] at d
    exact ⟨t, by rw [fillPixels, a, Progress.bind_going, if_pos h, c], by simpa [fillTx, h] using b.trans d⟩

theorem fillPixels_going {p1 : Pixel} {pair one : List Word} (n : Nat) {s t : State} (hs : s.Settled)
    (hp : encodePixels s.cfg.pack565 s.pixFmt s.cfg.width p1 (some p1) = some pair)
    (h1 : encodePixels s.cfg.pack565 s.pixFmt s.cfg.width p1 none = some one)
    (h : fillPixels p1 n s = .going t) : Sent (fillTx s p1 n pair one) s t := by
  obtain ⟨u, a, b⟩ := Progress.bind_eq_going h
  have k := repeatOp_writePixels_going (n / 2) hs hp a
  have ht : u.pixFmt = s.pixFmt := k.core.pixFmt
  have hc : u.cfg = s.cfg := k.core.cfg
  rcases Nat.mod_two_eq_zero_or_one n with hn | hn
  · rw [if_neg (by omega)] at b
    cases b
    simpa [fillTx, hn] using k
  · rw [if_pos hn] at b
    obtain ⟨ws, he, d⟩ := writePixelsOp_going k.settled b
    rw [ht, hc, h1] at he
    cases he
    rw [pixelTx_congr ht hc] at d
    simpa [fillTx, hn] using k.trans d

theorem fillTx_stream {p1 : Pixel} {pair one : List Word} {s : State} (n : Nat)
    (hp : encodePixels s.cfg.pack565 s.pixFmt s.cfg.width p1 (some p1) = some pair)
    (h1 : encodePixels s.cfg.pack565 s.pixFmt s.cfg.width p1 none = some one) :
    txStream s.cfg.width (fillTx s p1 n pair one) =
      tagged .data ((List.replicate (n / 2) pair).flatten ++ (List.replicate (n % 2) one).flatten) := by
  rw [fillTx, txStream_append, txStream_replicate, txStream_replicate, pixelTx_stream hp, pixelTx_stream h1]
  simp [tagged, List.map_flatten]

theorem fillTx_events {p1 : Pixel} {pair one : List Word} {s : State} (n : Nat)
    (hp : encodePixels s.cfg.pack565 s.pixFmt s.cfg.width p1 (some p1) = some pair)
    (h1 : encodePixels s.cfg.pack565 s.pixFmt s.cfg.width p1 none = some one) :
    txEvents s.cfg (fillTx s p1 n pair one) =
      (List.replicate (n / 2) (writeEvents s.cfg .data pair)).flatten
        ++ (List.replicate (n % 2) (writeEvents s.cfg .data one)).flatten := by
  rw [fillTx, txEvents_append, txEvents_replicate, txEvents_replicate, pixelTx_events hp, pixelTx_events h1]

theorem windowTx_events (c : Config) (c0 c1 p0 p1 : Coord) :
    txEvents c (windowTx c0 c1 p0 p1) =
      wireEvents c 0x2A (coordBytes c0 c1) ++ wireEvents c 0x2B (coordBytes p0 p1) ++ wireEvents c 0x2C [] := by
  have h := wireTx_events c 0x2C []
  rw [List.map_nil] at h
  rw [windowTx, txEvents_append, txEvents_append, wireTx_events, wireTx_events, h]

/-! ## Rectangles -/

/-- The end coordinate of a span that fits (R79). -/
theorem spanEnd_eq {x w x1 : Coord} (hw : w ≠ 0) (h : x1.toNat = x.toNat + w.toNat - 1) :
    spanEnd x w = x1 ∧ spanOverflows x w = false := by
  have hw : w.toNat ≠ 0 := fun h => hw (BitVec.eq_of_toNat_eq h)
  have h1 := x1.isLt
  have h0 := x.isLt
  constructor
  · apply BitVec.eq_of_toNat_eq
    rw [h]
    simp [spanEnd]
    omega
  · simp [spanOverflows]
    omega

/-- The work of DRAW_RECT in which nothing faults (R175, R177). -/
theorem fillRectangle_sent {x y w h : Coord} {p1 : Pixel} {pair one : List Word} {s : State} (hs : s.Settled)
    (hp : encodePixels s.cfg.pack565 s.pixFmt s.cfg.width p1 (some p1) = some pair)
    (h1 : encodePixels s.cfg.pack565 s.pixFmt s.cfg.width p1 none = some one)
    (hq : s.quietFor (windowCost s.cfg + (pixelCount w h / 2 * writeCost s.cfg pair.length
      + pixelCount w h % 2 * writeCost s.cfg one.length))) :
    ∃ t, fillRectangle x y w h p1 s = .going t ∧
      Sent (windowTx x (spanEnd x w) y (spanEnd y h) ++ fillTx s p1 (pixelCount w h) pair one) s t := by
  obtain ⟨u, w1, w2⟩ :=
    window_sent x (spanEnd x w) y (spanEnd y h) hs (State.quietFor_mono hq (Nat.le_add_right _ _))
  have hf : u.pixFmt = s.pixFmt := w2.core.pixFmt
  have hc : u.cfg = s.cfg := w2.core.cfg
  obtain ⟨t, a, b⟩ := fillPixels_sent (s := u) (p1 := p1) (pair := pair) (one := one) (pixelCount w h) w2.settled
    (by rw [hf, hc]; exact hp) (by rw [hf, hc]; exact h1) (by
      rw [hc]
      refine w2.quiet ?_
      rw [windowTx_cost]
      exact hq)
  refine ⟨t, by rw [fillRectangle, w1, Progress.bind_going, a], w2.trans ?_⟩
  have hfill : fillTx u p1 (pixelCount w h) pair one = fillTx s p1 (pixelCount w h) pair one := by
    simp only [fillTx, pixelTx_congr hf hc]
  rwa [hfill] at b

/-! ## The pixels owed -/

theorem noteAll_pixels (txs : List Transaction) (n : Nat) (hb : ∀ tx ∈ txs, tx.1 = .data ∧ AllPixels tx.2 ∧ pixelsOf tx.2 = n)
    {s : State} {k : Int} (ho : s.ghost.owed = some k) :
    (noteAll txs s).ghost.owed = some (k - n * txs.length) ∧ (noteAll txs s).ghost.devWin = s.ghost.devWin := by
  induction txs generalizing s k with
  | nil => exact ⟨by simpa using ho, rfl⟩
  | cons tx txs ih =>
    obtain ⟨h1, h2, h3⟩ := hb tx List.mem_cons_self
    obtain ⟨a, b⟩ := captureBurst_pixels tx.2 h2 ho
    rw [noteAll_cons, h1]
    obtain ⟨c, d⟩ := ih (fun tx h => hb tx (List.mem_cons_of_mem _ h)) a
    refine ⟨?_, d.trans b⟩
    rw [c, h3, List.length_cons]
    push_cast
    congr 1
    ring

theorem fillTx_recorded {p1 : Pixel} {pair one : List Word} (n : Nat) {s : State}
    (hp : encodePixels s.cfg.pack565 s.pixFmt s.cfg.width p1 (some p1) = some pair)
    (h1 : encodePixels s.cfg.pack565 s.pixFmt s.cfg.width p1 none = some one) {u : State} {k : Int}
    (ho : u.ghost.owed = some k) :
    (noteAll (fillTx s p1 n pair one) u).ghost.owed = some (k - n) ∧
      (noteAll (fillTx s p1 n pair one) u).ghost.devWin = u.ghost.devWin := by
  obtain ⟨a1, a2, _, _⟩ := pixelBurst_pixels hp
  obtain ⟨b1, b2, _, _⟩ := pixelBurst_pixels h1
  obtain ⟨c1, c2⟩ := noteAll_pixels (List.replicate (n / 2) (pixelTx s (some p1) pair)) 2
    (fun tx h => by rw [List.eq_of_mem_replicate h]; exact ⟨rfl, a1, a2⟩) ho
  obtain ⟨d1, d2⟩ := noteAll_pixels (List.replicate (n % 2) (pixelTx s none one)) 1
    (fun tx h => by rw [List.eq_of_mem_replicate h]; exact ⟨rfl, b1, b2⟩) c1
  rw [fillTx, noteAll_append]
  refine ⟨?_, d2.trans c2⟩
  rw [d1]
  simp only [List.length_replicate]
  congr 1
  push_cast
  omega

end Sys2Proof.Machine
end

