-- ==== Sys2Proof/Laws/Released.lean ====
section
/-! SUPPORT. A request that starts while an aborted write left WRX low with the device selected (log 17): undisturbed, it
runs as from the state in which that pulse was completed first, so that what is said of settled states says what it
does. -/

namespace Sys2Proof.Machine

/-- The state with a write pulse that was left half done completed; a settled state is left as it is. -/
def State.released (s : State) : State :=
  if s.pulseHalfDone then { s.capture (modeOfLevel s.dcx) (busWord s.cfg.width s.dout) with wrx := true } else s

theorem State.released_of_settled {s : State} (h : s.Settled) : s.released = s := by
  rw [State.released, h]
  rfl

theorem State.leftWord_of_settled {s : State} (h : s.Settled) : s.leftWord = [] := by
  rw [State.leftWord, h]
  rfl

theorem State.released_settled (s : State) : s.released.Settled := by
  by_cases h : s.pulseHalfDone = true
  · rw [State.released, if_pos h]
    exact State.settled_of_wrx rfl
  · rw [State.released, if_neg h]
    exact Bool.eq_false_iff.mpr h

theorem State.released_sameCore (s : State) : SameCore s s.released ∧ SameInputs s s.released := by
  by_cases h : s.pulseHalfDone = true
  · rw [State.released, if_pos h]
    cases modeOfLevel s.dcx <;> exact ⟨by constructor <;> rfl, by constructor <;> rfl⟩
  · rw [State.released, if_neg h]
    exact ⟨.refl s, .refl s⟩

/-- What else is as it was: only the captured words, the monitor's notes and WRX are not. -/
theorem State.released_frame (s : State) :
    s.released.faults = s.faults ∧ s.released.trace = s.trace ∧ s.released.cs = s.cs ∧ s.released.dcx = s.dcx ∧
      s.released.rdx = s.rdx ∧ s.released.resx = s.resx ∧ s.released.dout = s.dout ∧ s.released.ddir = s.ddir := by
  by_cases h : s.pulseHalfDone = true
  · rw [State.released, if_pos h]
    cases modeOfLevel s.dcx <;> exact ⟨rfl, rfl, rfl, rfl, rfl, rfl, rfl, rfl⟩
  · rw [State.released, if_neg h]
    exact ⟨rfl, rfl, rfl, rfl, rfl, rfl, rfl, rfl⟩

@[simp] theorem State.released_cfg (s : State) : s.released.cfg = s.cfg := s.released_sameCore.1.cfg
@[simp] theorem State.released_pixFmt (s : State) : s.released.pixFmt = s.pixFmt := s.released_sameCore.1.pixFmt
@[simp] theorem State.released_inited (s : State) : s.released.inited = s.inited := s.released_sameCore.1.inited
@[simp] theorem State.released_plWords (s : State) : s.released.plWords = s.plWords := s.released_sameCore.1.plWords
@[simp] theorem State.released_rdMore (s : State) : s.released.rdMore = s.rdMore := s.released_sameCore.1.rdMore
@[simp] theorem State.released_levels (s : State) : s.released.levels = s.levels := s.released_sameCore.2.levels
@[simp] theorem State.released_faults (s : State) : s.released.faults = s.faults := s.released_frame.1
@[simp] theorem State.released_trace (s : State) : s.released.trace = s.trace := s.released_frame.2.1
@[simp] theorem State.released_dout (s : State) : s.released.dout = s.dout := s.released_frame.2.2.2.2.2.2.1
@[simp] theorem State.released_ddir (s : State) : s.released.ddir = s.ddir := s.released_frame.2.2.2.2.2.2.2

@[simp] theorem State.released_events (s : State) : s.released.events = s.events := by simp [State.events]

@[simp] theorem State.released_quietFor (s : State) (n : Nat) : s.released.quietFor n = s.quietFor n := by
  simp [State.quietFor]

/-- The pulse that is completed makes the device capture the word left on the data pins (R11). -/
@[simp] theorem State.released_stream (s : State) : s.released.stream = s.stream ++ s.leftWord := by
  by_cases h : s.pulseHalfDone = true
  · rw [State.released, State.leftWord, if_pos h, if_pos h]
    cases modeOfLevel s.dcx <;> simp [State.stream, State.capture]
  · rw [State.released, State.leftWord, if_neg h, if_neg h, List.append_nil]

/-- The registers are those of the state as it was. -/
theorem State.KeepsRegisters.of_released {s t : State} (h : s.released.KeepsRegisters t) : s.KeepsRegisters t := by
  have hc := s.released_sameCore.1
  have hi := s.released_sameCore.2
  obtain ⟨a, b, c, d, e, f, g, i, j⟩ := h
  exact ⟨a.trans hc.cfg, b.trans hc.pixFmt, c.trans hc.inited, d.trans hc.lat, e.trans hc.enc,
    f.trans s.released_frame.2.2.2.2.2.1, g.trans hi.rdWords, i.trans hi.levels, j.trans hc.pending⟩

/-! ## The first two sets of a transaction complete the pulse -/

theorem applyOps_rise (s : State) (hp : s.cfg.isSerial = false) :
    applyOps [.set .rdx true, .set .wrx true] s.released = applyOps [.set .rdx true, .set .wrx true] s := by
  by_cases h : s.pulseHalfDone = true
  · rw [State.released, if_pos h]
    have h' : (true && !s.wrx && !s.cs) = true := by
      simp only [State.pulseHalfDone, hp, Bool.not_false, Bool.true_and] at h
      rw [Bool.true_and, Bool.and_comm, h]
    simp only [applyOps_cons, applyOps_nil, MicroOp.effect, State.setPin, State.emit]
    rw [if_pos h', if_neg (by simp)]
    cases modeOfLevel s.dcx <;> rfl
  · rw [State.released, if_neg h]

theorem applyOps_clear_rise (s : State) (hp : s.cfg.isSerial = false) :
    applyOps [.clearSamples, .set .rdx true, .set .wrx true] s.released =
      applyOps [.clearSamples, .set .rdx true, .set .wrx true] s := by
  have h := applyOps_rise s.clearSamples hp
  have hr : s.released.clearSamples = s.clearSamples.released := by
    have hh : s.clearSamples.pulseHalfDone = s.pulseHalfDone := rfl
    rw [State.released, State.released, hh]
    split
    · change ({ s.capture (modeOfLevel s.dcx) (busWord s.cfg.width s.dout) with wrx := true } : State).clearSamples =
        { s.clearSamples.capture (modeOfLevel s.dcx) (busWord s.cfg.width s.dout) with wrx := true }
      cases modeOfLevel s.dcx <;> rfl
    · rfl
  change applyOps [.set .rdx true, .set .wrx true] s.released.clearSamples = _
  rw [hr, h]
  rfl

/-- Micro-operations that begin with steps which complete the pulse, and which do not fault, run the same from the state
in which it was completed before. -/
theorem runOps_released {err : Status} {pre rest : List MicroOp} {s : State}
    (hp : applyOps pre s.released = applyOps pre s) (hw : ∀ op ∈ pre, op.wantsInput = false)
    (hq : s.quietFor (faultCalls pre)) : runOps err (pre ++ rest) s.released = runOps err (pre ++ rest) s := by
  rw [runOps_append, runOps_append, runOps_quiet err pre s hq (.inr hw),
    runOps_quiet err pre s.released (by simpa using hq) (.inr hw), hp, State.released_faults]

theorem writeOps_opening (c : Config) (m : Mode) {burst : List (Mark × Word)} (hb : burst ≠ [])
    (hp : c.isSerial = false) : ∃ rest, writeOps c m burst = [.set .rdx true, .set .wrx true] ++ rest := by
  rcases burst with _ | ⟨kv, burst⟩
  · exact absurd rfl hb
  · exact ⟨_, by simp only [writeOps, hp, writeWords, openWrite, List.isEmpty_cons, Bool.false_eq_true, if_false]; rfl⟩

theorem readOps_opening (c : Config) (k : Nat) (hp : c.isSerial = false) :
    ∃ rest, readOps c k = [.clearSamples, .set .rdx true, .set .wrx true] ++ rest :=
  ⟨_, by simp only [readOps, hp, readSamples, openRead, Bool.false_eq_true, if_false]; rfl⟩

theorem two_le_writeCost {c : Config} {n : Nat} (hn : n ≠ 0) (hp : c.isSerial = false) : 2 ≤ writeCost c n := by
  simp [writeCost, hn, hp]
  omega

theorem applyOps_readOps_released (k : Nat) (s : State) :
    applyOps (readOps s.cfg k) s.released = applyOps (readOps s.cfg k) s := by
  cases hp : s.cfg.isSerial
  · obtain ⟨rest, hr⟩ := readOps_opening s.cfg k hp
    rw [hr, applyOps_append, applyOps_append, applyOps_clear_rise s hp]
  · rw [State.released_of_settled (State.settled_of_serial hp)]

theorem busWrite_released (m : Mode) {burst : List (Mark × Word)} {s : State} (hb : burst ≠ [])
    (hq : s.quietFor (writeCost s.cfg burst.length)) : busWrite m burst s.released = busWrite m burst s := by
  cases hp : s.cfg.isSerial
  · obtain ⟨rest, hr⟩ := writeOps_opening s.cfg m hb hp
    rw [busWrite, busWrite, State.released_cfg, hr]
    refine runOps_released (applyOps_rise s hp) (by simp [MicroOp.wantsInput]) (State.quietFor_mono hq ?_)
    exact two_le_writeCost (fun h => hb (List.length_eq_zero_iff.mp h)) hp
  · rw [State.released_of_settled (State.settled_of_serial hp)]

theorem busWrite_going_released {m : Mode} {burst : List (Mark × Word)} {s t : State} (hb : burst ≠ [])
    (h : busWrite m burst s = .going t) : busWrite m burst s.released = .going t := by
  rw [busWrite_released m hb, h]
  rw [← writeOps_faultCalls s.cfg m burst]
  exact runOps_going_quiet h (.inr fun op ho => (writeOps_readsNothing s.cfg m burst op ho).2)

theorem busRead_released (k : Nat) {s : State} (hq : s.quietFor (readCost s.cfg k)) :
    busRead k s.released = busRead k s := by
  cases hp : s.cfg.isSerial
  · obtain ⟨rest, hr⟩ := readOps_opening s.cfg k hp
    rw [busRead, busRead, State.released_cfg, hr]
    refine runOps_released (applyOps_clear_rise s hp) (by simp [MicroOp.wantsInput]) (State.quietFor_mono hq ?_)
    have : faultCalls [.clearSamples, .set .rdx true, .set .wrx true] = 2 := rfl
    rw [this]
    simp [readCost, hp]
    omega
  · rw [State.released_of_settled (State.settled_of_serial hp)]

/-! ## The sequences that begin with a transaction -/

theorem opcode_burst (opc : Byte) : rawBurst [wordOfByte opc] ≠ [] := by simp [rawBurst]

theorem sendCommand_released (opc : Byte) (n : Nat) (elems : List Word) {s : State}
    (hq : s.quietFor (writeCost s.cfg 1)) : sendCommand opc n elems s.released = sendCommand opc n elems s := by
  rw [sendCommand, sendCommand, busWrite_released .command (opcode_burst opc) hq]

theorem sendWire_released (opc : Byte) (params : List Byte) {s : State} (hq : s.quietFor (writeCost s.cfg 1)) :
    sendWire opc params s.released = sendWire opc params s := sendCommand_released opc _ _ hq

theorem sendWire_going_released {opc : Byte} {params : List Byte} {s t : State} (h : sendWire opc params s = .going t) :
    sendWire opc params s.released = .going t := by
  have hq : s.quietFor (writeCost s.cfg 1) := by
    rcases hb : busWrite .command (rawBurst [wordOfByte opc]) s with u | ⟨e, u⟩ | u
    · have := runOps_going_quiet hb (.inr fun op ho => (writeOps_readsNothing s.cfg .command _ op ho).2)
      rwa [writeOps_faultCalls] at this
    · rw [sendWire, sendCommand, hb] at h
      cases h
    · rw [sendWire, sendCommand, hb] at h
      cases h
  rw [sendWire_released opc params hq, h]

theorem window_going_released {c0 c1 p0 p1 : Coord} {s t : State}
    (h : (setWindow c0 c1 p0 p1 s).bind (sendWire 0x2C []) = .going t) :
    (setWindow c0 c1 p0 p1 s.released).bind (sendWire 0x2C []) = .going t := by
  obtain ⟨v, h1, h2⟩ := Progress.bind_eq_going h
  obtain ⟨u, h3, h4⟩ := Progress.bind_eq_going h1
  rw [setWindow, sendWire_going_released h3, Progress.bind_going, h4, Progress.bind_going, h2]

theorem setWindow_released (c0 c1 p0 p1 : Coord) {s : State} (hq : s.quietFor (writeCost s.cfg 1)) :
    setWindow c0 c1 p0 p1 s.released = setWindow c0 c1 p0 p1 s := by
  rw [setWindow, setWindow, sendWire_released _ _ hq]

theorem setFormat_released {fmt : BitVec 3} {f : Byte × PixFmt} (hf : formatOf fmt = some f) {s : State}
    (hq : s.quietFor (writeCost s.cfg 1)) : setFormat fmt s.released = setFormat fmt s := by
  rw [setFormat, setFormat, hf]
  simp only [sendWire_released _ _ hq]

theorem writePixelsOp_released {p1 : Pixel} {p2 : Option Pixel} {ws : List Word} {s : State}
    (he : encodePixels s.cfg.pack565 s.pixFmt s.cfg.width p1 p2 = some ws)
    (hq : s.quietFor (writeCost s.cfg ws.length)) : writePixelsOp p1 p2 s.released = writePixelsOp p1 p2 s := by
  obtain ⟨_, _, hmap, hne⟩ := pixelBurst_pixels he
  have hb : pixelBurst s.pixFmt s.cfg.width p2 ws ≠ [] := fun h => hne (by rw [← hmap, h]; rfl)
  simp only [writePixelsOp, State.released_cfg, State.released_pixFmt, he]
  exact busWrite_released .data hb (by rwa [burst_length hmap])

theorem quietFor_wire {s : State} {n : Nat} (hq : s.quietFor (wireCost s.cfg n)) : s.quietFor (writeCost s.cfg 1) :=
  State.quietFor_mono hq (Nat.le_add_right _ _)

theorem quietFor_window {s : State} (hq : s.quietFor (windowCost s.cfg)) : s.quietFor (writeCost s.cfg 1) :=
  State.quietFor_mono hq (by simp only [windowCost, wireCost]; omega)

end Sys2Proof.Machine
end

