-- ==== Sys2Proof/Laws/Aborts.lean ====
section
/-! SUPPORT. What a transaction that a pin fault aborts has done (R110): the events before the fault, and the lines those
events make. -/

namespace Sys2Proof.Machine

/-- The micro-operation is a delay, the one event that asks no pin. -/
def MicroOp.isDelay : MicroOp → Bool
  | .delay _ => true
  | _ => false

/-- A micro-operation that is no delay tells one event when it asks the pin provider and none when it does not, and makes
of the lines what that event says (R11). -/
theorem MicroOp.effect_told {op : MicroOp} (h : op.isDelay = false) (s : State) :
    ∃ es, (op.effect s).events = s.events ++ es ∧ es.length = (if op.mayFault then 1 else 0) ∧
      (op.effect s).lines = es.foldl (Lines.after s.cfg.width) s.lines := by
  have hl : (op.effect s).trace.length = s.trace.length + (if op.mayFault then 1 else 0) := by
    cases op <;>
      simp_all [MicroOp.effect, MicroOp.mayFault, MicroOp.isDelay, State.captureBurst_trace, State.senseSamples_trace]
  obtain ⟨new, h1, h2⟩ := op.effect_lines s
  refine ⟨new.reverse, by simp [State.events, h1], ?_, by rw [h2, List.foldl_reverse]⟩
  rw [h1, List.length_append] at hl
  rw [List.length_reverse]
  omega

/-- Micro-operations without a delay make of the lines what their events say (R11). -/
theorem applyOps_told {ops : List MicroOp} (h : ∀ op ∈ ops, op.isDelay = false) (s : State) :
    ∃ es, (applyOps ops s).events = s.events ++ es ∧
      (applyOps ops s).lines = es.foldl (Lines.after s.cfg.width) s.lines := by
  induction ops generalizing s with
  | nil => exact ⟨[], by simp, rfl⟩
  | cons op ops ih =>
    obtain ⟨e1, a1, _, a3⟩ := MicroOp.effect_told (h op List.mem_cons_self) s
    obtain ⟨e2, b1, b2⟩ := ih (fun o m => h o (List.mem_cons_of_mem _ m)) (op.effect s)
    exact ⟨e1 ++ e2, by rw [applyOps_cons, b1, a1, List.append_assoc], by
      rw [applyOps_cons, b2, a3, MicroOp.effect_cfg, List.foldl_append]⟩

/-- Micro-operations without a delay, and those before pin operation number `q` among them: the events of the second are
the first `q` events of the first, and the lines are what those events make (R110). -/
theorem opsBefore_told {ops : List MicroOp} (h : ∀ op ∈ ops, op.isDelay = false) (q : Nat) (s : State) :
    ∃ es, (applyOps ops s).events = s.events ++ es ∧
      (applyOps (opsBefore q ops) s).events = s.events ++ es.take q ∧
      (applyOps (opsBefore q ops) s).lines = (es.take q).foldl (Lines.after s.cfg.width) s.lines := by
  induction ops generalizing s q with
  | nil => exact ⟨[], by simp, by simp [opsBefore], by simp [opsBefore]⟩
  | cons op ops ih =>
    have hrest : ∀ o ∈ ops, o.isDelay = false := fun o m => h o (List.mem_cons_of_mem _ m)
    obtain ⟨e1, a1, a2, a3⟩ := MicroOp.effect_told (h op List.mem_cons_self) s
    by_cases hm : op.mayFault = true
    · rw [if_pos hm] at a2
      obtain ⟨e, rfl⟩ := List.length_eq_one_iff.mp a2
      rcases q with _ | q
      · obtain ⟨e2, b1, _, _⟩ := ih hrest 0 (op.effect s)
        have hb : opsBefore 0 (op :: ops) = [] := by rw [opsBefore, if_pos hm]
        exact ⟨[e] ++ e2, by rw [applyOps_cons, b1, a1, List.append_assoc], by simp [hb], by simp [hb]⟩
      · obtain ⟨e2, b1, b2, b3⟩ := ih hrest q (op.effect s)
        have hb : opsBefore (q + 1) (op :: ops) = op :: opsBefore q ops := by rw [opsBefore, if_pos hm]
        refine ⟨[e] ++ e2, by rw [applyOps_cons, b1, a1, List.append_assoc], ?_, ?_⟩
        · rw [hb, applyOps_cons, b2, a1, List.append_assoc]
          rfl
        · rw [hb, applyOps_cons, b3, a3, MicroOp.effect_cfg]
          rfl
    · rw [if_neg hm, List.length_eq_zero_iff] at a2
      subst a2
      obtain ⟨e2, b1, b2, b3⟩ := ih hrest q (op.effect s)
      have hb : opsBefore q (op :: ops) = op :: opsBefore q ops := by
        rw [opsBefore.eq_def]
        exact if_neg hm
      rw [List.append_nil] at a1
      exact ⟨e2, by rw [applyOps_cons, b1, a1], by rw [hb, applyOps_cons, b2, a1], by
        rw [hb, applyOps_cons, b3, a3, MicroOp.effect_cfg]
        rfl⟩

theorem opsBefore_mem (q : Nat) (ops : List MicroOp) : ∀ op ∈ opsBefore q ops, op ∈ ops := by
  induction ops generalizing q with
  | nil => simp [opsBefore]
  | cons op ops ih =>
    intro o ho
    rw [opsBefore.eq_def] at ho
    simp only at ho
    split at ho
    · rcases q with _ | q
      · simp at ho
      · exact (List.mem_cons.mp ho).elim (fun h => by simp [h]) fun h => List.mem_cons_of_mem _ (ih _ _ h)
    · exact (List.mem_cons.mp ho).elim (fun h => by simp [h]) fun h => List.mem_cons_of_mem _ (ih _ _ h)

/-- A fault among the first pin operations depends on those only. -/
theorem opsBefore_append {q : Nat} (a b : List MicroOp) (h : q < faultCalls a) :
    opsBefore q (a ++ b) = opsBefore q a := by
  induction a generalizing q with
  | nil => simp at h
  | cons op a ih =>
    rw [faultCalls_cons] at h
    rw [List.cons_append, opsBefore.eq_def, opsBefore.eq_def]
    simp only
    split <;> rename_i hm
    · rw [if_pos hm] at h
      rcases q with _ | q
      · rfl
      · exact congrArg (op :: ·) (ih (by omega))
    · rw [if_neg hm] at h
      rw [ih (by omega)]

/-- `RESX` is only set by the reset pulse. -/
theorem applyOps_resx {ops : List MicroOp} (h : ∀ op ∈ ops, op.notReset = true) (s : State) :
    (applyOps ops s).resx = s.resx := by
  induction ops generalizing s with
  | nil => rfl
  | cons op ops ih =>
    rw [applyOps_cons, ih (fun o m => h o (List.mem_cons_of_mem _ m)),
      MicroOp.effect_resx (h op List.mem_cons_self)]

theorem writeOps_noDelay (c : Config) (m : Mode) (burst : List (Mark × Word)) :
    ∀ op ∈ writeOps c m burst, op.isDelay = false ∧ op.notReset = true := by
  intro op h
  have hk := (writeOps_kind c m burst op h).1
  refine ⟨?_, MicroOp.notReset_of_isWrite op hk⟩
  unfold writeOps at h
  split at h
  · simp at h
  · split at h
    · simp only [List.mem_singleton] at h
      subst h
      rfl
    · simp only [writeWords, openWrite, closeWrite, sendWord, driveWord, List.mem_append, List.mem_cons,
        List.not_mem_nil, or_false, List.mem_flatMap] at h
      rcases h with ((rfl | rfl | rfl | rfl) | ⟨kv, _, rfl | ⟨i, _, rfl | rfl⟩ | rfl | rfl⟩) | rfl | rfl | rfl <;> rfl

theorem readOps_noDelay (c : Config) (k : Nat) :
    ∀ op ∈ readOps c k, op.isDelay = false ∧ op.notReset = true := by
  intro op h
  refine ⟨?_, (readOps_kind c k op h).1⟩
  rw [readOps, List.mem_cons] at h
  rcases h with rfl | h
  · rfl
  · split at h
    · rw [List.mem_singleton] at h
      subst h
      rfl
    · simp only [readSamples, openRead, readSample, closeRead, List.mem_append, List.mem_cons, List.mem_map,
        List.mem_flatten, List.mem_replicate, List.not_mem_nil, or_false] at h
      rcases h with (((rfl | rfl | rfl | rfl) | ⟨i, _, rfl⟩) | ⟨l, ⟨_, rfl⟩, h⟩) | rfl | rfl | rfl
      all_goals try rfl
      simp only [List.mem_cons, List.mem_append, List.mem_map, List.not_mem_nil, or_false] at h
      rcases h with rfl | ⟨i, _, rfl⟩ | rfl | rfl <;> rfl

/-- What an aborted transaction has done: `es` are the events before the fault. -/
structure Aborted (es : List Event) (rest : List Nat) (s t : State) : Prop where
  core : SameCore s t
  resx : t.resx = s.resx
  faults : t.faults = rest
  events : t.events = s.events ++ es
  lines : t.lines = es.foldl (Lines.after s.cfg.width) s.lines

/-- A write transaction that a pin fault aborts (R110, R97, R191). -/
theorem busWrite_aborted (m : Mode) (burst : List (Mark × Word)) {q : Nat} {rest : List Nat} {s : State}
    (hf : s.faults = q :: rest) (hq : q < writeCost s.cfg burst.length) :
    ∃ t, busWrite m burst s = .raised .busWriteError t ∧ SameInputs s t ∧
      Aborted ((writeEvents s.cfg m (burst.map Prod.snd)).take q) rest s t := by
  have hro := writeOps_readsNothing s.cfg m burst
  have hnd := writeOps_noDelay s.cfg m burst
  have hrun := runOps_abort .busWriteError (writeOps s.cfg m burst) s q rest hf
    (by rwa [writeOps_faultCalls]) (.inr fun op h => (hro op h).2)
  obtain ⟨es, h1, h2, h3⟩ := opsBefore_told (fun op h => (hnd op h).1) q s
  have he : es = writeEvents s.cfg m (burst.map Prod.snd) := by
    rw [applyOps_events (fun op h => (hro op h).1), writeOps_event] at h1
    exact (List.append_cancel_left h1).symm
  subst he
  have hmem := opsBefore_mem q (writeOps s.cfg m burst)
  exact ⟨_, hrun, (applyOps_sameInputs (fun op h => (hro op (hmem op h)).1) s).trans (by constructor <;> rfl),
    (applyOps_sameCore _ s).1.trans (.withFaults _ _), applyOps_resx (fun op h => (hnd op (hmem op h)).2) s, rfl, h2, h3⟩

/-- The first four pin operations of a read transaction want no input. -/
theorem readOps_four (c : Config) (k q : Nat) (hq : q < readCost c k) (h4 : q < 4) :
    ∃ a b, readOps c k = a ++ b ∧ q < faultCalls a ∧ ∀ op ∈ a, op.wantsInput = false := by
  cases hp : c.isSerial
  · refine ⟨[.clearSamples, .set .rdx true, .set .wrx true, .set .cs false, .set .dcx true], _,
      by simp only [readOps, hp, readSamples, openRead, Bool.false_eq_true, if_false]; rfl, h4, by simp [MicroOp.wantsInput]⟩
  · refine ⟨[.clearSamples, .serialRead k], [], by simp [readOps, hp], ?_, by simp [MicroOp.wantsInput]⟩
    have h1 : readCost c k = 1 := by simp [readCost, hp]
    rw [h1] at hq
    exact hq

/-- A read transaction that a pin fault aborts (R110, R97, R192). -/
theorem busRead_aborted (k : Nat) {q : Nat} {rest : List Nat} {s : State} (hf : s.faults = q :: rest)
    (hq : q < readCost s.cfg k) (hv : s.cfg.pinVariant = .bidirectional ∨ q < 4) :
    ∃ t samples, busRead k s = .raised .busReadError t ∧ samples.length = k ∧
      (∀ ws more, ws.length = k → s.levels = levelsOf s.cfg.width.bits ws ++ more →
        samples = ws.map (busWord s.cfg.width)) ∧
      Aborted ((readEvents s.cfg samples).take q) rest s t := by
  have hnd := readOps_noDelay s.cfg k
  have hrun : runOps .busReadError (readOps s.cfg k) s =
      .raised .busReadError ((applyOps (opsBefore q (readOps s.cfg k)) s).withFaults rest) := by
    rcases hv with hv | h4
    · exact runOps_abort _ _ s q rest hf (by rwa [readOps_faultCalls]) (.inl hv)
    · obtain ⟨a, b, hab, hqa, hw⟩ := readOps_four s.cfg k q hq h4
      rw [hab, runOps_append, runOps_abort _ a s q rest hf hqa (.inr hw), Progress.bind_raised, opsBefore_append a b hqa]
  obtain ⟨es, h1, h2, h3⟩ := opsBefore_told (fun op h => (hnd op h).1) q s
  obtain ⟨samples, m1, m2, _, _, m5, _⟩ := applyOps_readOps k s.released_settled
  simp only [State.released_cfg, applyOps_readOps_released, State.released_events] at m2 m5
  have he : es = readEvents s.cfg samples := List.append_cancel_left (h1.symm.trans m5)
  subst he
  have hmem := opsBefore_mem q (readOps s.cfg k)
  refine ⟨_, samples, hrun, m1, fun ws more hl hlev => ?_, (applyOps_sameCore _ s).1.trans (.withFaults _ _),
    applyOps_resx (fun op h => (hnd op (hmem op h)).2) s, rfl, h2, h3⟩
  exact (m2.driven ws more (by rw [hl, m1]) ((State.released_levels s).trans hlev)).1

end Sys2Proof.Machine
end

