-- ==== Sys2Proof/Laws/Facade.lean ====
section
/-! SUPPORT. What the parts of INIT come to (R171). -/

namespace Sys2Proof.Machine

theorem resetPulse_wantsNothing (c : Config) : ∀ op ∈ resetPulse c, op.wantsInput = false := by
  intro op ho
  simp only [resetPulse, List.mem_cons, List.not_mem_nil, or_false] at ho
  rcases ho with rfl | rfl | rfl | rfl <;> rfl

/-- `RESX` after part of the reset pulse, and what else changed. -/
structure Pulsed (level : Level) (new : List Event) (s t : State) : Prop where
  resx : t.resx = level
  events : t.events = s.events ++ new
  core : SameCore s t
  inputs : SameInputs s t
  ghost : t.ghost = s.ghost
  captured : t.captured = s.captured
  lines : t.lines = { s.lines with resx := level }

theorem Pulsed.withFaults {resx : Level} {new : List Event} {s t : State} (h : Pulsed resx new s t) (f : List Nat) :
    Pulsed resx new s (t.withFaults f) :=
  ⟨h.resx, h.events, h.core.trans (.withFaults f t), h.inputs.trans (by constructor <;> rfl), h.ghost, h.captured,
    h.lines⟩

theorem applyOps_resetPulse (c : Config) (s : State) :
    Pulsed true [.set .resx false, .delay c.tResetLowUs, .set .resx true, .delay c.tStabUs] s
      (applyOps (resetPulse c) s) := by
  have hn : ∀ op ∈ resetPulse c, op.readsNothing = true := fun op ho => by
    simp only [resetPulse, List.mem_cons, List.not_mem_nil, or_false] at ho
    rcases ho with rfl | rfl | rfl | rfl <;> rfl
  refine ⟨?_, applyOps_events hn s, (applyOps_sameCore _ _).1, applyOps_sameInputs hn _, ?_, ?_, ?_⟩ <;>
    simp [resetPulse, MicroOp.effect, State.setPin, State.lines]

/-- The whole reset pulse, when neither of its two pin operations faults (R171, R221). -/
theorem resetPulse_quiet {s : State} (hq : s.quietFor 2) :
    ∃ t, runOps .busWriteError (resetPulse s.cfg) s = .going t ∧ t.faults = spendFaults 2 s.faults ∧
      Pulsed true [.set .resx false, .delay s.cfg.tResetLowUs, .set .resx true, .delay s.cfg.tStabUs] s t :=
  ⟨_, runOps_quiet _ _ s hq (.inr (resetPulse_wantsNothing _)), rfl, (applyOps_resetPulse _ _).withFaults _⟩

/-- A fault at the first pin operation of the reset pulse (R97). -/
theorem resetPulse_first {s : State} {rest : List Nat} (h : s.faults = 0 :: rest) :
    runOps .busWriteError (resetPulse s.cfg) s = .raised .busWriteError (s.withFaults rest) :=
  runOps_abort _ (resetPulse s.cfg) s 0 rest h Nat.zero_lt_two (.inr (resetPulse_wantsNothing _))

/-- A fault at the second pin operation of the reset pulse (R97): the device stays in reset. -/
theorem resetPulse_second {s : State} {rest : List Nat} (h : s.faults = 1 :: rest) :
    ∃ t, runOps .busWriteError (resetPulse s.cfg) s = .raised .busWriteError t ∧ t.faults = rest ∧
      Pulsed false [.set .resx false, .delay s.cfg.tResetLowUs] s t := by
  refine ⟨_, runOps_abort _ (resetPulse s.cfg) s 1 rest h ?_ (.inr (resetPulse_wantsNothing _)), rfl, Pulsed.withFaults ?_ _⟩
  · exact Nat.one_lt_two
  · have hn : ∀ op ∈ [MicroOp.set .resx false, .delay s.cfg.tResetLowUs], op.readsNothing = true := fun op ho => by
      simp only [List.mem_cons, List.not_mem_nil, or_false] at ho
      rcases ho with rfl | rfl <;> rfl
    have hp : Pulsed false [.set .resx false, .delay s.cfg.tResetLowUs] s
        (applyOps [.set .resx false, .delay s.cfg.tResetLowUs] s) := by
      refine ⟨?_, applyOps_events hn s, (applyOps_sameCore _ _).1, applyOps_sameInputs hn _, ?_, ?_, ?_⟩ <;>
        simp [MicroOp.effect, State.setPin, State.lines]
    exact hp

/-- The format command with a legal operand, in which nothing faults (R146). -/
theorem setFormat_sent {fmt : BitVec 3} {param : Byte} {tag : PixFmt} {s : State}
    (hf : formatOf fmt = some (param, tag)) (hs : s.Settled) (hq : s.quietFor (wireCost s.cfg 1)) :
    ∃ t, setFormat fmt s = .going { t with pixFmt := tag } ∧ Sent (wireTx 0x3A [wordOfByte param]) s t ∧
      (s.cfg.isSerial = false → AfterWrite .data (wordOfByte param) t) := by
  obtain ⟨t, h1, h2, h3, _⟩ := sendWire_sent 0x3A [param] hs hq
  exact ⟨t, by rw [setFormat, hf]; simp only [h1, Progress.bind_going], h2, fun h => h3 h param rfl⟩

end Sys2Proof.Machine
end

