-- ==== Sys2Proof/Laws/PerInstr.lean ====
section
/-! SUPPORT. What holds of every instruction as syntax: its presented form is the one its row of the opcode table
gives (R74, R76, R77, R78). -/

namespace Sys2Proof.Laws.EncodedRow

/-- The row of the opcode table: its format (true is CMD, a wire command) and its code, the selector of R74 or the wire
opcode of R76. -/
def row : Instr → Bool × Nat
  | .init _ => (false, 0x00)
  | .writeCommand _ _ => (false, 0x01)
  | .readCommand _ _ => (false, 0x02)
  | .setPixelFormat _ => (false, 0x03)
  | .columnAddressSet _ _ => (false, 0x04)
  | .pageAddressSet _ _ => (false, 0x05)
  | .writePixels _ _ => (false, 0x06)
  | .writeRepeatedPixel _ _ => (false, 0x07)
  | .drawPixel _ _ _ => (false, 0x08)
  | .drawRect _ _ _ _ _ => (false, 0x09)
  | .clearScreen => (false, 0x0A)
  | .busWrite _ _ => (false, 0x0B)
  | .busRead => (false, 0x0C)
  | .cmdNop => (true, 0x00)
  | .cmdSoftwareReset => (true, 0x01)
  | .cmdSleepOut => (true, 0x11)
  | .cmdNormalDisplayMode => (true, 0x13)
  | .cmdDisplayInversionOff => (true, 0x20)
  | .cmdDisplayOn => (true, 0x29)
  | .cmdColumnAddressSet _ _ => (true, 0x2A)
  | .cmdPageAddressSet _ _ => (true, 0x2B)
  | .cmdMemoryWrite => (true, 0x2C)
  | .cmdMemoryAccessControl _ => (true, 0x36)
  | .cmdIdleModeOff => (true, 0x38)
  | .cmdInterfacePixelFormat _ => (true, 0x3A)

/-- An instruction is presented in the format of its row and with its code; a wire command has as many parameter bytes
as its row, and a request streams nothing of its own. -/
def Statement (i : Instr) : Prop :=
  match encode i with
  | .port r => row i = (false, r.op.toNat) ∧ r.payload = [] ∧ r.answers = []
  | .wire opc params => row i = (true, opc.toNat) ∧ params.length = tableParams opc.toNat

theorem init (fmt : BitVec 3) : Statement (.init fmt) := ⟨rfl, rfl, rfl⟩
theorem writeCommand (opc : Byte) (len : BitVec 32) : Statement (.writeCommand opc len) := ⟨rfl, rfl, rfl⟩
theorem readCommand (opc : Byte) (len : BitVec 32) : Statement (.readCommand opc len) := ⟨rfl, rfl, rfl⟩
theorem setPixelFormat (fmt : BitVec 3) : Statement (.setPixelFormat fmt) := ⟨rfl, rfl, rfl⟩
theorem columnAddressSet (a0 : Coord) (a1 : Coord) : Statement (.columnAddressSet a0 a1) := ⟨rfl, rfl, rfl⟩
theorem pageAddressSet (a0 : Coord) (a1 : Coord) : Statement (.pageAddressSet a0 a1) := ⟨rfl, rfl, rfl⟩
theorem writePixels (p1 : Pixel) (p2 : Option Pixel) : Statement (.writePixels p1 p2) := by
  cases p2 <;> exact ⟨rfl, rfl, rfl⟩
theorem writeRepeatedPixel (p1 : Pixel) (len : BitVec 32) : Statement (.writeRepeatedPixel p1 len) := ⟨rfl, rfl, rfl⟩
theorem drawPixel (x : Coord) (y : Coord) (p1 : Pixel) : Statement (.drawPixel x y p1) := ⟨rfl, rfl, rfl⟩
theorem drawRect (x : Coord) (y : Coord) (w : Coord) (h : Coord) (p1 : Pixel) : Statement (.drawRect x y w h p1) := ⟨rfl, rfl, rfl⟩
theorem clearScreen : Statement (.clearScreen) := ⟨rfl, rfl, rfl⟩
theorem busWrite (mode : Mode) (len : BitVec 32) : Statement (.busWrite mode len) := ⟨rfl, rfl, rfl⟩
theorem busRead : Statement (.busRead) := ⟨rfl, rfl, rfl⟩
theorem cmdNop : Statement (.cmdNop) := ⟨rfl, rfl⟩
theorem cmdSoftwareReset : Statement (.cmdSoftwareReset) := ⟨rfl, rfl⟩
theorem cmdSleepOut : Statement (.cmdSleepOut) := ⟨rfl, rfl⟩
theorem cmdNormalDisplayMode : Statement (.cmdNormalDisplayMode) := ⟨rfl, rfl⟩
theorem cmdDisplayInversionOff : Statement (.cmdDisplayInversionOff) := ⟨rfl, rfl⟩
theorem cmdDisplayOn : Statement (.cmdDisplayOn) := ⟨rfl, rfl⟩
theorem cmdColumnAddressSet (a0 : Coord) (a1 : Coord) : Statement (.cmdColumnAddressSet a0 a1) := ⟨rfl, rfl⟩
theorem cmdPageAddressSet (a0 : Coord) (a1 : Coord) : Statement (.cmdPageAddressSet a0 a1) := ⟨rfl, rfl⟩
theorem cmdMemoryWrite : Statement (.cmdMemoryWrite) := ⟨rfl, rfl⟩
theorem cmdMemoryAccessControl (mask : Byte) : Statement (.cmdMemoryAccessControl mask) := ⟨rfl, rfl⟩
theorem cmdIdleModeOff : Statement (.cmdIdleModeOff) := ⟨rfl, rfl⟩
theorem cmdInterfacePixelFormat (param : Byte) : Statement (.cmdInterfacePixelFormat param) := ⟨rfl, rfl⟩

end Sys2Proof.Laws.EncodedRow
end

