-- ==== Sys2Proof/Laws/Streams.lean ====
section
/-! SUPPORT. No micro-operation reads the payload elements that are still to come: a wire command is the same whatever
stands on `pl_word` (R75, R86). -/

namespace Sys2Proof.Machine

/-- A state with other payload elements to come. -/
def State.withPayload (pl : List Word) (s : State) : State := { s with plWords := pl }

@[simp] theorem State.withPayload_cfg (pl : List Word) (s : State) : (s.withPayload pl).cfg = s.cfg := rfl

@[simp] theorem State.withPayload_faults (pl : List Word) (s : State) : (s.withPayload pl).faults = s.faults := rfl

theorem State.capture_withPayload (m : Mode) (v : Word) (pl : List Word) (s : State) :
    (s.withPayload pl).capture m v = (s.capture m v).withPayload pl := by cases m <;> rfl

theorem State.senseBit_withPayload (i : Nat) (pl : List Word) (s : State) :
    (s.withPayload pl).senseBit i = (s.senseBit i).withPayload pl := by
  rcases h : s.levels with _ | ⟨l, ls⟩ <;>
    simp [State.senseBit, State.dropLevel, State.nextLevel, State.withPayload, h]

theorem State.captureBurst_withPayload (m : Mode) (burst : List (Mark × Word)) (pl : List Word) (s : State) :
    (s.withPayload pl).captureBurst m burst = (s.captureBurst m burst).withPayload pl := by
  induction burst generalizing s with
  | nil => rfl
  | cons kv rest ih =>
    simp only [State.captureBurst]
    rw [← ih, ← State.capture_withPayload]
    rfl

theorem State.senseWord_withPayload (bits : Nat) (pl : List Word) (s : State) :
    (s.withPayload pl).senseWord bits = (s.senseWord bits).withPayload pl := by
  unfold State.senseWord
  induction List.range bits generalizing s with
  | nil => rfl
  | cons i rest ih => simp only [List.foldl_cons, State.senseBit_withPayload, ih]

theorem State.senseSamples_withPayload (bits k : Nat) (pl : List Word) (s : State) :
    (s.withPayload pl).senseSamples bits k = (s.senseSamples bits k).withPayload pl := by
  induction k generalizing s with
  | zero => rfl
  | succ k ih =>
    simp only [State.senseSamples, State.senseWord_withPayload]
    rw [← ih]
    rfl

theorem State.setPin_withPayload (p : Pin) (v : Level) (pl : List Word) (s : State) :
    (s.withPayload pl).setPin p v = (s.setPin p v).withPayload pl := by
  cases p <;> try rfl
  simp only [State.setPin]
  split <;> rename_i h
  · rw [if_pos (by simpa [State.withPayload] using h), State.capture_withPayload]
    cases hm : modeOfLevel s.dcx <;> simp [State.withPayload, State.capture, hm]
  · rw [if_neg (by simpa [State.withPayload] using h)]
    rfl

theorem MicroOp.effect_withPayload (op : MicroOp) (pl : List Word) (s : State) :
    op.effect (s.withPayload pl) = (op.effect s).withPayload pl := by
  cases op with
  | set p v =>
    simp only [MicroOp.effect, State.setPin_withPayload]
    rfl
  | get i =>
    simp only [MicroOp.effect, State.senseBit_withPayload]
    rfl
  | serialWrite m burst =>
    simp only [MicroOp.effect, State.captureBurst_withPayload]
    rfl
  | serialRead k =>
    simp only [MicroOp.effect, State.withPayload_cfg, State.senseSamples_withPayload]
    rfl
  | _ => rfl

/-- A part of a request with other payload elements to come. -/
def Progress.withPayload (pl : List Word) : Progress → Progress
  | .going s => .going (s.withPayload pl)
  | .raised e s => .raised e (s.withPayload pl)
  | .stalled s => .stalled (s.withPayload pl)

theorem Progress.bind_withPayload {pl : List Word} {f : State → Progress}
    (hf : ∀ t, f (t.withPayload pl) = (f t).withPayload pl) (p : Progress) :
    (p.withPayload pl).bind f = (p.bind f).withPayload pl := by
  cases p with
  | going s => exact hf s
  | raised e s => rfl
  | stalled s => rfl

theorem MicroOp.perform_withPayload (err : Status) (op : MicroOp) (pl : List Word) (s : State) :
    op.perform err (s.withPayload pl) = (op.perform err s).withPayload pl := by
  have noInput : ∀ t : State, (op.wantsInput && t.cfg.pinVariant == .outputOnly) = true →
      op.perform err t = .raised .inputNotAvailable t := fun t h => by rw [MicroOp.perform, if_pos h]
  have quiet : ∀ t : State, ¬ (op.wantsInput && t.cfg.pinVariant == .outputOnly) = true → ¬ op.mayFault = true →
      op.perform err t = .going (op.effect t) := fun t h h2 => by rw [MicroOp.perform, if_neg h, if_neg h2]
  have asks : ∀ t : State, ¬ (op.wantsInput && t.cfg.pinVariant == .outputOnly) = true → op.mayFault = true →
      op.perform err t = match t.faults with
        | [] => .going (op.effect t)
        | 0 :: rest => .raised err { t with faults := rest }
        | (k + 1) :: rest => .going (op.effect { t with faults := k :: rest }) :=
    fun t h h2 => by
      refine (if_neg h).trans ((if_pos h2).trans ?_)
      rcases t.faults with _ | ⟨_ | k, rest⟩ <;> rfl
  by_cases h1 : (op.wantsInput && s.cfg.pinVariant == .outputOnly) = true
  · rw [noInput s h1, noInput (s.withPayload pl) h1]
    rfl
  · by_cases h2 : op.mayFault = true
    · rw [asks s h1 h2, asks (s.withPayload pl) h1 h2, State.withPayload_faults]
      rcases s.faults with _ | ⟨_ | k, rest⟩
      · exact congrArg Progress.going (MicroOp.effect_withPayload op pl s)
      · rfl
      · exact congrArg Progress.going (MicroOp.effect_withPayload op pl { s with faults := k :: rest })
    · rw [quiet s h1 h2, quiet (s.withPayload pl) h1 h2]
      exact congrArg Progress.going (MicroOp.effect_withPayload op pl s)

theorem runOps_withPayload (err : Status) (ops : List MicroOp) (pl : List Word) (s : State) :
    runOps err ops (s.withPayload pl) = (runOps err ops s).withPayload pl := by
  induction ops generalizing s with
  | nil => rfl
  | cons op ops ih =>
    rw [runOps, MicroOp.perform_withPayload, Progress.bind_withPayload ih]
    rfl

theorem busWrite_withPayload (m : Mode) (burst : List (Mark × Word)) (pl : List Word) (s : State) :
    busWrite m burst (s.withPayload pl) = (busWrite m burst s).withPayload pl :=
  runOps_withPayload _ _ _ _

theorem noteLost_withPayload (opc : Byte) (pl : List Word) (p : Progress) :
    noteLost opc (p.withPayload pl) = (noteLost opc p).withPayload pl := by
  cases p with
  | raised e s =>
    simp only [noteLost, Progress.withPayload]
    split <;> rfl
  | _ => rfl

/-- A wire command whose parameters are all there ends in the same way whatever stands on `pl_word`. -/
theorem sendCommand_settle_withPayload (opc : Byte) {n : Nat} {elems : List Word} (h : n ≤ elems.length)
    (pl : List Word) (s : State) :
    (sendCommand opc n elems (s.withPayload pl)).settle = (sendCommand opc n elems s).settle := by
  have hs : ∀ t, streamWrite .data n elems (t.withPayload pl) = (streamWrite .data n elems t).withPayload pl := by
    intro t
    simp only [streamWrite, if_pos h, busWrite_withPayload]
  have he : (sendCommand opc n elems s).Ends := by
    refine noteLost_ends opc ((runOps_ends _ _ _).bind fun t => ?_)
    rw [streamWrite, if_pos h]
    exact runOps_ends _ _ _
  have hp : sendCommand opc n elems (s.withPayload pl) = (sendCommand opc n elems s).withPayload pl := by
    rw [sendCommand, busWrite_withPayload, Progress.bind_withPayload hs, noteLost_withPayload]
    rfl
  rw [hp]
  rcases h : sendCommand opc n elems s with t | ⟨e, t⟩ | t
  · rfl
  · rfl
  · exact absurd h (he t)

end Sys2Proof.Machine
end

