-- ==== Sys2Proof/Tests/Slice0.lean ====
section
/-! SUPPORT. Tests of the model and witnesses of the statements. The expected values of the tests are those of the
spec's file 95_test_vectors.md, or of the rule a test names. -/

namespace Sys2Proof.Machine.Test

set_option Elab.async false

/-! ## Small states and views of a result -/

def c8 : Config := Config.standard .parallel8 .bidirectional
def c16 : Config := Config.standard .parallel16 .bidirectional
def c18 : Config := Config.standard .parallel18 .bidirectional
def c8out : Config := Config.standard .parallel8 .outputOnly
def cSerial : Config := Config.standard (.serial .w8) .bidirectional

/-- A block that has accepted a request, initialised with a format. -/
def ready (c : Config) (fmt : PixFmt) : State :=
  { State.resetOf c with inited := true, busy := true, seq := some 0, pixFmt := fmt }

/-- Such a block whose last write was aborted before the rise of WRX (section 2.7, R110). -/
def halfDone (c : Config) (fmt : PixFmt) : State :=
  { ready c fmt with cs := false, wrx := false, ddir := 0xFF, dout := 0x29 }

def nextOf (o : Host.Outcome State Fault Refusal) : Option State :=
  match o with
  | .next t => some t
  | .fault _ => none
  | .refused _ => none

def refusalOf (o : Host.Outcome State Fault Refusal) : Option Refusal :=
  match o with
  | .next _ => none
  | .fault _ => none
  | .refused r => some r

/-- A captured word: the mode tag (0 Command, 1 Data) and the value. -/
def tagOf : Mode × Word → Nat × Nat
  | (.command, v) => (0, v.toNat)
  | (.data, v) => (1, v.toNat)

/-- What a request leaves: its captured words, its number of pin operations, and the status code. -/
def summary (o : Host.Outcome State Fault Refusal) : Option (List (Nat × Nat) × Nat × BitVec 3) :=
  (nextOf o).map fun t => (t.stream.map tagOf, pinOperations t.trace, t.status.code)

theorem next_of {o : Host.Outcome State Fault Refusal} {p : State → Bool}
    (h : (nextOf o).any p = true) : ∃ t, o = .next t ∧ p t = true := by
  cases o with
  | next t => exact ⟨t, rfl, h⟩
  | fault f => cases h
  | refused r => cases h

/-! ## WellFormed: an ill-formed term for each check -/

theorem test_wellFormed_refuses_zero_width : WellFormed.check (.drawRect 0 0 0 5 ⟨1, 2, 3⟩) = false := by decide
theorem test_wellFormed_refuses_zero_height : WellFormed.check (.drawRect 0 0 5 0 ⟨1, 2, 3⟩) = false := by decide
theorem test_wellFormed_refuses_x_overflow : WellFormed.check (.drawRect 0xFFFE 0 3 1 ⟨1, 2, 3⟩) = false := by decide
theorem test_wellFormed_refuses_y_overflow : WellFormed.check (.drawRect 0 0xFFFE 1 3 ⟨1, 2, 3⟩) = false := by decide
theorem test_wellFormed_takes_the_last_column : WellFormed.check (.drawRect 0xFFFE 0 2 1 ⟨1, 2, 3⟩) = true := by decide
theorem test_wellFormed_refuses_no_sample : WellFormed.check (.readCommand 0x0A 0) = false := by decide

/-! ## Decoding: a port word or wire bytes for each constructor, written out from R71, R74 and R76 -/

theorem test_decode_requests :
    decode (.port { PortRequest.zero with op := 0b0000, fmt := 0b101 }) = .instr (.init 5) ∧
    decode (.port { PortRequest.zero with op := 0b0001, opc := 0xB1, len := 2 }) = .instr (.writeCommand 0xB1 2) ∧
    decode (.port { PortRequest.zero with op := 0b0010, opc := 0x0A, len := 2 }) = .instr (.readCommand 0x0A 2) ∧
    decode (.port { PortRequest.zero with op := 0b0011, fmt := 0b110 }) = .instr (.setPixelFormat 6) ∧
    decode (.port { PortRequest.zero with op := 0b0100, a0 := 0x0012, a1 := 0x0140 })
      = .instr (.columnAddressSet 0x0012 0x0140) ∧
    decode (.port { PortRequest.zero with op := 0b0101, a0 := 0, a1 := 479 }) = .instr (.pageAddressSet 0 479) :=
  ⟨rfl, rfl, rfl, rfl, rfl, rfl⟩

theorem test_decode_pixel_requests :
    decode (.port { PortRequest.zero with op := 0b0110, p1 := 0x123456, p2 := 0xABCDEF, has2 := 1 })
      = .instr (.writePixels ⟨0x12, 0x34, 0x56⟩ (some ⟨0xAB, 0xCD, 0xEF⟩)) ∧
    decode (.port { PortRequest.zero with op := 0b0110, p1 := 0x010203, p2 := 0xABCDEF })
      = .instr (.writePixels ⟨1, 2, 3⟩ none) ∧
    decode (.port { PortRequest.zero with op := 0b0111, p1 := 0xFF0000, len := 2 })
      = .instr (.writeRepeatedPixel ⟨0xFF, 0, 0⟩ 2) ∧
    decode (.port { PortRequest.zero with op := 0b1000, x := 0x0012, y := 0x0140, p1 := 0x1F3F1F })
      = .instr (.drawPixel 0x0012 0x0140 ⟨0x1F, 0x3F, 0x1F⟩) ∧
    decode (.port { PortRequest.zero with op := 0b1001, x := 0, y := 0, w := 3, h := 1, p1 := 0x152A0B })
      = .instr (.drawRect 0 0 3 1 ⟨0x15, 0x2A, 0x0B⟩) := by decide +kernel

theorem test_decode_bus_requests :
    decode (.port { PortRequest.zero with op := 0b1010 }) = .instr .clearScreen ∧
    decode (.port { PortRequest.zero with op := 0b1011, mode := 0, len := 1 }) = .instr (.busWrite .command 1) ∧
    decode (.port { PortRequest.zero with op := 0b1011, mode := 1, len := 2 }) = .instr (.busWrite .data 2) ∧
    decode (.port { PortRequest.zero with op := 0b1100 }) = .instr .busRead ∧
    decode (.port { PortRequest.zero with op := 0b1101 }) = .reservedSelector 0xD ∧
    decode (.port { PortRequest.zero with op := 0b1111 }) = .reservedSelector 0xF := ⟨rfl, rfl, rfl, rfl, rfl, rfl⟩

theorem test_decode_wire :
    decode (.wire 0x00 []) = .instr .cmdNop ∧ decode (.wire 0x01 []) = .instr .cmdSoftwareReset ∧
    decode (.wire 0x11 []) = .instr .cmdSleepOut ∧ decode (.wire 0x13 []) = .instr .cmdNormalDisplayMode ∧
    decode (.wire 0x20 []) = .instr .cmdDisplayInversionOff ∧ decode (.wire 0x29 []) = .instr .cmdDisplayOn ∧
    decode (.wire 0x2A [0, 0x12, 1, 0x40]) = .instr (.cmdColumnAddressSet 0x0012 0x0140) ∧
    decode (.wire 0x2B [0, 0, 1, 0xDF]) = .instr (.cmdPageAddressSet 0 479) ∧
    decode (.wire 0x2C []) = .instr .cmdMemoryWrite ∧
    decode (.wire 0x36 [0x48]) = .instr (.cmdMemoryAccessControl 0x48) ∧
    decode (.wire 0x38 []) = .instr .cmdIdleModeOff ∧
    decode (.wire 0x3A [0x66]) = .instr (.cmdInterfacePixelFormat 0x66) := by decide +kernel

/-- Any other wire opcode, and any other number of parameters, is a plain WRITE_COMMAND (R65, R86). -/
theorem test_decode_wire_outside_the_table :
    decode (.wire 0xB1 [0xA0, 0x11]) = .instr (.writeCommand 0xB1 2) ∧
    decode (.wire 0x2A [0, 1]) = .instr (.writeCommand 0x2A 2) ∧ decode (.wire 0x02 []) = .instr (.writeCommand 2 0) ∧
    decode (.wire 0x3A []) = .instr (.writeCommand 0x3A 0) := by decide +kernel

/-- A row of the opcode table by its word. -/
theorem test_table_words :
    decodeTableWord 8 0x0C = some .busRead ∧ decodeTableWord 8 0x0D = none ∧ decodeTableWord 8 0x11 = some .cmdSleepOut ∧
    decodeTableWord 8 0x2A = some (.cmdColumnAddressSet 0 0) := by decide +kernel

/-! ## The pixel encoder (sections 2.1 and 2.2) -/

theorem test_rgb565 :
    encodePixels .consistent .rgb565 .w8 ⟨0x12, 0x34, 0x56⟩ none = some [0x96, 0x96] ∧
    encodePixels .consistent .rgb565 .w8 ⟨0x01, 0x08, 0x01⟩ none = some [0x09, 0x01] ∧
    encodePixels .consistent .rgb565 .w16 ⟨0xAB, 0xCD, 0xEF⟩ none = some [0x59AF] ∧
    encodePixels .consistent .rgb565 .w16 ⟨0x20, 0x40, 0x20⟩ none = some [0x0000] := by decide +kernel

theorem test_rgb565_literal :
    encodePixels .sourceLiteral .rgb565 .w8 ⟨0x12, 0x34, 0x56⟩ none = some [0x95, 0x96] ∧
    encodePixels .sourceLiteral .rgb565 .w8 ⟨0xAB, 0xCD, 0xEF⟩ none = some [0x5B, 0xAF] ∧
    encodePixels .sourceLiteral .rgb565 .w16 ⟨0xFF, 0xFF, 0xFF⟩ none = some [0x7FFF] ∧
    encodePixels .sourceLiteral .rgb565 .w16 ⟨0x15, 0x2A, 0x0B⟩ none = some [0x56AB] := by decide +kernel

theorem test_rgb666 :
    encodePixels .consistent .rgb666 .w8 ⟨0xAB, 0xCD, 0xEF⟩ none = some [0xAC, 0x34, 0xBC] ∧
    encodePixels .consistent .rgb666 .w16 ⟨0x15, 0x2A, 0x0B⟩ none = some [0x54A8, 0x2C00] ∧
    encodePixels .consistent .rgb666 .w16 ⟨0x12, 0x34, 0x56⟩ (some ⟨0xAB, 0xCD, 0xEF⟩)
      = some [0x48D0, 0x58AC, 0x34BC] ∧
    encodePixels .consistent .rgb666 .w18 ⟨0xAB, 0xCD, 0xEF⟩ none = some [0x2B36F] := by decide +kernel

/-! ## Requests (sections 2.4 to 2.8 and 3) -/

/-- V1. -/
theorem test_columnAddressSet :
    summary (exec (.columnAddressSet 0x0012 0x0140) (ready c8 .rgb565))
      = some ([(0, 0x2A), (1, 0x00), (1, 0x12), (1, 0x01), (1, 0x40)], 104, 0) := by decide +kernel

/-- V1 on 16 bits. -/
theorem test_columnAddressSet_w16 :
    (summary (exec (.columnAddressSet 0x0012 0x0140) (ready c16 .rgb565))).map (·.2.1) = some 184 := by decide +kernel

theorem test_pageAddressSet :
    summary (exec (.pageAddressSet 0 479) (ready c8 .rgb565))
      = some ([(0, 0x2B), (1, 0x00), (1, 0x00), (1, 0x01), (1, 0xDF)], 104, 0) := by decide +kernel

/-- V2. -/
theorem test_setPixelFormat :
    ((nextOf (exec (.setPixelFormat 6) (ready c8 .rgb565))).map fun t =>
      (t.pixFmt, t.dout, t.dcx, t.ghost.devFmt, t.ghost.phase))
      = some (.rgb666, 0x66, false, .rgb666, .formatSet) := by decide +kernel

theorem test_setPixelFormat_invalid :
    ((nextOf (exec (.setPixelFormat 7) (ready c8 .rgb666))).map fun t => (t.pixFmt, t.status.code, t.events))
      = some (.rgb666, 3, [.done .invalidFormatError]) := by decide +kernel

/-- V5 and P1: 54 events, then `Done`, and the state after them. -/
theorem test_init :
    ((nextOf (exec (.init 5) (State.resetOf c8))).map fun t =>
      (t.events.length, t.stream.map tagOf, t.inited))
      = some (55, [(0, 0x3A), (1, 0x55)], true) ∧
    ((nextOf (exec (.init 5) (State.resetOf c8))).map fun t => (t.resx, t.cs, t.dcx, t.ddir, t.dout))
      = some (true, true, false, 0xFF, 0x55) := by decide +kernel

/-- Section 2.7: the second pin operation faults. -/
theorem test_init_reset_fault :
    ((nextOf (exec (.init 5) { State.resetOf c8 with faults := [1] })).map fun t => (t.events, t.resx, t.inited))
      = some ([.set .resx false, .delay 20, .done .busWriteError], false, false) := by decide +kernel

theorem test_writeCommand :
    summary (exec (.writeCommand 0xB1 2) { ready c8 .rgb565 with plWords := [0xA0, 0x11] })
      = some ([(0, 0xB1), (1, 0xA0), (1, 0x11)], 68, 0) := by decide +kernel

/-- The requester's upper bits do not reach a parameter (R71, R75). -/
theorem test_writeCommand_uses_a_byte :
    (summary (exec (.writeCommand 0x36 1) { ready c16 .rgb565 with plWords := [0xFF48] })).map (·.1)
      = some [(0, 0x36), (1, 0x48)] := by decide +kernel

theorem test_readCommand :
    ((nextOf (exec (.readCommand 0x0A 2) { ready c8 .rgb565 with levels := levelsOf 8 [0x00, 0x9C] })).map fun t =>
      (t.rdWords, readPulses t.trace, pinOperations t.trace, t.dout, t.ddir)) = some ([0x00, 0x9C], 2, 60, 0x0A, 0) := by
  decide +kernel

/-- Section 2.7: output-only pins cannot read. -/
theorem test_readCommand_output_only :
    ((nextOf (exec (.readCommand 0x0A 2) (ready c8out .rgb565))).map fun t =>
      (t.status.code, t.cs, t.dcx, readPulses t.trace, pinOperations t.trace)) = some (5, false, true, 0, 29) := by
  decide +kernel

theorem test_writePixels_pair :
    summary (exec (.writePixels ⟨0x12, 0x34, 0x56⟩ (some ⟨0xAB, 0xCD, 0xEF⟩)) (ready c16 .rgb666))
      = some ([(1, 0x48D0), (1, 0x58AC), (1, 0x34BC)], 109, 0) := by decide +kernel

theorem test_writePixels_w18 :
    summary (exec (.writePixels ⟨0x12, 0x34, 0x56⟩ (some ⟨0xAB, 0xCD, 0xEF⟩)) (ready c18 .rgb666))
      = some ([(1, 0x12D16), (1, 0x2B36F)], 83, 0) := by decide +kernel

/-- V6. -/
theorem test_writeRepeatedPixel :
    summary (exec (.writeRepeatedPixel ⟨0xFF, 0, 0⟩ 2) (ready c8 .rgb666))
      = some ([(1, 0xFC), (1, 0), (1, 0), (1, 0xFC), (1, 0), (1, 0)], 115, 0) := by decide +kernel

theorem test_writeRepeatedPixel_none :
    ((nextOf (exec (.writeRepeatedPixel ⟨0, 0, 0⟩ 0) (ready c16 .rgb565))).map fun t => (t.events, t.enc))
      = some ([.done .ok], [0]) := by decide +kernel

/-- P1. -/
theorem test_drawPixel :
    summary (exec (.drawPixel 0x0012 0x0140 ⟨0x1F, 0x3F, 0x1F⟩) (ready c8 .rgb565))
      = some ([(0, 0x2A), (1, 0), (1, 0x12), (1, 0), (1, 0x12), (0, 0x2B), (1, 1), (1, 0x40), (1, 1), (1, 0x40),
        (0, 0x2C), (1, 0xFF), (1, 0xFF)], 276, 0) := by decide +kernel

/-- Section 2.7: one pixel stays owed. -/
theorem test_drawPixel_w18 :
    ((nextOf (exec (.drawPixel 1 2 ⟨1, 2, 3⟩) (ready c18 .rgb565))).map fun t =>
      (t.status.code, pinOperations t.trace, t.ghost.owed)) = some (4, 453, some 1) := by decide +kernel

/-- P2. -/
theorem test_drawRect :
    ((nextOf (exec (.drawRect 0 0 3 1 ⟨0x15, 0x2A, 0x0B⟩) (ready c16 .rgb666))).map fun t =>
      ((t.stream.map tagOf).drop 11, pinOperations t.trace, t.ghost.owed, t.dout))
      = some ([(1, 0x54A8), (1, 0x2C54), (1, 0xA82C), (1, 0x54A8), (1, 0x2C00)], 593, some 0, 0x2C00) := by
  decide +kernel

/-- Section 2.6: the end coordinate 0xFFFF is sent, 0x10000 is refused. -/
theorem test_drawRect_last_column :
    (summary (exec (.drawRect 0xFFFE 0 2 1 ⟨0x12, 0x34, 0x56⟩) (ready c16 .rgb565))).map (·.1.take 5)
      = some [(0, 0x2A), (1, 0xFF), (1, 0xFE), (1, 0xFF), (1, 0xFF)] ∧
    refusalOf (exec (.drawRect 0xFFFE 0 3 1 ⟨0x12, 0x34, 0x56⟩) (ready c16 .rgb565)) = some .coordinateOverflow := by
  decide +kernel

/-- CLEAR_SCREEN is DRAW_RECT over the panel with black (R149), here on a panel of 2 by 1. -/
theorem test_clearScreen :
    ((nextOf (exec .clearScreen (ready { c8 with panelW := 2, panelH := 1 } .rgb565))).map fun t =>
      ((t.stream.map tagOf).drop 10, t.ghost.devWin, t.ghost.owed))
      = some ([(0, 0x2C), (1, 0), (1, 0), (1, 0), (1, 0)], { c0 := 0, c1 := 1, p0 := 0, p1 := 0 }, some 0) := by
  decide +kernel

/-- Section 2.4, the whole trace. -/
theorem test_busWrite :
    ((nextOf (exec (.busWrite .command 1) { ready c8 .rgb565 with plWords := [0x2A] })).map fun t => t.events)
      = some ([.set .rdx true, .set .wrx true, .set .cs false, .set .dcx false,
        .mode 0 .output, .set (.d 0) false, .mode 1 .output, .set (.d 1) true,
        .mode 2 .output, .set (.d 2) false, .mode 3 .output, .set (.d 3) true,
        .mode 4 .output, .set (.d 4) false, .mode 5 .output, .set (.d 5) true,
        .mode 6 .output, .set (.d 6) false, .mode 7 .output, .set (.d 7) false,
        .set .wrx false, .set .wrx true, .set .dcx true, .set .wrx true, .set .cs true, .done .ok]) := by decide +kernel

theorem test_busWrite_data :
    ((nextOf (exec (.busWrite .data 2) { ready c8 .rgb565 with plWords := [0x00, 0x12] })).map fun t =>
      (t.stream.map tagOf, pinOperations t.trace, t.dcx, t.dout)) = some ([(1, 0x00), (1, 0x12)], 43, false, 0x12) := by
  decide +kernel

/-- V4 and section 2.4: two answers, two pulses. -/
theorem test_busRead :
    ((nextOf (exec .busRead { ready c8 .rgb565 with rdMore := [true, false], levels := levelsOf 8 [0x00, 0x9C] })).map
      fun t => (t.rdWords, readPulses t.trace, pinOperations t.trace, t.cs, t.dcx)) = some ([0x00, 0x9C], 2, 35, true, false) := by
  decide +kernel

/-- Without an answer the block waits for ever (R207). -/
theorem test_busRead_waits :
    ((nextOf (exec .busRead (ready c8 .rgb565))).map fun t => (t.busy, readPulses t.trace, t.cs)) = some (true, 1, false) := by
  decide +kernel

theorem test_parameterless_wire_commands :
    parameterless.map (fun io => summary (exec io.1 (ready c8 .rgb565)))
      = [some ([(0, 0x00)], 25, 0), some ([(0, 0x01)], 25, 0), some ([(0, 0x11)], 25, 0), some ([(0, 0x13)], 25, 0),
        some ([(0, 0x20)], 25, 0), some ([(0, 0x29)], 25, 0), some ([(0, 0x2C)], 25, 0), some ([(0, 0x38)], 25, 0)] := by
  decide +kernel

/-- P4: the boot order's record of `PHASE`; the software reset leaves the block's own registers (R44). -/
theorem test_phases :
    ([Instr.cmdSleepOut, .cmdMemoryAccessControl 0x48, .cmdNormalDisplayMode, .cmdDisplayOn, .cmdSoftwareReset].map fun i =>
      (nextOf (exec i (ready c8 .rgb666))).map fun t => (t.ghost.phase, t.pixFmt, t.inited))
      = [some (.sleepOut, .rgb666, true), some (.unknown, .rgb666, true), some (.normalDisplay, .rgb666, true),
        some (.displayOn, .rgb666, true), some (.reset, .rgb666, true)] := by decide +kernel

theorem test_cmdMemoryAccessControl :
    summary (exec (.cmdMemoryAccessControl 0x48) (ready c8 .rgb565)) = some ([(0, 0x36), (1, 0x48)], 50, 0) := by
  decide +kernel

/-- The raw format command changes the record of the device, not `PIXFMT` (R34, R161). -/
theorem test_cmdInterfacePixelFormat :
    ((nextOf (exec (.cmdInterfacePixelFormat 0x66) (ready c8 .rgb565))).map fun t =>
      (t.stream.map tagOf, t.pixFmt, t.ghost.devFmt)) = some ([(0, 0x3A), (1, 0x66)], .rgb565, .rgb666) := by decide +kernel

/-- Any other format byte leaves `DEVFMT` unknown (R161). -/
theorem test_cmdInterfacePixelFormat_other :
    ((nextOf (exec (.cmdInterfacePixelFormat 0x77) (ready c8 .rgb565))).map fun t =>
      (t.ghost.devFmt, t.ghost.phase, t.ghost.owed)) = some (.unknown, .formatSet, none) := by decide +kernel

theorem test_cmdAddressCommands :
    ((nextOf (exec (.cmdColumnAddressSet 0xFFFF 0) (ready c8 .rgb565))).map fun t => (t.stream.map tagOf, t.ghost.devWin.c0))
      = some ([(0, 0x2A), (1, 0xFF), (1, 0xFF), (1, 0), (1, 0)], 0xFFFF) ∧
    ((nextOf (exec (.cmdPageAddressSet 0 479) (ready c8 .rgb565))).map fun t => (t.stream.map tagOf, t.ghost.devWin.p1))
      = some ([(0, 0x2B), (1, 0), (1, 0), (1, 1), (1, 0xDF)], 479) := by decide +kernel

/-- Section 2.7: the pulse's rising edge faults. -/
theorem test_cmdDisplayOn_fault :
    ((nextOf (exec .cmdDisplayOn { ready c8 .rgb565 with faults := [21] })).map fun t =>
      (t.events.length, t.status.code, t.stream.map tagOf)) = some (22, 1, []) ∧
    ((nextOf (exec .cmdDisplayOn { ready c8 .rgb565 with faults := [21] })).map fun t => (t.cs, t.wrx, t.dcx, t.dout))
      = some (false, false, false, 0x29) := by decide +kernel

/-- The next request after that one: the rise of WRX captures the word left on the pins, by the definition of R11, and the
lines come to rest as R103 says. -/
theorem test_request_after_an_abort :
    ((nextOf (exec .cmdSleepOut (halfDone c8 .rgb565))).map fun t =>
      (t.stream.map tagOf, t.status.code, t.cs, t.wrx, t.dcx)) = some ([(0, 0x29), (0, 0x11)], 0, true, true, true) := by
  decide +kernel

/-- Section 2.7: the first `PinGet` of a read faults. -/
theorem test_readCommand_fault :
    ((nextOf (exec (.readCommand 0x0A 1) { ready c8 .rgb565 with faults := [38] })).map fun t =>
      (t.events.drop 37, t.status.code, readPulses t.trace)) = some ([.set .rdx false, .done .busReadError], 2, 1) ∧
    ((nextOf (exec (.readCommand 0x0A 1) { ready c8 .rgb565 with faults := [38] })).map fun t => (t.cs, t.rdx, t.ddir))
      = some (false, false, 0) := by decide +kernel

/-- P5: a fault in the parameter list. -/
theorem test_columnAddressSet_fault :
    ((nextOf (exec (.columnAddressSet 0x0012 0x0140) { ready c8 .rgb565 with faults := [54] })).map fun t =>
      ((t.events.length, t.stream.map tagOf), (t.cs, t.dcx), t.ddir, t.dout))
      = some ((55, [(0, 0x2A), (1, 0x00)]), (false, true), 0xFF, 0x02) := by decide +kernel

/-- Section 2.8. -/
theorem test_refusals :
    refusalOf (exec .cmdNop (State.resetOf c8)) = some .notInitialised ∧
    refusalOf (exec (.readCommand 0x0A 0) (ready c8 .rgb565)) = some .zeroSamples ∧
    refusalOf (exec (.drawRect 0 0 0 5 ⟨1, 2, 3⟩) (ready c8 .rgb565)) = some .emptyRectangle ∧
    refusalOf (step { State.resetOf c8 with pending := [.port { PortRequest.zero with op := 0xE }] })
      = some (.reservedSelector 0xE) := by decide +kernel

/-- A serial bus shows each transaction as one event (R113). -/
theorem test_serial :
    ((nextOf (exec .cmdSleepOut (ready cSerial .rgb565))).map fun t => (t.events, t.stream.map tagOf))
      = some ([.serialWrite .command [0x11], .done .ok], [(0, 0x11)]) := by decide +kernel

/-! ## Witnesses: for each statement with hypotheses, operands and a state that meet them -/

theorem witness_SelectorsSelectRequests :
    (∀ op : BitVec 4, ∃ r : PortRequest, r.op = op ∧ r.has2 = 0#1 ∧ r.mode = 0#1) ∧
    (∀ op : BitVec 4, ∃ r : PortRequest, r.op = op ∧ r.has2 = 1#1 ∧ r.mode = 1#1) :=
  ⟨fun op => ⟨{ PortRequest.zero with op := op }, rfl, rfl, rfl⟩,
    fun op => ⟨{ PortRequest.zero with op := op, has2 := 1, mode := 1 }, rfl, rfl, rfl⟩⟩

theorem witness_ReservedSelectorsAreRefused : ∀ op : BitVec 4, op = 0xD#4 ∨ op = 0xE#4 ∨ op = 0xF#4 →
    ∃ (s : State) (r : PortRequest), s.busy = false ∧ s.pending = .port r :: [] ∧ r.op = op :=
  fun op _ => ⟨{ State.reset with pending := [.port { PortRequest.zero with op := op }] }, _, rfl, rfl, rfl⟩

theorem witness_StepRunsThePresentedInstruction :
    ∃ s : State, s.busy = false ∧ s.pending = .wire 0x11 [] :: [] ∧ decode (.wire 0x11 []) = .instr .cmdSleepOut :=
  ⟨{ State.reset with pending := [.wire 0x11 []] }, rfl, rfl, rfl⟩

theorem witness_IdleWaitsAndBlockedStops :
    (State.reset.busy = false ∧ State.reset.pending = []) ∧ (ready c8 .rgb565).busy = true := ⟨⟨rfl, rfl⟩, rfl⟩

theorem witness_OnlyInitRunsUninitialised : State.reset.inited = false ∧ isInit .cmdNop = false := ⟨rfl, rfl⟩

theorem witness_OperandsWithoutMeaningAreRefused :
    (ready c8 .rgb565).inited = true ∧ ((0 : Coord) = 0 ∨ (5 : Coord) = 0) ∧ ((5 : Coord) = 0 ∨ (0 : Coord) = 0) ∧
    ((3 : Coord) ≠ 0 ∧ (1 : Coord) ≠ 0 ∧ 0xFFFF < (0xFFFE : Coord).toNat + (3 : Coord).toNat - 1) := by decide

theorem witness_EveryMeaningfulRequestAnswers :
    (WellFormed.check (.drawRect 0xFFFE 0 2 1 ⟨1, 2, 3⟩) = true ∧ (ready c8 .rgb565).inited = true ∧
      (ready c8 .rgb565).cfg.Valid ∧ (ready c8 .rgb565).busy = true) ∧
    (WellFormed.check (.init 3) = true ∧ isInit (.init 3) = true) := by decide

theorem witness_EveryStatusHasItsCause :
    (∃ t, exec .cmdNop (ready c8 .rgb565) = .next t ∧ (!t.busy && t.status == .ok) = true) ∧
    (∃ t, exec (.writePixels ⟨1, 2, 3⟩ none) (ready c18 .rgb565) = .next t ∧
      (!t.busy && t.status == .dataFormatNotImplemented) = true) ∧
    (∃ t, exec (.readCommand 0x0A 1) (ready c8out .rgb565) = .next t ∧
      (!t.busy && t.status == .inputNotAvailable) = true) :=
  ⟨next_of (by decide +kernel), next_of (by decide +kernel), next_of (by decide +kernel)⟩

theorem witness_formats :
    (((5 : BitVec 3) = 5 ∧ (0x55 : Byte) = 0x55 ∧ PixFmt.rgb565 = .rgb565) ∨
      ((5 : BitVec 3) = 6 ∧ (0x55 : Byte) = 0x66 ∧ PixFmt.rgb565 = .rgb666)) ∧
    (((6 : BitVec 3) = 5 ∧ (0x66 : Byte) = 0x55 ∧ PixFmt.rgb666 = .rgb565) ∨
      ((6 : BitVec 3) = 6 ∧ (0x66 : Byte) = 0x66 ∧ PixFmt.rgb666 = .rgb666)) := by decide

theorem witness_InitSetsUpTheBlock :
    ({ State.reset with faults := [52], cs := false, wrx := false } : State).quietFor (2 + wireCost State.reset.cfg 1)
      = true := by decide

theorem witness_InitWithInvalidFormatFails :
    (4 : BitVec 3) ≠ 5 ∧ (4 : BitVec 3) ≠ 6 ∧ (7 : BitVec 3) ≠ 5 ∧ (7 : BitVec 3) ≠ 6 ∧
    ({ State.reset with faults := [2] } : State).quietFor 2 = true := by decide

theorem witness_InitResetPinFaults :
    (∃ s : State, s.faults = 0 :: []) ∧ (∃ s : State, s.faults = 1 :: []) :=
  ⟨⟨{ State.reset with faults := [0] }, rfl⟩, ⟨{ State.reset with faults := [1] }, rfl⟩⟩

theorem witness_InitInitialisesExactlyWhenOk :
    (∃ t, exec (.init 5) State.reset = .next t ∧ (t.status == .ok) = true) ∧
    (∃ t, exec (.init 3) State.reset = .next t ∧ (t.status == .invalidFormatError) = true) :=
  ⟨next_of (by decide +kernel), next_of (by decide +kernel)⟩

theorem witness_SetPixelFormatTellsThenStores :
    (halfDone c8 .rgb565).inited = true ∧
    ({ halfDone c8 .rgb565 with faults := [50] } : State).quietFor (wireCost c8 1) = true := by decide

theorem witness_InvalidFormatOnlyFails :
    ({ ready c8 .rgb565 with faults := [0] } : State).inited = true ∧ (0 : BitVec 3) ≠ 5 ∧ (0 : BitVec 3) ≠ 6 := by decide

theorem witness_FailedFormatCommandKeepsTheTag :
    ∃ t, exec (.setPixelFormat 6) { ready c8 .rgb565 with faults := [49] } = .next t ∧ (t.status == .busWriteError) = true :=
  next_of (by decide +kernel)

/-- OnlyFormatRequestsWritePixFmt, OnlyInitWritesInitedAndResx, OnlyNamedRequestsWriteEncAndSamples,
NoRequestWritesLatchesOrParameters, RequestsAppendToTheTrace. -/
theorem witness_frames :
    (∃ t, exec .cmdSoftwareReset (ready c8 .rgb666) = .next t ∧ (!t.busy) = true) ∧
    (∀ fmt, Instr.cmdSoftwareReset ≠ .init fmt) ∧ (∀ fmt, Instr.cmdSoftwareReset ≠ .setPixelFormat fmt) ∧
    isInit .cmdSoftwareReset = false ∧ (∀ p n, Instr.cmdSoftwareReset ≠ .writeRepeatedPixel p n) ∧
    (∀ opc n, Instr.cmdSoftwareReset ≠ .readCommand opc n) ∧ Instr.cmdSoftwareReset ≠ .busRead :=
  ⟨next_of (by decide +kernel), by simp, by simp, rfl, by simp, by simp, by simp⟩

/-- The clauses under `Settled` in AddressCommandsSend, BusReadStopsWhenTold and ClearScreenSends, and the states they leave
out. -/
theorem witness_Settled : (ready c8 .rgb565).Settled ∧ ¬ (halfDone c8 .rgb565).Settled ∧ (halfDone cSerial .rgb565).Settled := by
  decide

theorem witness_WriteCommandSends :
    let s : State := { halfDone c8 .rgb565 with plWords := [0xA0, 0x11], faults := [68] }
    s.inited = true ∧ (2 : BitVec 32).toNat ≤ s.plWords.length ∧
      s.quietFor (wireCost s.cfg (2 : BitVec 32).toNat) = true := by decide

theorem witness_AddressCommandsSend :
    let s : State := { halfDone c8 .rgb565 with faults := [104] }
    s.inited = true ∧ s.quietFor (wireCost s.cfg 4) = true := by decide

theorem witness_ParameterlessWireCommandsSend :
    let s : State := { halfDone c8 .rgb565 with faults := [25] }
    (Instr.cmdIdleModeOff, (0x38 : Byte)) ∈ parameterless ∧ s.inited = true ∧
      s.quietFor (wireCost s.cfg 0) = true := by decide

theorem witness_MonitorRecordsWireCommands :
    let w : DevWin := { c0 := 3, c1 := 3, p0 := 0, p1 := 479 }
    let s : State := { ready c8 .rgb565 with ghost := { State.ghostAtReset with devWin := w }, faults := [104] }
    s.inited = true ∧ s.Settled ∧ (Instr.cmdMemoryWrite, (0x2C : Byte)) ∈ parameterless ∧
      (Instr.cmdNop, (0x00 : Byte)) ∈ parameterless ∧ w.c0.toNat ≤ w.c1.toNat ∧ w.p0.toNat ≤ w.p1.toNat ∧
      s.quietFor (wireCost s.cfg 0) = true ∧ s.quietFor (wireCost s.cfg 1) = true ∧
      s.quietFor (wireCost s.cfg 4) = true := by decide

theorem witness_WireCommandsWithParametersSend :
    let s : State := halfDone c8 .rgb565
    ((∃ a0 a1, Instr.cmdColumnAddressSet 0 319 = .cmdColumnAddressSet a0 a1 ∧ (0x2A : Byte) = 0x2A ∧
        coordBytes 0 319 = coordBytes a0 a1) ∧
      (∃ a0 a1, Instr.cmdPageAddressSet 0 479 = .cmdPageAddressSet a0 a1 ∧ coordBytes 0 479 = coordBytes a0 a1) ∧
      (∃ m, Instr.cmdMemoryAccessControl 0x48 = .cmdMemoryAccessControl m ∧ [0x48] = [m]) ∧
      (∃ b, Instr.cmdInterfacePixelFormat 0x66 = .cmdInterfacePixelFormat b ∧ [0x66] = [b])) ∧
    s.inited = true ∧ s.quietFor (wireCost s.cfg 4) = true ∧ s.quietFor (wireCost s.cfg 1) = true :=
  ⟨⟨⟨0, 319, rfl, rfl, rfl⟩, ⟨0, 479, rfl, rfl⟩, ⟨0x48, rfl, rfl⟩, ⟨0x66, rfl, rfl⟩⟩, by decide⟩

theorem witness_WireCommandsAreWriteCommands : encode (.cmdInterfacePixelFormat 0x55) = .wire 0x3A [0x55] := rfl

theorem witness_ReadCommandReads :
    let s : State := { halfDone c8 .rgb565 with levels := levelsOf 8 [0x00, 0x9C], faults := [60] }
    s.inited = true ∧ (2 : BitVec 32) ≠ 0 ∧ (s.cfg.isSerial = true ∨ s.cfg.pinVariant = .bidirectional) ∧
      s.quietFor (writeCost s.cfg 1 + readCost s.cfg (2 : BitVec 32).toNat) = true ∧
      [(0x00 : Word), 0x9C].length = (2 : BitVec 32).toNat ∧ s.levels = levelsOf s.cfg.width.bits [0x00, 0x9C] ++ [] := by
  decide +kernel

theorem witness_BusWriteSends :
    let s : State := { halfDone c8 .rgb565 with plWords := [0x100, 0x12], faults := [43] }
    s.inited = true ∧ (2 : BitVec 32) ≠ 0 ∧ (2 : BitVec 32).toNat ≤ s.plWords.length ∧
      s.quietFor (writeCost s.cfg (2 : BitVec 32).toNat) = true ∧
      [(0x00 : Word), 0x12] = (s.plWords.take (2 : BitVec 32).toNat).map (busWord s.cfg.width) ∧
      [(0x00 : Word), 0x12].getLast? = some 0x12 := by decide +kernel

theorem witness_EmptyWritesDoNothing :
    ({ ready c8 .rgb565 with faults := [0] } : State).inited = true ∧
    encodePixels c8.pack565 .rgb565 c8.width ⟨0x12, 0x34, 0x56⟩ none = some [0x96, 0x96] := by decide +kernel

theorem witness_TransactionsCountTheirPinOperations :
    let s : State := { ready c8 .rgb565 with plWords := [1], rdMore := List.replicate 1 true ++ false :: [] }
    s.inited = true ∧ s.cfg.isSerial = false ∧ s.faults = [] ∧ (1 : BitVec 32) ≠ 0 ∧
      (1 : BitVec 32).toNat ≤ s.plWords.length ∧ s.cfg.pinVariant = .bidirectional ∧
      s.rdMore = List.replicate 1 true ++ false :: [] := by decide

theorem witness_BusReadStopsWhenTold :
    let s : State := { halfDone c8 .rgb565 with rdMore := [false], levels := levelsOf 8 [0x5A], faults := [25] }
    s.inited = true ∧ (s.cfg.isSerial = true ∨ s.cfg.pinVariant = .bidirectional) ∧
      s.rdMore = List.replicate 0 true ++ false :: [] ∧ s.quietFor (readCost s.cfg (0 + 1)) = true ∧
      [(0x5A : Word)].length = 0 + 1 ∧ s.levels = levelsOf s.cfg.width.bits [0x5A] ++ [] := by decide +kernel

theorem witness_UnansweredRequestsNeverEnd :
    let s : State := { ready c8 .rgb565 with plWords := [1], rdMore := [true] }
    s.inited = true ∧ s.busy = true ∧ s.faults = [] ∧ s.plWords.length < (2 : BitVec 32).toNat ∧
      s.cfg.pinVariant = .bidirectional ∧ (∀ b ∈ s.rdMore, b = true) := by decide

theorem witness_OutputOnlyPinsCannotRead :
    let s : State := { halfDone c8out .rgb565 with faults := [29] }
    s.inited = true ∧ s.cfg.isSerial = false ∧ s.cfg.pinVariant = .outputOnly ∧ s.quietFor 4 = true ∧
      (1 : BitVec 32) ≠ 0 ∧ s.quietFor (writeCost s.cfg 1 + 4) = true := by decide

/-- The four clauses of TransactionAbortIsPrecise: the last pin operation of each transaction, and on output-only pins the
last one before the switch to input. -/
theorem witness_TransactionAbortIsPrecise :
    (let s : State := { ready c8 .rgb565 with plWords := [0x29], faults := [24] }
     s.inited = true ∧ (1 : BitVec 32) ≠ 0 ∧ (1 : BitVec 32).toNat ≤ s.plWords.length ∧
      s.faults = 24 :: [] ∧ 24 < writeCost s.cfg (1 : BitVec 32).toNat ∧
      [(0x29 : Word)] = (s.plWords.take (1 : BitVec 32).toNat).map (busWord s.cfg.width)) ∧
    (let s : State := { ready c8 .rgb565 with rdMore := [true, false], levels := levelsOf 8 [0x00, 0x9C], faults := [34] }
     s.inited = true ∧ s.rdMore = List.replicate 1 true ++ false :: [] ∧ s.faults = 34 :: [] ∧
      34 < readCost s.cfg (1 + 1) ∧ s.cfg.pinVariant = .bidirectional ∧ [(0x00 : Word), 0x9C].length = 1 + 1 ∧
      s.levels = levelsOf s.cfg.width.bits [0x00, 0x9C] ++ []) ∧
    (let s : State := { ready c8out .rgb565 with rdMore := [false], faults := [3] }
     s.inited = true ∧ s.rdMore = List.replicate 0 true ++ false :: [] ∧ s.faults = 3 :: [] ∧
      3 < readCost s.cfg (0 + 1) ∧ 3 < 4) ∧
    (let s : State := { ready c8 .rgb565 with faults := [24] }
     s.inited = true ∧ s.faults = 24 :: [] ∧ 24 < writeCost s.cfg 1) ∧
    (let s : State := { ready c8 .rgb565 with levels := levelsOf 8 [0x9C], faults := [49] }
     s.inited = true ∧ s.faults = (writeCost s.cfg 1 + 24) :: [] ∧ 24 < readCost s.cfg (1 : BitVec 32).toNat ∧
      s.cfg.pinVariant = .bidirectional ∧ [(0x9C : Word)].length = (1 : BitVec 32).toNat ∧
      s.levels = levelsOf s.cfg.width.bits [0x9C] ++ []) := by decide +kernel

/-- ModeBeforeAccess, StrobesAreTheSameForEveryWidth. -/
theorem witness_parallel : c8.isSerial = false ∧ c18.isSerial = false := ⟨rfl, rfl⟩

theorem witness_EncoderRows :
    encodePixels .consistent .rgb666 .w18 ⟨0xAB, 0xCD, 0xEF⟩ none = some [0x2B36F] ∧
    encodePixels .consistent .rgb666 .w18 ⟨0x12, 0x34, 0x56⟩ none = some [0x12D16] ∧
    ¬ (PixFmt.rgb666 = .rgb666 ∧ Width.w18 = .w16) := by decide +kernel

theorem witness_WritePixelsSends :
    let s : State := { halfDone c16 .rgb666 with faults := [109] }
    s.inited = true ∧
      encodePixels s.cfg.pack565 s.pixFmt s.cfg.width ⟨0x12, 0x34, 0x56⟩ (some ⟨0xAB, 0xCD, 0xEF⟩)
        = some [0x48D0, 0x58AC, 0x34BC] ∧
      [(0x48D0 : Word), 0x58AC, 0x34BC].getLast? = some 0x34BC ∧ s.quietFor (writeCost s.cfg 3) = true := by decide +kernel

theorem witness_UnencodablePixelOnlyFails :
    let s : State := ready c18 .rgb565
    s.inited = true ∧ s.pixFmt = .rgb565 ∧ s.cfg.width = .w18 := by decide

/-- RepeatedPixelSends, RepeatedPixelFastPath. -/
theorem witness_RepeatedPixelSends :
    let s : State := { halfDone c8 .rgb666 with faults := [122] }
    s.inited = true ∧
      encodePixels s.cfg.pack565 s.pixFmt s.cfg.width ⟨0xFF, 0, 0⟩ none = some [0xFC, 0, 0] ∧
      s.quietFor (writeCost s.cfg ((2 : BitVec 32).toNat * [(0xFC : Word), 0, 0].length)) = true ∧
      s.quietFor ((2 : BitVec 32).toNat * writeCost s.cfg [(0xFC : Word), 0, 0].length) = true := by decide +kernel

theorem witness_DrawPixelSends :
    let s : State := { halfDone c8 .rgb565 with faults := [276] }
    s.inited = true ∧
      encodePixels s.cfg.pack565 s.pixFmt s.cfg.width ⟨0x1F, 0x3F, 0x1F⟩ none = some [0xFF, 0xFF] ∧
      [(0xFF : Word), 0xFF].getLast? = some 0xFF ∧ s.quietFor (windowCost s.cfg + writeCost s.cfg 2) = true := by decide +kernel

theorem witness_DrawRectSends :
    let s : State := { halfDone c16 .rgb666 with faults := [593] }
    s.inited = true ∧ (3 : Coord) ≠ 0 ∧ (1 : Coord) ≠ 0 ∧
      (0xFFFF : Coord).toNat = (0xFFFD : Coord).toNat + (3 : Coord).toNat - 1 ∧
      (0 : Coord).toNat = (0 : Coord).toNat + (1 : Coord).toNat - 1 ∧ 3 = (3 : Coord).toNat * (1 : Coord).toNat ∧
      encodePixels s.cfg.pack565 s.pixFmt s.cfg.width ⟨0x15, 0x2A, 0x0B⟩ (some ⟨0x15, 0x2A, 0x0B⟩)
        = some [0x54A8, 0x2C54, 0xA82C] ∧
      encodePixels s.cfg.pack565 s.pixFmt s.cfg.width ⟨0x15, 0x2A, 0x0B⟩ none = some [0x54A8, 0x2C00] ∧
      s.quietFor (windowCost s.cfg + 3 / 2 * writeCost s.cfg 3 + 3 % 2 * writeCost s.cfg 2) = true := by decide +kernel

theorem witness_ClearScreenSends :
    let s : State := { ready c8 .rgb565 with faults := [6067433] }
    s.inited = true ∧ s.Settled ∧ s.cfg.Valid ∧
      encodePixels s.cfg.pack565 s.pixFmt s.cfg.width ⟨0, 0, 0⟩ (some ⟨0, 0, 0⟩) = some [0, 0, 0, 0] ∧
      s.quietFor (windowCost s.cfg + 76800 * writeCost s.cfg 4) = true := by decide +kernel

theorem witness_UnencodableDrawingFailsAfterTheWindow :
    let s : State := { halfDone c18 .rgb565 with faults := [453] }
    s.inited = true ∧ s.pixFmt = .rgb565 ∧ s.cfg.width = .w18 ∧ s.quietFor (windowCost s.cfg) = true ∧
      (1 : Coord) ≠ 0 ∧ (0xFFFF : Coord).toNat = (0xFFFF : Coord).toNat + (1 : Coord).toNat - 1 ∧ s.cfg.Valid := by
  decide +kernel

theorem witness_DrawingSendsExactlyTheWindow :
    let small : State := halfDone { c8 with panelW := 2, panelH := 1 } .rgb565
    (∃ x y p, Instr.drawPixel 1 2 ⟨1, 2, 3⟩ = .drawPixel x y p) ∧
    (∃ x y w h p, Instr.drawRect 1 2 3 1 ⟨1, 2, 3⟩ = .drawRect x y w h p) ∧ small.busy = true ∧
    (∃ t, exec (.drawPixel 1 2 ⟨1, 2, 3⟩) small = .next t ∧ (t.status == .ok) = true) ∧
    (∃ t, exec (.drawRect 1 2 3 1 ⟨1, 2, 3⟩) small = .next t ∧ (t.status == .ok) = true) ∧
    (∃ t, exec .clearScreen small = .next t ∧ (t.status == .ok) = true) :=
  ⟨⟨1, 2, _, rfl⟩, ⟨1, 2, 3, 1, _, rfl⟩, rfl, next_of (by decide +kernel), next_of (by decide +kernel),
    next_of (by decide +kernel)⟩

/-- StepKeepsLinesFollowTrace, StepKeepsDataPinsFit, StepKeepsFlagsAgree. -/
theorem witness_invariants :
    (let s : State := { ready c8 .rgb565 with busy := false, seq := none, pending := [.wire 0x11 []] }
     s.LinesFollowTrace ∧ s.DataPinsFit ∧ s.FlagsAgree ∧ ∃ t, step s = .next t ∧ (t.status == .ok) = true) :=
  ⟨by decide +kernel, by decide +kernel, by decide +kernel, next_of (by decide +kernel)⟩

end Sys2Proof.Machine.Test
end

/-! Scope: what no request writes, and the trace as the one account of the lines (O23, O56, O57). -/

namespace Sys2Proof.Machine

/-! ## What no request writes -/

/-- The parameters, the operand latches and what is presented next are those of `s`. -/
structure SamePort (s t : State) : Prop where
  cfg : t.cfg = s.cfg
  lat : t.lat = s.lat
  pending : t.pending = s.pending

theorem SamePort.refl (s : State) : SamePort s s := ⟨rfl, rfl, rfl⟩

theorem SamePort.trans {s t u : State} (h : SamePort s t) (k : SamePort t u) : SamePort s u :=
  ⟨k.cfg.trans h.cfg, k.lat.trans h.lat, k.pending.trans h.pending⟩

theorem SameCore.samePort {s t : State} (h : SameCore s t) : SamePort s t := ⟨h.cfg, h.lat, h.pending⟩

/-- Everything any request does leaves the parameters, the latches and the requests to come alone. -/
theorem samePort_invariant (s : State) (i : Instr) : Invariant i (SamePort s) :=
  Invariant.ofAll
    (closed :=
      { faults := fun t f h => h.trans (SameCore.withFaults f t).samePort
        effect := fun t op _ _ h => h.trans (op.effect_sameCore t).1.samePort
        lost := fun _ h => h.trans ⟨rfl, rfl, rfl⟩ })
    (pixFmt := fun _ _ h => h.trans ⟨rfl, rfl, rfl⟩)
    (inited := fun _ _ h => h.trans ⟨rfl, rfl, rfl⟩)
    (deviceReset := fun _ h => h.trans ⟨rfl, rfl, rfl⟩)
    (enc := fun _ _ _ h => h.trans ⟨rfl, rfl, rfl⟩)
    (rdWords := fun _ _ _ h => h.trans ⟨rfl, rfl, rfl⟩) i

/-- Settles O23: the three fields are an invariant of every part of every request. -/
theorem noRequestWritesLatchesOrParameters : Obligations.NoRequestWritesLatchesOrParameters := by
  intro i s t hx
  have h : SamePort s t :=
    exec_keeps (samePort_invariant s i) (fun _ _ h => h.trans ⟨rfl, rfl, rfl⟩) (.refl s) hx
  exact ⟨h.cfg, h.lat, h.pending⟩

/-! ## The trace tells the lines -/

/-- The lines that events, the newest first, make of those before them (R11). -/
def Lines.afterAll (w : Width) (new : List Event) (l : Lines) : Lines := new.foldr (fun e m => m.after w e) l

theorem Lines.afterAll_append (w : Width) (a b : List Event) (l : Lines) :
    l.afterAll w (a ++ b) = (l.afterAll w b).afterAll w a :=
  List.foldr_append

theorem Lines.afterAll_eq_foldl (w : Width) (new : List Event) (l : Lines) :
    l.afterAll w new = new.reverse.foldl (Lines.after w) l :=
  List.foldl_reverse.symm

/-- What a trace tells continues what its older part tells. -/
theorem linesAfter_append (c : Config) (new old : List Event) :
    linesAfter c (new ++ old) = (linesAfter c old).afterAll c.width new := by
  induction new with
  | nil => rfl
  | cons e new ih => exact congrArg (Lines.after c.width · e) ih

/-- State `t` continues the trace of `s`, and its lines and captured words are those that the new events make of the
ones of `s`. -/
structure TracedFrom (s t : State) : Prop where
  cfg : t.cfg = s.cfg
  traced : ∃ new, t.trace = new ++ s.trace ∧ t.lines = s.lines.afterAll s.cfg.width new

/-- No event: the trace and the lines are as they were. -/
theorem TracedFrom.silent {s t : State} (hc : t.cfg = s.cfg) (ht : t.trace = s.trace) (hl : t.lines = s.lines) :
    TracedFrom s t := ⟨hc, [], ht, hl⟩

theorem TracedFrom.refl (s : State) : TracedFrom s s := .silent rfl rfl rfl

theorem TracedFrom.trans {s t u : State} (h : TracedFrom s t) (k : TracedFrom t u) : TracedFrom s u := by
  obtain ⟨a, hat, hal⟩ := h.traced
  obtain ⟨b, hbt, hbl⟩ := k.traced
  refine ⟨k.cfg.trans h.cfg, b ++ a, ?_, ?_⟩
  · rw [hbt, hat, List.append_assoc]
  · rw [hbl, hal, h.cfg, Lines.afterAll_append]

theorem MicroOp.effect_tracedFrom (op : MicroOp) (s : State) : TracedFrom s (op.effect s) :=
  ⟨op.effect_cfg s, op.effect_lines s⟩

/-- The end of a request is one event, which moves no line (R32). -/
theorem State.complete_tracedFrom (st : Status) (s : State) : TracedFrom s (s.complete st) :=
  ⟨rfl, [.done st], rfl, rfl⟩

/-- Acceptance is no event (R72). -/
theorem State.accept_tracedFrom (p : Presented) (rest : List Presented) (s : State) :
    TracedFrom s (s.accept p rest) := .silent rfl rfl rfl

/-- Everything any request does besides its micro-operations is silent. -/
theorem tracedFrom_invariant (s : State) (i : Instr) : Invariant i (TracedFrom s) :=
  Invariant.ofAll
    (closed :=
      { faults := fun _ _ h => h.trans (.silent rfl rfl rfl)
        effect := fun t op _ _ h => h.trans (op.effect_tracedFrom t)
        lost := fun _ h => h.trans (.silent rfl rfl rfl) })
    (pixFmt := fun _ _ h => h.trans (.silent rfl rfl rfl))
    (inited := fun _ _ h => h.trans (.silent rfl rfl rfl))
    (deviceReset := fun _ h => h.trans (.silent rfl rfl rfl))
    (enc := fun _ _ _ h => h.trans (.silent rfl rfl rfl))
    (rdWords := fun _ _ _ h => h.trans (.silent rfl rfl rfl)) i

theorem exec_tracedFrom {i : Instr} {s t : State} (hx : exec i s = .next t) : TracedFrom s t :=
  exec_keeps (tracedFrom_invariant s i) (fun u st h => h.trans (u.complete_tracedFrom st)) (.refl s) hx

theorem step_tracedFrom {s t : State} (hx : step s = .next t) : TracedFrom s t :=
  step_keeps (tracedFrom_invariant s) (fun u st h => h.trans (u.complete_tracedFrom st))
    (fun u p rest h => h.trans (u.accept_tracedFrom p rest)) (.refl s) hx

theorem TracedFrom.linesFollowTrace {s t : State} (h : TracedFrom s t) (hs : s.LinesFollowTrace) :
    t.LinesFollowTrace := by
  obtain ⟨new, ht, hl⟩ := h.traced
  calc
    t.lines = s.lines.afterAll s.cfg.width new := hl
    _ = (linesAfter s.cfg s.trace).afterAll s.cfg.width new := by rw [hs]
    _ = linesAfter t.cfg t.trace := by rw [h.cfg, ht, linesAfter_append]

/-- Settles O56: a request's new events, oldest first, are its part of the trace, and the lines follow them. -/
theorem requestsAppendToTheTrace : Obligations.RequestsAppendToTheTrace := by
  intro i s t hx
  obtain ⟨new, ht, hl⟩ := (exec_tracedFrom hx).traced
  refine ⟨new.reverse, ?_, ?_⟩
  · simp only [State.events, ht, List.reverse_append]
  · rw [hl, Lines.afterAll_eq_foldl]

/-- Settles O57: what a step adds to the trace continues the account of the lines that the older trace gives. -/
theorem stepKeepsLinesFollowTrace : Obligations.StepKeepsLinesFollowTrace :=
  fun _ _ hs hx => (step_tracedFrom hx).linesFollowTrace hs

end Sys2Proof.Machine

/-! State: the invariants of the block, and which request writes which field (O7 to O9, O19 to O22, O58 to O60). -/

namespace Sys2Proof.Machine

/-! ## Width and direction of the data pins -/

theorem busWord_lowOnes (w : Width) : busWord w (lowOnes w.bits) = lowOnes w.bits :=
  BitVec.and_self

theorem busWord_setBit {w : Width} {v : Word} {i : Nat} (b : Level) (hv : busWord w v = v) (hi : i < w.bits) :
    busWord w (setBit v i b) = setBit v i b := by
  refine busWord_zero_of_high fun j hj hj' => ?_
  rw [setBit_getLsbD v i j b hj', if_neg (by omega), ← hv, busWord_getLsbD]
  simp [Nat.not_lt.mpr hj]

theorem setBit_lowOnes {n i : Nat} (hi : i < n) : setBit (lowOnes n) i true = lowOnes n := by
  apply BitVec.eq_of_getLsbD_eq
  intro j hj
  rw [setBit_getLsbD _ _ _ _ hj, lowOnes_getLsbD]
  split
  · simp [show j < n by omega, hj]
  · rfl

/-- The invariant of the data pins reads the parameters, `DOUT` and `DDIR` only. -/
theorem State.DataPinsFit.of_eq {s t : State} (h : s.DataPinsFit) (hc : t.cfg = s.cfg) (ho : t.dout = s.dout)
    (hd : t.ddir = s.ddir) : t.DataPinsFit := by
  rw [State.DataPinsFit, hc, ho, hd]
  exact h

/-- The direction of a bus pin may change, on output-only pins only to output, where it is already (R95). -/
theorem State.setDir_dataPinsFit {i : Nat} {dir : Dir} {s : State} (hi : i < s.cfg.width.bits)
    (hdir : s.cfg.pinVariant = .outputOnly → dir = .output) (h : s.DataPinsFit) : (s.setDir i dir).DataPinsFit := by
  obtain ⟨hout, hd, hones⟩ := h
  refine ⟨hout, busWord_setBit _ hd hi, fun hv => ?_⟩
  rw [State.setDir_ddir, hones hv, hdir hv]
  exact setBit_lowOnes hi

theorem State.setPin_dataPinsFit {p : Pin} {s : State} (v : Level) (hp : (MicroOp.set p v).fits s.cfg = true)
    (h : s.DataPinsFit) : (s.setPin p v).DataPinsFit := by
  cases p with
  | d i =>
    obtain ⟨hout, hd, hones⟩ := h
    exact ⟨busWord_setBit v hout (of_decide_eq_true hp), hd, hones⟩
  | wrx =>
    refine h.of_eq (by simp) ?_ (by simp)
    simp only [State.setPin]
    split <;> simp
  | _ => exact h.of_eq rfl rfl rfl

/-- A micro-operation that names only pins of the bus keeps the data pins in their bounds. -/
theorem MicroOp.effect_dataPinsFit {op : MicroOp} {s : State} (hf : op.fits s.cfg = true) (h : s.DataPinsFit) :
    (op.effect s).DataPinsFit := by
  cases op with
  | mode i dir =>
    simp only [MicroOp.fits, Bool.and_eq_true, Bool.or_eq_true, beq_iff_eq, decide_eq_true_eq] at hf
    obtain ⟨hi, hdir⟩ := hf
    have hout : s.cfg.pinVariant = .outputOnly → dir = .output := fun hv => hdir.resolve_right (by simp [hv])
    exact (State.setDir_dataPinsFit hi hout h).of_eq rfl rfl rfl
  | set p v => exact (State.setPin_dataPinsFit v hf h).of_eq rfl rfl rfl
  | serialWrite m burst =>
    have hl := State.captureBurst_lines m burst s
    exact h.of_eq (MicroOp.effect_cfg _ s) (congrArg Lines.dout hl) (congrArg Lines.ddir hl)
  | serialRead k =>
    obtain ⟨hl, _⟩ := State.senseSamples_frame s.cfg.width.bits k s
    exact h.of_eq (MicroOp.effect_cfg _ s) (congrArg Lines.dout hl) (congrArg Lines.ddir hl)
  | _ => exact h.of_eq (MicroOp.effect_cfg _ s) (by simp [MicroOp.effect]) (by simp [MicroOp.effect])

/-- Outside its micro-operations no request touches a data pin. -/
theorem dataPinsFit_invariant (i : Instr) : Invariant i State.DataPinsFit :=
  Invariant.ofAll
    (closed :=
      { faults := fun _ _ h => h
        effect := fun _ _ _ hf h => MicroOp.effect_dataPinsFit hf h
        lost := fun _ h => h })
    (pixFmt := fun _ _ h => h)
    (inited := fun _ _ h => h)
    (deviceReset := fun _ h => h)
    (enc := fun _ _ _ h => h)
    (rdWords := fun _ _ _ h => h) i

/-- Settles O58: every micro-operation of a request names pins of the bus, and an output-only pin never becomes an
input. -/
theorem stepKeepsDataPinsFit : Obligations.StepKeepsDataPinsFit :=
  fun _ _ hs hx => step_keeps dataPinsFit_invariant (fun _ _ h => h) (fun _ _ _ h => h) hs hx

/-! ## Flags -/

theorem lastStatus_cons_of_not_done {e : Event} (he : ∀ st, e ≠ .done st) (t : List Event) :
    lastStatus (e :: t) = lastStatus t := by
  cases e with
  | done st => exact absurd rfl (he st)
  | _ => rfl

/-- No micro-operation ends a request: the newest `Done` stays, and `SEQ` stays a number or idle. -/
theorem MicroOp.effect_progress (op : MicroOp) (s : State) :
    lastStatus (op.effect s).trace = lastStatus s.trace ∧ (op.effect s).seq.isSome = s.seq.isSome := by
  rcases op.effect_trace s with ⟨ht, hq⟩ | ⟨e, ht, hq, he⟩
  · rw [ht, hq]
    exact ⟨rfl, rfl⟩
  · rw [ht, hq]
    exact ⟨lastStatus_cons_of_not_done he _, Option.isSome_map⟩

theorem MicroOp.effect_flagsAgree (op : MicroOp) {s : State} (h : s.FlagsAgree) : (op.effect s).FlagsAgree := by
  obtain ⟨hbusy, hstatus, henc⟩ := h
  obtain ⟨core, _⟩ := op.effect_sameCore s
  obtain ⟨hlast, hsome⟩ := op.effect_progress s
  rw [State.FlagsAgree, core.busy, core.status, core.enc, hlast, hsome]
  exact ⟨hbusy, hstatus, henc⟩

theorem State.FlagsAgree.complete {s : State} (h : s.FlagsAgree) (st : Status) : (s.complete st).FlagsAgree :=
  let ⟨_, _, henc⟩ := h
  ⟨rfl, rfl, henc⟩

theorem State.FlagsAgree.accept {s : State} (h : s.FlagsAgree) (p : Presented) (rest : List Presented) :
    (s.accept p rest).FlagsAgree :=
  let ⟨_, hstatus, henc⟩ := h
  ⟨rfl, hstatus, henc⟩

/-- Besides its micro-operations a request writes no flag, and into `ENC` one encoded pixel only (R31). -/
theorem flagsAgree_invariant (i : Instr) : Invariant i State.FlagsAgree :=
  Invariant.ofAll
    (closed :=
      { faults := fun _ _ h => h
        effect := fun _ op _ _ h => op.effect_flagsAgree h
        lost := fun _ h => h })
    (pixFmt := fun _ _ h => h)
    (inited := fun _ _ h => h)
    (deviceReset := fun _ h => h)
    (enc := fun _ _ hlen ⟨hbusy, hstatus, _⟩ => ⟨hbusy, hstatus, hlen⟩)
    (rdWords := fun _ _ _ h => h) i

/-- Settles O59: only acceptance and the end of a request move the flags, and they move them together. -/
theorem stepKeepsFlagsAgree : Obligations.StepKeepsFlagsAgree :=
  fun _ _ hs hx =>
    step_keeps flagsAgree_invariant (fun _ st h => h.complete st) (fun _ p rest h => h.accept p rest) hs hx

/-! ## The reset -/

theorem resetOf_dataPinsFit (c : Config) : (State.resetOf c).DataPinsFit := by
  change busWord c.width 0 = 0 ∧ busWord c.width (State.ddirAtReset c) = State.ddirAtReset c ∧
    (c.pinVariant = .outputOnly → State.ddirAtReset c = lowOnes c.width.bits)
  have hzero : busWord c.width 0 = 0 := BitVec.zero_and
  unfold State.ddirAtReset
  split
  · rename_i hv
    exact ⟨hzero, hzero, fun ho => by simp [hv] at ho⟩
  · exact ⟨hzero, busWord_lowOnes c.width, fun _ => rfl⟩

/-- Settles O60: the trace is empty, the pins are idle or hardwired, and no request has run. -/
theorem resetMeetsTheInvariants : Obligations.ResetMeetsTheInvariants :=
  fun c => ⟨rfl, resetOf_dataPinsFit c, rfl, rfl, Nat.zero_le 3⟩

/-- Settles O8: the values stand in the definition of the reset. -/
theorem resetGivesTheStatedValues : Obligations.ResetGivesTheStatedValues :=
  fun _ => ⟨rfl, rfl, rfl, rfl, rfl, rfl, rfl, rfl⟩

/-! ## A format command that fails -/

theorem Progress.raised_of_bind_going {p : Progress} {g : State → State} {e : Status} {t : State}
    (h : (p.bind fun u => .going (g u)) = .raised e t) : p = .raised e t := by
  cases p with
  | raised e' u => exact h
  | going u => cases h
  | stalled u => cases h

theorem noteLost_raised_devFmt {p : Progress} {e : Status} {t : State} (h : noteLost 0x3A p = .raised e t) :
    t.ghost.devFmt = .unknown := by
  cases p with
  | raised e' u =>
    cases h
    rfl
  | going u => cases h
  | stalled u => cases h

/-- A format command that raises an error keeps the tag; unless the operand itself was refused, the device may have
been told in part (R146). -/
theorem setFormat_raised {fmt : BitVec 3} {s t : State} {e : Status} (h : setFormat fmt s = .raised e t) :
    t.pixFmt = s.pixFmt ∧ (e = .busWriteError → t.ghost.devFmt = .unknown) := by
  unfold setFormat at h
  split at h
  · cases h
    exact ⟨rfl, fun he => by cases he⟩
  · rename_i param tag _
    have hsend : sendWire 0x3A [param] s = .raised e t := Progress.raised_of_bind_going h
    have hkeep := sendWire_closed (writesKeepTag s) 0x3A [param] (s := s) ⟨rfl, rfl⟩
    rw [Progress.state_of_raised hsend] at hkeep
    exact ⟨hkeep.1, fun _ => noteLost_raised_devFmt hsend⟩

/-- Settles O19: a status other than OK comes from an error that the format command raised. -/
theorem failedFormatCommandKeepsTheTag : Obligations.FailedFormatCommandKeepsTheTag := by
  intro s t fmt hx hst
  have ht : t = (setFormat fmt s).settle := (exec_next hx).1
  cases hp : setFormat fmt s with
  | going u =>
    rw [hp] at ht
    subst ht
    exact absurd rfl hst
  | raised e u =>
    rw [hp] at ht
    subst ht
    obtain ⟨htag, hlost⟩ := setFormat_raised hp
    exact ⟨htag, hlost⟩
  | stalled u => exact absurd hp (setFormat_ends fmt s u)

/-! ## Which request writes which field -/

/-- A request that stores no format leaves `PIXFMT` alone in everything it does. -/
theorem pixFmt_invariant {i : Instr} (hi : writesFormat i = false) (s : State) :
    Invariant i fun u => u.pixFmt = s.pixFmt where
  closed :=
    { faults := fun _ _ h => h
      effect := fun u op _ _ h => (op.effect_sameCore u).1.pixFmt.trans h
      lost := fun _ h => h }
  pixFmt := fun hw => by simp [hi] at hw
  inited := fun _ _ _ h => h
  deviceReset := fun _ _ h => h
  enc := fun _ _ _ _ h => h
  rdWords := fun _ _ _ _ h => h

/-- Settles O20: of the instructions only the two excluded ones store a format. -/
theorem onlyFormatRequestsWritePixFmt : Obligations.OnlyFormatRequestsWritePixFmt := by
  intro i s t hinit hset hx
  have hi : writesFormat i = false := by
    cases i with
    | init fmt => exact absurd rfl (hinit fmt)
    | setPixelFormat fmt => exact absurd rfl (hset fmt)
    | _ => rfl
  exact exec_keeps (pixFmt_invariant hi s) (fun _ _ h => h) rfl hx

/-- A request other than INIT sets no reset pin, and leaves `INITED` and `RESX` alone in everything it does. -/
theorem initedResx_invariant {i : Instr} (hi : isInit i = false) (s : State) :
    Invariant i fun u => u.inited = s.inited ∧ u.resx = s.resx where
  closed :=
    { faults := fun _ _ h => h
      effect := fun u op hk _ h =>
        ⟨(op.effect_sameCore u).1.inited.trans h.1, (op.effect_resx (kindOf_notReset hi hk) u).trans h.2⟩
      lost := fun _ h => h }
  pixFmt := fun _ _ _ h => h
  inited := fun hn => by simp [hi] at hn
  deviceReset := fun _ _ h => h
  enc := fun _ _ _ _ h => h
  rdWords := fun _ _ _ _ h => h

/-- Settles O21: the two fields are an invariant of every request but INIT. -/
theorem onlyInitWritesInitedAndResx : Obligations.OnlyInitWritesInitedAndResx :=
  fun _ s _ hi hx => exec_keeps (initedResx_invariant hi s) (fun _ _ h => h) ⟨rfl, rfl⟩ hx

/-- A request other than WRITE_REPEATED_PIXEL leaves `ENC` alone in everything it does. -/
theorem enc_invariant {i : Instr} (hi : isRepeat i = false) (s : State) : Invariant i fun u => u.enc = s.enc where
  closed :=
    { faults := fun _ _ h => h
      effect := fun u op _ _ h => (op.effect_sameCore u).1.enc.trans h
      lost := fun _ h => h }
  pixFmt := fun _ _ _ h => h
  inited := fun _ _ _ h => h
  deviceReset := fun _ _ h => h
  enc := fun hr => by simp [hi] at hr
  rdWords := fun _ _ _ _ h => h

/-- A request that does not read leaves the samples and the levels to come alone in everything it does. -/
theorem sameInputs_invariant {i : Instr} (hi : isRead i = false) (s : State) : Invariant i (SameInputs s) where
  closed :=
    { faults := fun _ _ h => h.trans ⟨rfl, rfl, rfl⟩
      effect := fun u _ hk _ h => h.trans (MicroOp.effect_sameInputs (kindOf_readsNothing hi hk) u)
      lost := fun _ h => h.trans ⟨rfl, rfl, rfl⟩ }
  pixFmt := fun _ _ _ h => h.trans ⟨rfl, rfl, rfl⟩
  inited := fun _ _ _ h => h.trans ⟨rfl, rfl, rfl⟩
  deviceReset := fun _ _ h => h.trans ⟨rfl, rfl, rfl⟩
  enc := fun _ _ _ _ h => h.trans ⟨rfl, rfl, rfl⟩
  rdWords := fun hr => by simp [hi] at hr

/-- Settles O22: `ENC` is an invariant of every request but the repeating one, the samples and the levels of every
request but the two reads. -/
theorem onlyNamedRequestsWriteEncAndSamples : Obligations.OnlyNamedRequestsWriteEncAndSamples := by
  intro i s t hx
  constructor
  · intro hrep
    have hi : isRepeat i = false := by
      cases i with
      | writeRepeatedPixel p n => exact absurd rfl (hrep p n)
      | _ => rfl
    exact exec_keeps (enc_invariant hi s) (fun _ _ h => h) rfl hx
  · intro hcmd hbus
    have hi : isRead i = false := by
      cases i with
      | readCommand opc n => exact absurd rfl (hcmd opc n)
      | busRead => exact absurd rfl hbus
      | _ => rfl
    have h : SameInputs s t :=
      exec_keeps (sameInputs_invariant hi s) (fun _ _ h => h.trans ⟨rfl, rfl, rfl⟩) (.refl s) hx
    exact ⟨h.rdWords, h.levels⟩

/-! ## Waiting and refusing -/

theorem State.presented_of_pending_nil {s : State} (h : s.pending = []) : s.presented = none := by
  rw [State.presented, h]

theorem step_of_busy {s : State} (h : s.busy = true) : step s = .fault .neverFinishes := by
  rw [step, if_pos h]

theorem step_of_nothing_presented {s : State} (hb : s.busy = false) (hp : s.pending = []) : step s = .next s := by
  rw [step, if_neg (by simp [hb]), State.presented_of_pending_nil hp]

/-- Settles O7: the two branches of a step that accept nothing. -/
theorem idleWaitsAndBlockedStops : Obligations.IdleWaitsAndBlockedStops :=
  fun _ => ⟨step_of_nothing_presented, step_of_busy⟩

/-- Settles O9: every request but INIT asks `INITED` first, READ_COMMAND and the rectangles before their operands
(log 21). -/
theorem onlyInitRunsUninitialised : Obligations.OnlyInitRunsUninitialised := by
  intro i s hs hi
  have hno : ¬ s.inited = true := by simp [hs]
  cases i with
  | init fmt => cases hi
  | _ => exact if_neg hno

end Sys2Proof.Machine

/-! Memory: every request with a meaning answers (O11). -/

namespace Sys2Proof.Machine

/-! ## Operands with a meaning are not refused -/

/-- A word with a positive value is not the word 0. -/
theorem ne_zero_of_one_le_toNat {k : Nat} {v : BitVec k} (hv : 1 ≤ v.toNat) : v ≠ 0 := by
  rintro rfl
  simp at hv

/-- Two extents of at least 1 are no empty rectangle (R79, U3). -/
theorem emptyRect_of_rectangleNotEmpty {w h : Coord} (hm : WellFormed.rectangleNotEmpty w h = true) :
    emptyRect w h = false := by
  obtain ⟨hw, hh⟩ : 1 ≤ w.toNat ∧ 1 ≤ h.toNat := by simpa [WellFormed.rectangleNotEmpty] using hm
  exact Bool.or_eq_false_iff.2
    ⟨beq_false_of_ne (ne_zero_of_one_le_toNat hw), beq_false_of_ne (ne_zero_of_one_le_toNat hh)⟩

/-- A span that ends at 0xFFFF at most does not overflow (R79, U4). -/
theorem spanOverflows_of_spanFits {start extent : Coord} (hm : WellFormed.spanFits start extent = true) :
    spanOverflows start extent = false := by
  have hle : start.toNat + extent.toNat ≤ 0x10000 := of_decide_eq_true hm
  exact decide_eq_false (by omega)

theorem ne_zero_of_someSample {n : BitVec 32} (hm : WellFormed.someSample n = true) : n ≠ 0 :=
  ne_zero_of_one_le_toNat (of_decide_eq_true hm)

/-- The rectangle of the whole panel has a meaning in every block that can be built (R6, R149). -/
theorem panel_meaningful_of_valid {c : Config} (hv : c.Valid) (p1 : Pixel) :
    WellFormed.check (.drawRect 0 0 c.panelW c.panelH p1) = true := by
  obtain ⟨hw, hh, _⟩ := hv
  rw [hw, hh]
  rfl

theorem drawRectangle_of_meaningful {x y w h : Coord} {p1 : Pixel} {s : State} (hs : s.inited = true)
    (hm : WellFormed.check (.drawRect x y w h p1) = true) :
    drawRectangle x y w h p1 s = .next (fillRectangle x y w h p1 s).settle := by
  simp only [WellFormed.check, Bool.and_eq_true] at hm
  obtain ⟨⟨hne, hx⟩, hy⟩ := hm
  simp [drawRectangle, hs, emptyRect_of_rectangleNotEmpty hne, spanOverflows_of_spanFits hx,
    spanOverflows_of_spanFits hy]

theorem execReadCommand_of_someSample (opc : Byte) {n : BitVec 32} {s : State} (hs : s.inited = true)
    (hm : WellFormed.someSample n = true) :
    execReadCommand opc n s = .next (loseSamples (readAfterOpcode opc n.toNat s)).settle := by
  rw [execReadCommand, if_pos hs, if_neg (by simpa using ne_zero_of_someSample hm)]

/-- A request with a meaning does its work: the converse of `exec_next`. -/
theorem exec_of_meaningful {i : Instr} {s : State} (hm : WellFormed.check i = true)
    (hs : s.inited = true ∨ isInit i = true) (hv : s.cfg.Valid) : exec i s = .next (body i s).settle := by
  rcases hs with hin | hinit
  · cases i with
    | init fmt => rfl
    | readCommand opc n => exact execReadCommand_of_someSample opc hin hm
    | drawRect x y w h p1 => exact drawRectangle_of_meaningful hin hm
    | clearScreen => exact drawRectangle_of_meaningful hin (panel_meaningful_of_valid hv _)
    | _ => exact if_pos hin
  · cases i with
    | init fmt => rfl
    | _ => cases hinit

/-! ## A request that ends tells its status -/

/-- Nothing a request does before its end moves `BUSY` (R32). -/
theorem busy_invariant (i : Instr) : Invariant i fun u => u.busy = true :=
  Invariant.ofAll
    (closed :=
      { faults := fun _ _ h => h
        effect := fun u op _ _ h => (op.effect_sameCore u).1.busy.trans h
        lost := fun _ h => h })
    (pixFmt := fun _ _ h => h)
    (inited := fun _ _ h => h)
    (deviceReset := fun _ h => h)
    (enc := fun _ _ _ h => h)
    (rdWords := fun _ _ _ h => h) i

/-- Both ends of a request store and tell a status; a request that waits leaves `BUSY` as it is (R196, R207). -/
theorem Progress.settle_endedWith {p : Progress} (hp : p.state.busy = true) (hend : p.settle.busy = false) :
    p.settle.EndedWith p.settle.status := by
  cases p with
  | going u => exact ⟨rfl, rfl, rfl, rfl⟩
  | raised e u => exact ⟨rfl, rfl, rfl, rfl⟩
  | stalled u => exact absurd (hp.symm.trans hend) (by decide)

/-- Settles O11: operands with a meaning pass every check, and of the ways a request can leave the block only the two
ends clear `BUSY`. -/
theorem everyMeaningfulRequestAnswers : Obligations.EveryMeaningfulRequestAnswers := by
  intro i s hm hs hv hb
  exact ⟨(body i s).settle, exec_of_meaningful hm hs hv, Progress.settle_endedWith (body_keeps (busy_invariant i) hb)⟩

end Sys2Proof.Machine

/-! Encoding: the decoder, acceptance, and the requests that end before their first transaction (O1 to O6, O10, O14,
O18, O28, O48). -/

namespace Sys2Proof

/-! ## Presenting and decoding -/

/-- A mode is read back from its port field (R71). -/
theorem modeOfField_fieldOfMode (m : Mode) : modeOfField (fieldOfMode m) = m := by
  cases m <;> rfl

/-- The selector alone picks the row; the other fields are read as they stand (R74). -/
theorem decode_port_of_op {r : PortRequest} {op : BitVec 4} (h : r.op = op) :
    decode (.port r) = decodePort { r with op := op } := by
  subst h
  rfl

/-- The selectors 0xD to 0xF pick no row (R82). -/
theorem decode_port_reserved {r : PortRequest} (h : r.op = 0xD#4 ∨ r.op = 0xE#4 ∨ r.op = 0xF#4) :
    decode (.port r) = .reservedSelector r.op := by
  rcases h with h | h | h <;> exact (decode_port_of_op h).trans (by rw [h]; rfl)

/-- Settles O1: each row's selector or wire opcode picks that row again, and pixels, modes and coordinates are read back
from their fields and bytes. -/
theorem decodeOfEncode : Obligations.DecodeOfEncode := by
  intro i
  cases i with
  | writePixels p1 p2 =>
    cases p2 with
    | none =>
      change Decoded.instr (.writePixels (pixelOfField (fieldOfPixel p1)) none) = _
      rw [pixelOfField_fieldOfPixel]
    | some q =>
      change Decoded.instr (.writePixels (pixelOfField (fieldOfPixel p1)) (some (pixelOfField (fieldOfPixel q)))) = _
      rw [pixelOfField_fieldOfPixel, pixelOfField_fieldOfPixel]
  | writeRepeatedPixel p1 len =>
    change Decoded.instr (.writeRepeatedPixel (pixelOfField (fieldOfPixel p1)) len) = _
    rw [pixelOfField_fieldOfPixel]
  | drawPixel x y p1 =>
    change Decoded.instr (.drawPixel x y (pixelOfField (fieldOfPixel p1))) = _
    rw [pixelOfField_fieldOfPixel]
  | drawRect x y w h p1 =>
    change Decoded.instr (.drawRect x y w h (pixelOfField (fieldOfPixel p1))) = _
    rw [pixelOfField_fieldOfPixel]
  | busWrite mode len =>
    change Decoded.instr (.busWrite (modeOfField (fieldOfMode mode)) len) = _
    rw [modeOfField_fieldOfMode]
  | cmdColumnAddressSet a0 a1 =>
    change Decoded.instr (.cmdColumnAddressSet (coordOfBytes (hiByte a0) (loByte a0))
      (coordOfBytes (hiByte a1) (loByte a1))) = _
    rw [coordOfBytes_bytes, coordOfBytes_bytes]
  | cmdPageAddressSet a0 a1 =>
    change Decoded.instr (.cmdPageAddressSet (coordOfBytes (hiByte a0) (loByte a0))
      (coordOfBytes (hiByte a1) (loByte a1))) = _
    rw [coordOfBytes_bytes, coordOfBytes_bytes]
  | _ => rfl

/-- Settles O2: with the selector known the row is read off the selector map; two rows read one further bit. -/
theorem selectorsSelectRequests : Obligations.SelectorsSelectRequests := fun r =>
  ⟨decode_port_of_op, decode_port_of_op, decode_port_of_op, decode_port_of_op, decode_port_of_op, decode_port_of_op,
    fun h h2 => (decode_port_of_op h).trans (by rw [decodePort, h2]; rfl),
    fun h h2 => (decode_port_of_op h).trans (by rw [decodePort, h2]; rfl),
    decode_port_of_op, decode_port_of_op, decode_port_of_op, decode_port_of_op,
    fun h hm => (decode_port_of_op h).trans (by rw [decodePort, hm]; rfl),
    fun h hm => (decode_port_of_op h).trans (by rw [decodePort, hm]; rfl),
    decode_port_of_op⟩

/-- Settles O3: each line of R76 is, bit for bit, what the encoder makes of the instruction. -/
theorem wireOpcodesDecode : Obligations.WireOpcodesDecode :=
  ⟨decodeOfEncode .cmdNop, decodeOfEncode .cmdSoftwareReset, decodeOfEncode .cmdSleepOut,
    decodeOfEncode .cmdNormalDisplayMode, decodeOfEncode .cmdDisplayInversionOff, decodeOfEncode .cmdDisplayOn,
    decodeOfEncode (.cmdColumnAddressSet 0x0012 0x0140), decodeOfEncode (.cmdPageAddressSet 0 479),
    decodeOfEncode .cmdMemoryWrite, decodeOfEncode (.cmdMemoryAccessControl 0x48), decodeOfEncode .cmdIdleModeOff,
    decodeOfEncode (.cmdInterfacePixelFormat 0x55)⟩

end Sys2Proof

namespace Sys2Proof.Machine

/-! ## Acceptance -/

theorem State.presented_of_pending_cons {s : State} {p : Presented} {rest : List Presented}
    (h : s.pending = p :: rest) : s.presented = some (p, rest) := by
  rw [State.presented, h]

/-- Settles O5: an idle block takes the first presented instruction, and the decoder names it. -/
theorem stepRunsThePresentedInstruction : Obligations.StepRunsThePresentedInstruction := by
  intro s p rest i hb hp hd
  simp [step, hb, State.presented_of_pending_cons hp, hd]

/-- A reserved selector is refused before acceptance (R72, R82). -/
theorem step_of_reservedSelector {s : State} {p : Presented} {rest : List Presented} {op : BitVec 4}
    (hb : s.busy = false) (hp : s.pending = p :: rest) (hd : decode p = .reservedSelector op) :
    step s = .refused (.reservedSelector op) := by
  simp [step, hb, State.presented_of_pending_cons hp, hd]

/-- Settles O4: the decoder gives the three selectors back as reserved. -/
theorem reservedSelectorsAreRefused : Obligations.ReservedSelectorsAreRefused :=
  fun _ _ _ hb hp hr => step_of_reservedSelector hb hp (decode_port_reserved hr)

/-- Settles O6: acceptance writes the fields that the statement names, and each field stands in its definition. -/
theorem acceptanceLatchesTheRequest : Obligations.AcceptanceLatchesTheRequest := by
  intro s r rest t
  and_intros <;> rfl

/-! ## Wire commands on the request port -/

/-- A wire command does what its presented form says (R150 to R161). -/
theorem exec_of_encode_wire {i : Instr} {opc : Byte} {params : List Byte} (h : encode i = .wire opc params)
    (s : State) : exec i s = wireCommand opc params s := by
  cases i with
  | writePixels p1 p2 => cases p2 <;> cases h
  | _ => cases h <;> rfl

/-- No wire command has more than the four parameters of a window (R76). -/
theorem length_le_of_encode_wire {i : Instr} {opc : Byte} {params : List Byte} (h : encode i = .wire opc params) :
    params.length ≤ 4 := by
  cases i with
  | writePixels p1 p2 => cases p2 <;> cases h
  | _ => cases h <;> simp [coordBytes]

/-- Parameter bytes pass the 8-bit payload port of WRITE_COMMAND unchanged (R71, R75). -/
theorem payload_of_params (params : List Byte) :
    (params.map wordOfByte).map (fun v => wordOfByte (byteOfWord v)) = params.map wordOfByte := by
  simp

theorem whenInited_congr {s t : State} {f g : State → State} (hi : t.inited = s.inited) (h : f t = g s) :
    whenInited t f = whenInited s g := by
  rw [whenInited, whenInited, hi, h]

/-- WRITE_COMMAND of streamed parameter bytes is the wire command with those bytes: no pin operation reads the payload
that is still to come. -/
theorem execWriteCommand_withPayload (opc : Byte) {params : List Byte} (hn : params.length < 2 ^ 32) (s : State) :
    execWriteCommand opc (BitVec.ofNat 32 params.length) (s.withPayload (params.map wordOfByte)) =
      wireCommand opc params s := by
  refine whenInited_congr rfl ?_
  have hlen : (BitVec.ofNat 32 params.length).toNat = params.length := Nat.mod_eq_of_lt hn
  have hpl : (s.withPayload (params.map wordOfByte)).plWords = params.map wordOfByte := rfl
  rw [hlen, hpl, payload_of_params]
  exact sendCommand_settle_withPayload opc (by simp) _ s

/-- Settles O28: both sides are the wire command of the opcode and its parameter bytes. -/
theorem wireCommandsAreWriteCommands : Obligations.WireCommandsAreWriteCommands := by
  intro s i opc params h
  have hn : params.length < 2 ^ 32 := by
    have := length_le_of_encode_wire h
    omega
  calc
    exec i s = wireCommand opc params s := exec_of_encode_wire h s
    _ = exec (.writeCommand opc (BitVec.ofNat 32 params.length)) (s.withPayload (params.map wordOfByte)) :=
      (execWriteCommand_withPayload opc hn s).symm

/-! ## Operands without a meaning -/

theorem emptyRect_iff (w h : Coord) : emptyRect w h = true ↔ w = 0 ∨ h = 0 := by
  simp [emptyRect]

theorem spanOverflows_iff (start extent : Coord) :
    spanOverflows start extent = true ↔ 0xFFFF < start.toNat + extent.toNat - 1 :=
  decide_eq_true_iff

theorem drawRectangle_of_empty {x y w h : Coord} {p1 : Pixel} {s : State} (hs : s.inited = true)
    (he : w = 0 ∨ h = 0) : drawRectangle x y w h p1 s = .refused .emptyRectangle := by
  rw [drawRectangle, if_pos hs, if_pos ((emptyRect_iff w h).2 he)]

theorem drawRectangle_of_overflow {x y w h : Coord} {p1 : Pixel} {s : State} (hs : s.inited = true)
    (hne : ¬ (w = 0 ∨ h = 0)) (ho : spanOverflows x w = true ∨ spanOverflows y h = true) :
    drawRectangle x y w h p1 s = .refused .coordinateOverflow := by
  rw [drawRectangle, if_pos hs, if_neg (mt (emptyRect_iff w h).1 hne), if_pos (by rwa [Bool.or_eq_true])]

theorem execReadCommand_zero (opc : Byte) {s : State} (hs : s.inited = true) :
    execReadCommand opc 0 s = .refused .zeroSamples := by
  rw [execReadCommand, if_pos hs, if_pos (beq_self_eq_true _)]

/-- Settles O10: emptiness is asked before the end coordinates, and both before any pin operation. -/
theorem operandsWithoutMeaningAreRefused : Obligations.OperandsWithoutMeaningAreRefused := by
  intro s hs
  refine ⟨fun x y w h p he => drawRectangle_of_empty hs he, fun x y w h p hw hh ho => ?_,
    fun opc => execReadCommand_zero opc hs⟩
  exact drawRectangle_of_overflow hs (not_or.2 ⟨hw, hh⟩) (ho.imp (spanOverflows_iff x w).2 (spanOverflows_iff y h).2)

/-! ## Requests that fail before a pin operation -/

theorem State.complete_events (st : Status) (s : State) : (s.complete st).events = s.events ++ [.done st] :=
  List.reverse_cons

theorem State.raise_onlyFails (e : Status) (s : State) : s.OnlyFails e (s.raise e) :=
  ⟨⟨rfl, rfl, rfl, rfl⟩, ⟨rfl, rfl, rfl, rfl, rfl, rfl, rfl, rfl, rfl⟩, rfl, rfl, rfl, rfl, rfl, rfl, rfl, rfl, rfl,
    s.complete_events e⟩

/-- A request whose work raises an error in the state it started from does nothing else. -/
theorem onlyFails_of_raised {i : Instr} {s : State} {e : Status} (hx : exec i s = .next (body i s).settle)
    (hb : body i s = .raised e s) : ∃ t, exec i s = .next t ∧ s.OnlyFails e t :=
  ⟨s.raise e, by rw [hx, hb]; rfl, s.raise_onlyFails e⟩

/-- Only 5 and 6 are format operands (R77, R83). -/
theorem formatOf_eq_none {fmt : BitVec 3} (h5 : fmt ≠ 5) (h6 : fmt ≠ 6) : formatOf fmt = none := by
  unfold formatOf
  split
  · next h => exact absurd (BitVec.eq_of_toNat_eq h) h5
  · next h => exact absurd (BitVec.eq_of_toNat_eq h) h6
  · rfl

theorem setFormat_of_invalid {fmt : BitVec 3} (hf : formatOf fmt = none) (s : State) :
    setFormat fmt s = .raised .invalidFormatError s := by
  rw [setFormat, hf]

/-- Settles O18: the operand is checked before anything is sent. -/
theorem invalidFormatOnlyFails : Obligations.InvalidFormatOnlyFails :=
  fun s _ hs h5 h6 => onlyFails_of_raised (if_pos hs) (setFormat_of_invalid (formatOf_eq_none h5 h6) s)

/-- `Rgb565` has no form on 18 bits, for one pixel and for two (R84, R126). -/
theorem encodePixels_rgb565_w18 (pack : Pack565) (p1 : Pixel) (p2 : Option Pixel) :
    encodePixels pack .rgb565 .w18 p1 p2 = none := by
  cases p2 <;> rfl

/-- Settles O48: both requests encode before they send, and there is nothing to send. -/
theorem unencodablePixelOnlyFails : Obligations.UnencodablePixelOnlyFails := by
  intro s p1 p2 len hs hfmt hw
  have hnone : ∀ q, encodePixels s.cfg.pack565 s.pixFmt s.cfg.width p1 q = none := by
    intro q
    rw [hfmt, hw, encodePixels_rgb565_w18]
  constructor
  · exact onlyFails_of_raised (if_pos hs) (by rw [body, writePixelsOp, hnone])
  · exact onlyFails_of_raised (if_pos hs) (by rw [body, repeatPixelOp, hnone])

/-! ## INIT with an invalid format -/

/-- INIT with an invalid format does the reset pulse and raises the error in the state after the monitor's note (R83,
R171). -/
theorem initialiseDevice_of_invalid {fmt : BitVec 3} (hf : formatOf fmt = none) {s t : State}
    (hpulse : runOps .busWriteError (resetPulse s.cfg) { s with inited := false } = .going t) :
    initialiseDevice fmt s = .raised .invalidFormatError t.noteDeviceReset := by
  rw [initialiseDevice, hpulse, Progress.bind_going, setFormat_of_invalid hf, Progress.bind_raised]

/-- Settles O14: the reset pulse is the whole work of the request. -/
theorem initWithInvalidFormatFails : Obligations.InitWithInvalidFormatFails := by
  intro s fmt h5 h6 hq
  obtain ⟨t, hrun, _, hp⟩ := resetPulse_quiet (s := { s with inited := false }) hq
  have hx : exec (.init fmt) s = .next (t.noteDeviceReset.raise .invalidFormatError) :=
    congrArg (fun p : Progress => Host.Outcome.next p.settle) (initialiseDevice_of_invalid (formatOf_eq_none h5 h6) hrun)
  refine ⟨_, hx, ⟨rfl, rfl, rfl, rfl⟩, ⟨hp.core.cfg, hp.core.pixFmt, hp.core.inited, hp.core.lat, hp.core.enc, hp.resx,
    hp.inputs.rdWords, hp.inputs.levels, hp.core.pending⟩, congrArg Lines.cs hp.lines, congrArg Lines.dcx hp.lines,
    congrArg Lines.rdx hp.lines, congrArg Lines.wrx hp.lines, congrArg Lines.dout hp.lines,
    congrArg Lines.ddir hp.lines, congrArg List.reverse hp.captured, ?_⟩
  exact (State.complete_events _ _).trans (congrArg (· ++ [Event.done .invalidFormatError]) hp.events)

end Sys2Proof.Machine

/-! Pins: faults on the reset pin, the guards of the data pins, and reads on output-only pins (O15, O36, O38). -/

namespace Sys2Proof.Machine

/-! ## The guards of the data pins -/

/-- Guards that hold from any directions hold after whatever came before. -/
theorem guardsHold_append {d : Word} {a b : List MicroOp} (ha : guardsHold d a = true)
    (hb : ∀ d, guardsHold d b = true) : guardsHold d (a ++ b) = true := by
  induction d, a using guardsHold.induct with
  | case1 d => exact hb d
  | case2 d ops i dir ih => exact ih ha
  | case3 d ops i v ih =>
    obtain ⟨hi, hrest⟩ := (Bool.and_eq_true _ _).mp ha
    exact (Bool.and_eq_true _ _).mpr ⟨hi, ih hrest⟩
  | case4 d ops i ih =>
    obtain ⟨hi, hrest⟩ := (Bool.and_eq_true _ _).mp ha
    exact (Bool.and_eq_true _ _).mpr ⟨hi, ih hrest⟩
  | case5 d op ops hmode hset hget ih =>
    rw [guardsHold.eq_5 _ _ _ hmode hset hget] at ha
    rw [List.cons_append, guardsHold.eq_5 _ _ _ hmode hset hget, ih ha]

theorem guardsHold_flatMap {α : Type} {f : α → List MicroOp} {l : List α}
    (h : ∀ x ∈ l, ∀ d, guardsHold d (f x) = true) (d : Word) : guardsHold d (l.flatMap f) = true := by
  induction l generalizing d with
  | nil => rfl
  | cons x l ih =>
    exact guardsHold_append (h x List.mem_cons_self d) (ih fun y hy => h y (List.mem_cons_of_mem x hy))

/-- A pin that is switched to output just before may be set. -/
theorem driveWord_guardsHold {n : Nat} (hn : n ≤ 32) (v : Word) (d : Word) :
    guardsHold d (driveWord n v) = true := by
  refine guardsHold_flatMap (fun i hi d => ?_) d
  have hlt : i < 32 := (List.mem_range.mp hi).trans_le hn
  have hset : (setBit d i true).getLsbD i = true := by rw [setBit_getLsbD _ _ _ _ hlt, if_pos rfl]
  exact (Bool.and_true _).trans hset

theorem sendWord_guardsHold {n : Nat} (hn : n ≤ 32) (kv : Mark × Word) (d : Word) :
    guardsHold d (sendWord n kv) = true :=
  guardsHold_append (a := .mark kv.1 :: driveWord n kv.2) (driveWord_guardsHold hn kv.2 d) fun _ => rfl

theorem writeWords_guardsHold {n : Nat} (hn : n ≤ 32) (m : Mode) (burst : List (Mark × Word)) (d : Word) :
    guardsHold d (writeWords n m burst) = true :=
  guardsHold_append (a := openWrite m) rfl (guardsHold_flatMap fun kv _ => sendWord_guardsHold hn kv)

theorem writeOps_guardsHold {c : Config} (hp : c.isSerial = false) (m : Mode) (burst : List (Mark × Word)) (d : Word) :
    guardsHold d (writeOps c m burst) = true := by
  have hw := width_bits_le c.width
  unfold writeOps
  rw [hp]
  split
  · rfl
  · exact guardsHold_append (writeWords_guardsHold (by omega) m burst d) fun _ => rfl

/-- After the data pins were switched to input, what follows may count on that. -/
theorem guardsHold_inputs {n : Nat} (hn : n ≤ 32) {rest : List MicroOp}
    (h : ∀ d : Word, (∀ i < n, d.getLsbD i = false) → guardsHold d rest = true) (d : Word) :
    guardsHold d ((List.range n).map (fun i => .mode i .input) ++ rest) = true := by
  induction n generalizing rest with
  | zero => exact h d (by simp)
  | succ n ih =>
    rw [List.range_succ, List.map_append, List.append_assoc]
    refine ih (by omega) fun d hd => h (setBit d n false) fun i hi => ?_
    rw [setBit_getLsbD _ _ _ _ (by omega)]
    split
    · rfl
    · exact hd i (by omega)

theorem guardsHold_gets {d : Word} {pins : List Nat} (h : ∀ i ∈ pins, d.getLsbD i = false) (rest : List MicroOp) :
    guardsHold d (pins.map .get ++ rest) = guardsHold d rest := by
  induction pins with
  | nil => rfl
  | cons i pins ih =>
    rw [List.map_cons, List.cons_append, guardsHold, h i List.mem_cons_self, Bool.not_false, Bool.true_and,
      ih fun j hj => h j (List.mem_cons_of_mem i hj)]

/-- Any number of samples from pins that are inputs, and the closing of the read. -/
theorem samples_guardsHold {n : Nat} {d : Word} (hd : ∀ i < n, d.getLsbD i = false) (k : Nat) :
    guardsHold d ((List.replicate k (readSample n)).flatten ++ closeRead) = true := by
  induction k with
  | zero => rfl
  | succ k ih =>
    have hone : ∀ rest, guardsHold d (readSample n ++ rest) = guardsHold d rest := fun rest => by
      have hgets := guardsHold_gets (fun i hi => hd i (List.mem_range.mp hi)) ([.set .rdx true, .deliver] ++ rest)
      rwa [← List.append_assoc] at hgets
    rw [List.replicate_succ, List.flatten_cons, List.append_assoc, hone, ih]

theorem readOps_parallel {c : Config} (hp : c.isSerial = false) (k : Nat) :
    readOps c k = .clearSamples ::
      (openRead c.width.bits ++ ((List.replicate k (readSample c.width.bits)).flatten ++ closeRead)) := by
  simp only [readOps, hp, readSamples, Bool.false_eq_true, if_false, List.append_assoc]

theorem readOps_guardsHold {c : Config} (hp : c.isSerial = false) (k : Nat) (d : Word) :
    guardsHold d (readOps c k) = true := by
  have hw := width_bits_le c.width
  rw [readOps_parallel hp, openRead, List.append_assoc]
  exact guardsHold_inputs (by omega) (fun d hd => samples_guardsHold hd k) d

/-- Settles O38: a word is driven pin by pin, each switched to output first, and the data pins are switched to input
once before the samples, after which no pin is switched. -/
theorem modeBeforeAccess : Obligations.ModeBeforeAccess :=
  fun _ ddir m burst k hp => ⟨writeOps_guardsHold hp m burst ddir, readOps_guardsHold hp k ddir⟩

/-! ## Reads on output-only pins -/

/-- The first wish for an input stops a request on output-only pins, after the effects of what came before (R91, R95). -/
theorem runOps_wantsInput (err : Status) {pre rest : List MicroOp} {op : MicroOp} {s : State}
    (hv : s.cfg.pinVariant = .outputOnly) (hpre : ∀ o ∈ pre, o.wantsInput = false) (hop : op.wantsInput = true)
    (hq : s.quietFor (faultCalls pre)) :
    runOps err (pre ++ op :: rest) s =
      .raised .inputNotAvailable ((applyOps pre s).withFaults (spendFaults (faultCalls pre) s.faults)) := by
  rw [runOps_append, runOps_quiet err pre s hq (.inr hpre), Progress.bind_going, runOps, MicroOp.perform]
  simp [hop, hv]

/-- A read opens as a data write does, until it switches its first data pin to input (R101, R106). -/
theorem openRead_opening (w : Width) : ∃ rest, openRead w.bits = openWrite .data ++ .mode 0 .input :: rest := by
  cases w <;> exact ⟨_, rfl⟩

/-- The events of the four operations that open a read (R106). -/
def openingEvents : List Event := [.set .rdx true, .set .wrx true, .set .cs false, .set .dcx true]

/-- The four operations that open a read have been done, and nothing else. -/
structure ReadOpened (s t : State) : Prop where
  cs : t.cs = false
  dcx : t.dcx = true
  ddir : t.ddir = s.ddir
  stream : t.stream = s.stream ++ s.leftWord
  events : t.events = s.events ++ openingEvents

/-- The opening of a read moves the control lines, and completes a write pulse that was left half done (log 17). -/
theorem applyOps_readOpening {s : State} (hp : s.cfg.isSerial = false) :
    ReadOpened s (applyOps (.clearSamples :: openWrite .data) s) := by
  have hrel : applyOps (.clearSamples :: openWrite .data) s = applyOps (openWrite .data) s.released.clearSamples :=
    (congrArg (applyOps [.set .cs false, .set .dcx true]) (applyOps_clear_rise s hp)).symm
  have hpr : s.released.clearSamples.cfg.isSerial = false := by simpa using hp
  obtain ⟨hb, hcap, _, _, _, _, hddir⟩ := applyOps_openWrite .data (s := s.released.clearSamples) s.released_settled hpr
  have hev := applyOps_events (ops := openWrite .data) (by simp [openWrite, MicroOp.readsNothing]) s.released.clearSamples
  rw [hrel]
  exact ⟨hb.cs, hb.dcx, hddir.trans s.released_ddir, (congrArg List.reverse hcap).trans s.released_stream,
    hev.trans (congrArg (· ++ openingEvents) s.released_events)⟩

theorem read_outputOnly (err : Status) (rest : List MicroOp) {s : State} (hp : s.cfg.isSerial = false)
    (hv : s.cfg.pinVariant = .outputOnly) (hq : s.quietFor 4) :
    ∃ t, runOps err (.clearSamples :: (openRead s.cfg.width.bits ++ rest)) s = .raised .inputNotAvailable t ∧
      ReadOpened s t := by
  obtain ⟨modes, hopen⟩ := openRead_opening s.cfg.width
  rw [hopen, List.append_assoc]
  obtain ⟨hcs, hdcx, hddir, hstream, hevents⟩ := applyOps_readOpening hp
  exact ⟨_, runOps_wantsInput err (pre := .clearSamples :: openWrite .data) hv
    (by simp [openWrite, MicroOp.wantsInput]) rfl hq, hcs, hdcx, hddir, hstream, hevents⟩

theorem busRead_outputOnly (k : Nat) {s : State} (hp : s.cfg.isSerial = false)
    (hv : s.cfg.pinVariant = .outputOnly) (hq : s.quietFor 4) :
    ∃ t, busRead k s = .raised .inputNotAvailable t ∧ ReadOpened s t := by
  rw [busRead, readOps_parallel hp]
  exact read_outputOnly _ _ hp hv hq

/-- Whatever the continuation would have answered, the read does not come to ask it. -/
theorem streamRead_outputOnly (answers : List Bool) {s : State} (hp : s.cfg.isSerial = false)
    (hv : s.cfg.pinVariant = .outputOnly) (hq : s.quietFor 4) :
    ∃ t, streamRead answers s = .raised .inputNotAvailable t ∧ ReadOpened s t := by
  unfold streamRead
  split
  · exact busRead_outputOnly _ hp hv hq
  · obtain ⟨t, hrun, ht⟩ := read_outputOnly .busReadError
      (List.replicate (answeredSamples answers).1 (readSample s.cfg.width.bits)).flatten hp hv hq
    rw [hp, if_neg Bool.false_ne_true, readSamples, hrun]
    exact ⟨t, rfl, ht⟩

/-- The opcode of READ_COMMAND is sent undisturbed, and its read stops (R143). -/
theorem readAfterOpcode_outputOnly (opc : Byte) (n : Nat) {s : State} (hp : s.cfg.isSerial = false)
    (hv : s.cfg.pinVariant = .outputOnly) (hq : s.quietFor (writeCost s.cfg 1 + 4)) :
    ∃ r t, Sent [(.command, rawBurst [wordOfByte opc])] s.released r ∧
      readAfterOpcode opc n s = .raised .inputNotAvailable t ∧ ReadOpened r t := by
  have hq1 : s.quietFor (writeCost s.cfg 1) := State.quietFor_mono hq (Nat.le_add_right _ _)
  obtain ⟨r, hw, hsent, _⟩ := busWrite_sent .command (rawBurst [wordOfByte opc]) s.released_settled
    (by simpa using hq1)
  rw [busWrite_released .command (opcode_burst opc) hq1] at hw
  have hc : r.cfg = s.cfg := hsent.core.cfg.trans s.released_cfg
  obtain ⟨t, hread, ht⟩ := busRead_outputOnly n (hc ▸ hp) (hc ▸ hv) (hsent.quiet (by simpa [txCost] using hq))
  exact ⟨r, t, hsent, by rw [readAfterOpcode, hw, Progress.bind_going, hread], ht⟩

theorem someSample_of_ne_zero {n : BitVec 32} (h : n ≠ 0) : WellFormed.someSample n = true :=
  decide_eq_true (Nat.one_le_iff_ne_zero.mpr fun h0 => h (BitVec.eq_of_toNat_eq h0))

/-- The request's end adds the status and its event; what it loses of the samples moves no line (R144, R196). -/
theorem ReadOpened.settle {s t : State} (h : ReadOpened s t) {p : Progress} (hp : p = .raised .inputNotAvailable t) :
    (loseSamples p).settle.EndedWith .inputNotAvailable ∧ (loseSamples p).settle.cs = false ∧
      (loseSamples p).settle.dcx = true ∧ (loseSamples p).settle.ddir = s.ddir ∧
      (loseSamples p).settle.stream = s.stream ++ s.leftWord ∧
      (loseSamples p).settle.events = s.events ++ openingEvents ++ [.done .inputNotAvailable] := by
  subst hp
  exact ⟨⟨rfl, rfl, rfl, rfl⟩, h.cs, h.dcx, h.ddir, h.stream,
    (State.complete_events _ _).trans (congrArg (· ++ [Event.done .inputNotAvailable]) h.events)⟩

/-- Events without a fall of RDX add no read pulse (R11). -/
theorem readPulses_of_events {s t : State} {new : List Event} (h : t.events = s.events ++ new)
    (hn : Event.set .rdx false ∉ new) : readPulses t.trace = readPulses s.trace := by
  have hcount : ∀ u : State, readPulses u.trace = u.events.count (.set .rdx false) :=
    fun u => (List.count_reverse (l := u.trace)).symm
  rw [hcount, hcount, h, List.count_append, List.count_eq_zero_of_not_mem hn, Nat.add_zero]

/-- A write keeps the read strobe high (R101). -/
theorem writeEvents_noReadPulse (c : Config) (m : Mode) (words : List Word) :
    Event.set .rdx false ∉ writeEvents c m words := by
  unfold writeEvents
  split
  · simp
  · split <;> simp

/-- Settles O36: the read is stopped by the wish for its first input, after the four operations that open it. -/
theorem outputOnlyPinsCannotRead : Obligations.OutputOnlyPinsCannotRead := by
  intro s hs hp hv
  constructor
  · intro hq
    obtain ⟨t, hrun, ht⟩ := streamRead_outputOnly s.rdMore hp hv hq
    obtain ⟨hend, hcs, hdcx, hddir, hstream, hevents⟩ := ht.settle hrun
    rw [List.append_assoc] at hevents
    exact ⟨_, if_pos hs, hend, hcs, hdcx, hstream, hddir,
      readPulses_of_events hevents (by simp [openingEvents]), hevents⟩
  · intro opc len hlen hq
    obtain ⟨r, t, hsent, hrun, ht⟩ := readAfterOpcode_outputOnly opc len.toNat hp hv hq
    obtain ⟨hend, hcs, hdcx, _, hstream, hevents⟩ := ht.settle hrun
    rw [State.leftWord_of_settled hsent.settled, hsent.stream] at hstream
    rw [hsent.events] at hevents
    have hev : (loseSamples (readAfterOpcode opc len.toNat s)).settle.events =
        s.events ++ (writeEvents s.cfg .command [wordOfByte opc] ++ (openingEvents ++ [.done .inputNotAvailable])) := by
      simpa [txEvents, rawBurst_snd] using hevents
    refine ⟨_, execReadCommand_of_someSample opc hs (someSample_of_ne_zero hlen), hend, hcs, hdcx,
      by simpa [txStream, tagged, rawBurst] using hstream, readPulses_of_events hev ?_,
      by simpa [openingEvents] using hev⟩
    simp [openingEvents, writeEvents_noReadPulse]

/-! ## Faults on the reset pin -/

/-- A reset pulse that has not begun. -/
theorem Pulsed.refl (s : State) : Pulsed s.resx [] s s :=
  ⟨rfl, (List.append_nil _).symm, .refl s, .refl s, rfl, rfl, rfl⟩

/-- INIT whose reset pulse raises an error ends there (R172, R196). -/
theorem init_of_pulse_raised (fmt : BitVec 3) {level : Level} {new : List Event} {e : Status} {s t : State}
    (hrun : runOps .busWriteError (resetPulse s.cfg) { s with inited := false } = .raised e t)
    (hp : Pulsed level new { s with inited := false } t) :
    ∃ u, exec (.init fmt) s = .next u ∧ u.EndedWith e ∧
      ({ s with inited := false, resx := level } : State).KeepsRegisters u ∧
      u.lines = { s.lines with resx := level } ∧ u.faults = t.faults ∧ u.events = s.events ++ new ++ [.done e] := by
  have hinit : initialiseDevice fmt s = .raised e t := by
    rw [initialiseDevice, hrun, Progress.bind_raised, Progress.bind_raised]
  have hx : exec (.init fmt) s = .next (t.raise e) :=
    congrArg (fun p : Progress => Host.Outcome.next p.settle) hinit
  exact ⟨_, hx, ⟨rfl, rfl, rfl, rfl⟩, ⟨hp.core.cfg, hp.core.pixFmt, hp.core.inited, hp.core.lat, hp.core.enc, hp.resx,
    hp.inputs.rdWords, hp.inputs.levels, hp.core.pending⟩, hp.lines, rfl,
    (State.complete_events e t).trans (congrArg (· ++ [Event.done e]) hp.events)⟩

/-- Settles O15: the two pin operations of the reset pulse, one fault at each. -/
theorem initResetPinFaults : Obligations.InitResetPinFaults := by
  intro s fmt rest
  constructor
  · intro hf
    have hp := (Pulsed.refl { s with inited := false }).withFaults rest
    obtain ⟨u, hx, hend, hkeep, hlines, hfaults, hevents⟩ :=
      init_of_pulse_raised (s := s) fmt (resetPulse_first (s := { s with inited := false }) hf) hp
    rw [List.append_nil] at hevents
    exact ⟨u, hx, hend, hkeep, hlines, hfaults, hevents⟩
  · intro hf
    obtain ⟨t, hrun, hrest, hp⟩ := resetPulse_second (s := { s with inited := false }) hf
    exact hrest ▸ init_of_pulse_raised fmt hrun hp

end Sys2Proof.Machine

/-! Bus: the two bus requests, what their transactions come to undisturbed and under a pin fault, and the strobes of a
transaction (O31 to O34, O37, O39). -/

namespace Sys2Proof.Machine

/-! ## The bus requests as transactions -/

/-- A write whose words are all supplied is one transaction (R73). -/
theorem streamWrite_of_supplied (m : Mode) {n : Nat} {elems : List Word} (hn : n ≤ elems.length) (s : State) :
    streamWrite m n elems s = busWrite m (rawBurst (elems.take n)) s :=
  if_pos hn

theorem exec_busWrite_of_supplied (mode : Mode) {len : BitVec 32} {words : List Word} {s : State}
    (hs : s.inited = true) (hn : len.toNat ≤ s.plWords.length)
    (hw : words = (s.plWords.take len.toNat).map (busWord s.cfg.width)) :
    exec (.busWrite mode len) s = .next (busWrite mode (rawBurst words) s).settle := by
  have hrun := streamWrite_of_supplied mode (elems := s.plWords.map (busWord s.cfg.width)) (by simpa using hn) s
  rw [← List.map_take, ← hw] at hrun
  rw [← hrun]
  exact if_pos hs

theorem suppliedWords_length {w : Width} {n : Nat} {elems words : List Word} (hn : n ≤ elems.length)
    (hw : words = (elems.take n).map (busWord w)) : words.length = n := by
  rw [hw, List.length_map, List.length_take_of_le hn]

theorem suppliedWords_fit {w : Width} {n : Nat} {elems words : List Word}
    (hw : words = (elems.take n).map (busWord w)) : words.map (busWord w) = words := by
  rw [hw, List.map_map]
  exact List.map_congr_left fun v _ => busWord_busWord w v

/-- One sample before each answer, up to the first "stop" (R106, R108). -/
theorem answeredSamples_stop (k : Nat) (more : List Bool) :
    answeredSamples (List.replicate k true ++ false :: more) = (k + 1, true) := by
  induction k with
  | zero => rfl
  | succ k ih => rw [List.replicate_succ, List.cons_append, answeredSamples, ih]

theorem exec_busRead_of_stop {k : Nat} {more : List Bool} {s : State} (hs : s.inited = true)
    (hm : s.rdMore = List.replicate k true ++ false :: more) :
    exec .busRead s = .next (loseSamples (busRead (k + 1) s)).settle := by
  have hrun : streamRead s.rdMore s = busRead (k + 1) s := by
    rw [streamRead, hm, answeredSamples_stop, if_pos rfl]
  rw [← hrun]
  exact if_pos hs

/-! ## Writes of no words -/

/-- A write of no words has no micro-operation (R105). -/
theorem busWrite_nil (m : Mode) (s : State) : busWrite m [] s = .going s := rfl

/-- A pixel that can be encoded is encoded even if it is sent zero times (R129). -/
theorem repeatPixelOp_zero {p : Pixel} {ws : List Word} {s : State}
    (he : encodePixels s.cfg.pack565 s.pixFmt s.cfg.width p none = some ws) :
    repeatPixelOp p 0 s = .going { s with enc := ws } := by
  rw [repeatPixelOp, he]
  exact busWrite_nil .data _

/-- Settles O32: both requests come to the write of no words. -/
theorem emptyWritesDoNothing : Obligations.EmptyWritesDoNothing := by
  intro s hs
  constructor
  · intro mode
    rw [exec_busWrite_of_supplied mode (len := 0) hs (Nat.zero_le _) rfl]
    exact congrArg (fun p : Progress => Host.Outcome.next p.settle) (busWrite_nil mode s)
  · intro p ws he
    exact (if_pos hs).trans (congrArg (fun p : Progress => Host.Outcome.next p.settle) (repeatPixelOp_zero he))

/-! ## Undisturbed requests -/

theorem State.released_resx (s : State) : s.released.resx = s.resx := by
  obtain ⟨_, _, _, _, _, hresx, _⟩ := s.released_frame
  exact hresx

/-- One write transaction in which nothing faults, from any state: a write pulse that was left half done is completed
first (log 17). -/
theorem busWrite_sent_released (m : Mode) {burst : List (Mark × Word)} {s : State} (hb : burst ≠ [])
    (hq : s.quietFor (writeCost s.cfg burst.length)) :
    ∃ t, busWrite m burst s = .going t ∧ Sent [(m, burst)] s.released t ∧
      (s.cfg.isSerial = false → ∀ kv, burst.getLast? = some kv → AfterWrite m kv.2 t) := by
  have h := busWrite_sent m burst s.released_settled (by simpa using hq)
  rwa [busWrite_released m hb hq, State.released_cfg] at h

theorem rawTx_stream (w : Width) (m : Mode) (ws : List Word) :
    txStream w [(m, rawBurst ws)] = tagged m (ws.map (busWord w)) := by
  simp [txStream, rawBurst, Function.comp_def]

theorem rawTx_events (c : Config) (m : Mode) (ws : List Word) :
    txEvents c [(m, rawBurst ws)] = writeEvents c m ws := by
  simp [txEvents, rawBurst_snd]

/-- Settles O31: the request is one undisturbed write transaction, from the state in which a half-done pulse was
completed. -/
theorem busWriteSends : Obligations.BusWriteSends := by
  intro s mode len words v hs _ hn hq hw hv
  have hcard := suppliedWords_length hn hw
  have hfit := suppliedWords_fit hw
  have hne : rawBurst words ≠ [] := fun h0 => by simpa [h0] using rawBurst_getLast? hv
  obtain ⟨t, hrun, hsent, hrest⟩ := busWrite_sent_released mode hne (by rwa [rawBurst_length, hcard])
  obtain ⟨hend, hkeep, hstream, hevents, _⟩ := hsent.finish
  rw [State.released_cfg, State.released_stream, rawTx_stream, hfit] at hstream
  rw [State.released_cfg, State.released_events, rawTx_events] at hevents
  refine ⟨t.finish, by rw [exec_busWrite_of_supplied mode hs hn hw, hrun]; rfl, hend, hkeep.of_released, hstream,
    hevents, fun hser => (hrest hser _ (rawBurst_getLast? hv)).rests ?_⟩
  rw [hsent.core.cfg, State.released_cfg]
  exact List.map_inj_left.mp (hfit.trans (List.map_id words).symm) v (List.mem_of_getLast? hv)

/-- The registers a read may change aside, a request that changed the core only and no reset line keeps them all. -/
theorem SameCore.keepsRegisters {s t : State} (h : SameCore s t) (hr : t.resx = s.resx) :
    ({ s with rdWords := t.rdWords, levels := t.levels } : State).KeepsRegisters t :=
  ⟨h.cfg, h.pixFmt, h.inited, h.lat, h.enc, hr, rfl, rfl, h.pending⟩

theorem readPulses_eq_count (s : State) : readPulses s.trace = s.events.count (.set .rdx false) :=
  (List.count_reverse (l := s.trace)).symm

/-- A parallel read has one fall of RDX for each sample (R106, R108). -/
theorem readEvents_count_pulses {c : Config} (hp : c.isSerial = false) (samples : List Word) :
    (readEvents c samples).count (.set .rdx false) = samples.length := by
  have hmode : Event.set .rdx false ∉ (List.range c.width.bits).map (fun i => Event.mode i .input) := by simp
  have hget : ∀ v : Word, Event.set .rdx false ∉ (List.range c.width.bits).map (fun i => Event.get i (v.getLsbD i)) := by
    simp
  rw [readEvents, hp, if_neg Bool.false_ne_true]
  simp only [List.count_append, List.count_flatMap, List.count_eq_zero_of_not_mem hmode]
  simp [Function.comp_def, List.count_eq_zero_of_not_mem (hget _)]

/-- Settles O34: the answers ask for `k+1` samples, and the request is one undisturbed read transaction of so many. -/
theorem busReadStopsWhenTold : Obligations.BusReadStopsWhenTold := by
  intro s k more hs hv hm hq
  obtain ⟨t, samples, hrun, hcard, hcore, rfl, _, hframe, _, _, hevents, hdriven, hrest⟩ :=
    busRead_quiet (k + 1) s.released_settled (by simpa using hv) (by simpa using hq)
  rw [busRead_released (k + 1) hq] at hrun
  rw [State.released_cfg, State.released_events] at hevents
  rw [State.released_cfg, State.released_levels] at hdriven
  have hx : exec .busRead s = .next t.finish := by
    rw [exec_busRead_of_stop hs hm, hrun]
    rfl
  have hfinish : t.finish.events = s.events ++ readEvents s.cfg t.rdWords ++ [.done .ok] :=
    (t.complete_events .ok).trans (congrArg (· ++ [Event.done .ok]) hevents)
  refine ⟨t.finish, hx, ⟨rfl, rfl, rfl, rfl⟩, hcard,
    (s.released_sameCore.1.trans hcore).keepsRegisters (hframe.resx.trans s.released_resx),
    (congrArg List.reverse hframe.captured).trans s.released_stream, hframe.dout.trans s.released_dout,
    fun hset => hframe.ghost.trans (congrArg State.ghost (State.released_of_settled hset)), hfinish, hdriven,
    fun hser => ?_⟩
  obtain ⟨hcs, hwrx, hrdx, hdcx, hddir⟩ := hrest ((congrArg Config.isSerial s.released_cfg).trans hser)
  refine ⟨⟨hcs, hwrx, hrdx, hdcx, hddir⟩, ?_⟩
  rw [readPulses_eq_count, readPulses_eq_count, hfinish, List.count_append, List.count_append,
    readEvents_count_pulses hser, hcard]
  simp

/-! ## Pin operations counted -/

/-- A write on a parallel bus has no serial transaction in it. -/
theorem writeOps_notSerial {c : Config} (hp : c.isSerial = false) (m : Mode) (burst : List (Mark × Word)) :
    ∀ op ∈ writeOps c m burst, op.serial = false := by
  unfold writeOps
  rw [hp]
  split
  · simp
  · simp only [writeWords, openWrite, sendWord, driveWord, closeWrite, List.mem_append, List.mem_cons, List.mem_flatMap,
      List.not_mem_nil, or_false, Bool.false_eq_true, if_false]
    rintro op (((rfl | rfl | rfl | rfl) | ⟨kv, _, rfl | ⟨i, _, rfl | rfl⟩ | rfl | rfl⟩) | rfl | rfl | rfl) <;> rfl

theorem readOps_notSerial {c : Config} (hp : c.isSerial = false) (k : Nat) :
    ∀ op ∈ readOps c k, op.serial = false := by
  rw [readOps_parallel hp]
  simp only [openRead, readSample, closeRead, List.mem_append, List.mem_cons, List.mem_map, List.mem_flatten,
    List.mem_replicate, List.not_mem_nil, or_false]
  rintro op (rfl | ((rfl | rfl | rfl | rfl) | ⟨i, _, rfl⟩) | ⟨l, ⟨_, rfl⟩, hop⟩ | rfl | rfl | rfl)
  case inr.inr.inl =>
    simp only [List.mem_append, List.mem_cons, List.mem_map, List.not_mem_nil, or_false] at hop
    rcases hop with rfl | ⟨i, _, rfl⟩ | rfl | rfl <;> rfl
  all_goals rfl

/-- Each question to the pin provider on a parallel bus is one pin operation of the trace. -/
theorem runOps_quiet_pinOperations (err : Status) {ops : List MicroOp} {s : State}
    (hser : ∀ op ∈ ops, op.serial = false) (hq : s.quietFor (faultCalls ops))
    (hv : s.cfg.pinVariant = .bidirectional ∨ ∀ op ∈ ops, op.wantsInput = false) :
    ∃ t, runOps err ops s = .going t ∧ pinOperations t.trace = pinOperations s.trace + faultCalls ops :=
  ⟨_, runOps_quiet err ops s hq hv, applyOps_pinOperations hser s⟩

/-- The end of a request is no pin operation. -/
theorem State.finish_pinOperations (s : State) : pinOperations s.finish.trace = pinOperations s.trace := by
  simp [State.finish, pinOperations]

theorem State.quietFor_of_noFaults {s : State} (h : s.faults = []) (n : Nat) : s.quietFor n = true := by
  rw [State.quietFor, h]

/-- Settles O33: each request is one undisturbed transaction, and a transaction of R112 asks so many questions. -/
theorem transactionsCountTheirPinOperations : Obligations.TransactionsCountTheirPinOperations := by
  intro s hs hp hf
  constructor
  · intro mode len hlen hn
    have hcost : writeCost s.cfg len.toNat = 7 + len.toNat * (2 * s.cfg.width.bits + 2) := by
      have hpos : len.toNat ≠ 0 := fun h0 => hlen (BitVec.eq_of_toNat_eq h0)
      simp [writeCost, hpos, hp]
    obtain ⟨t, hrun, hcount⟩ := runOps_quiet_pinOperations .busWriteError
      (writeOps_notSerial hp mode (rawBurst ((s.plWords.take len.toNat).map (busWord s.cfg.width))))
      (s.quietFor_of_noFaults hf _) (.inr fun op ho => (writeOps_readsNothing _ _ _ op ho).2)
    rw [writeOps_faultCalls, rawBurst_length, suppliedWords_length hn rfl, hcost] at hcount
    exact ⟨t.finish, (exec_busWrite_of_supplied mode hs hn rfl).trans (by rw [busWrite, hrun]; rfl),
      t.finish_pinOperations.trans hcount⟩
  · intro k rest hv hm
    have hcost : readCost s.cfg (k + 1) = 7 + s.cfg.width.bits + (k + 1) * (s.cfg.width.bits + 2) := by
      simp [readCost, hp]
    obtain ⟨t, hrun, hcount⟩ := runOps_quiet_pinOperations .busReadError (readOps_notSerial hp (k + 1))
      (s.quietFor_of_noFaults hf _) (.inl hv)
    rw [readOps_faultCalls, hcost] at hcount
    exact ⟨t.finish, (exec_busRead_of_stop hs hm).trans (by rw [busRead, hrun]; rfl),
      t.finish_pinOperations.trans hcount⟩

/-! ## Aborted transactions -/

/-- The new events of a state that follows its trace tell its lines (R11). -/
theorem TracedFrom.lines_of_events {s t : State} {es : List Event} (h : TracedFrom s t)
    (he : t.events = s.events ++ es) : t.lines = es.foldl (Lines.after s.cfg.width) s.lines := by
  obtain ⟨new, htrace, hlines⟩ := h.traced
  have hnew : new.reverse = es := by
    refine List.append_cancel_left (as := s.events) (Eq.trans ?_ he)
    rw [State.events, State.events, htrace, List.reverse_append]
  rw [hlines, Lines.afterAll_eq_foldl, hnew]

theorem busWrite_tracedFrom (m : Mode) (burst : List (Mark × Word)) (s : State) :
    TracedFrom s (busWrite m burst s).state :=
  busWrite_closed (tracedFrom_invariant s (.busWrite m 0)).closed m burst (.refl s)

/-- A transaction that is aborted after an undisturbed write: the events of the write come first. -/
theorem Aborted.afterWrite {m : Mode} {burst : List (Mark × Word)} {es : List Event} {rest : List Nat} {s r t : State}
    (hrun : busWrite m burst s = .going r) (hsent : Sent [(m, burst)] s.released r) (h : Aborted es rest r t) :
    Aborted (writeEvents s.cfg m (burst.map Prod.snd) ++ es) rest s t := by
  have hcore : SameCore s r := s.released_sameCore.1.trans hsent.core
  have hevents : r.events = s.events ++ writeEvents s.cfg m (burst.map Prod.snd) := by
    simpa [txEvents] using hsent.events
  have hlines : r.lines = (writeEvents s.cfg m (burst.map Prod.snd)).foldl (Lines.after s.cfg.width) s.lines := by
    have htraced := busWrite_tracedFrom m burst s
    rw [hrun] at htraced
    exact htraced.lines_of_events hevents
  refine ⟨hcore.trans h.core, h.resx.trans (hsent.resx.trans s.released_resx), h.faults, ?_, ?_⟩
  · rw [h.events, hevents, List.append_assoc]
  · rw [h.lines, hlines, hcore.cfg, List.foldl_append]

/-- What an aborted request loses of the samples is no event and moves no line (R144). -/
theorem Aborted.loseSamples {es : List Event} {rest : List Nat} {s t : State} (h : Aborted es rest s t) (e : Status) :
    ∃ u, loseSamples (.raised e t) = .raised e u ∧ u.levels = t.levels ∧ Aborted es rest s u :=
  ⟨_, rfl, rfl, h.core.trans (by constructor <;> rfl), h.resx, h.faults, h.events, h.lines⟩

/-- The error that aborts a request is told after the events before the fault, and changes nothing else (R196). -/
theorem Aborted.raise {es : List Event} {rest : List Nat} {s t : State} (h : Aborted es rest s t) (e : Status) :
    (t.raise e).EndedWith e ∧
      ({ s with rdWords := t.rdWords, levels := t.levels } : State).KeepsRegisters (t.raise e) ∧
      (t.raise e).faults = rest ∧ (t.raise e).events = s.events ++ es ++ [.done e] ∧
      (t.raise e).lines = es.foldl (Lines.after s.cfg.width) s.lines :=
  ⟨⟨rfl, rfl, rfl, rfl⟩, h.core.keepsRegisters h.resx, h.faults,
    (t.complete_events e).trans (congrArg (· ++ [Event.done e]) h.events), h.lines⟩

theorem readAfterOpcode_of_opcode_raised {opc : Byte} {s t : State} {e : Status}
    (h : busWrite .command (rawBurst [wordOfByte opc]) s = .raised e t) (n : Nat) :
    readAfterOpcode opc n s = .raised e t := by
  rw [readAfterOpcode, h, Progress.bind_raised]

/-- The opcode of READ_COMMAND passes undisturbed, and its read is aborted (R143, R97, R192). -/
theorem readAfterOpcode_aborted (opc : Byte) (n : Nat) {q : Nat} {rest : List Nat} {s : State}
    (hf : s.faults = (writeCost s.cfg 1 + q) :: rest) (hq : q < readCost s.cfg n)
    (hv : s.cfg.pinVariant = .bidirectional ∨ q < 4) :
    ∃ t samples, readAfterOpcode opc n s = .raised .busReadError t ∧ samples.length = n ∧
      (∀ ws more, ws.length = n → s.levels = levelsOf s.cfg.width.bits ws ++ more →
        samples = ws.map (busWord s.cfg.width)) ∧
      Aborted (writeEvents s.cfg .command [wordOfByte opc] ++ (readEvents s.cfg samples).take q) rest s t := by
  obtain ⟨r, hwrite, hsent, _⟩ := busWrite_sent_released .command (opcode_burst opc)
    (s := s) (by simp [State.quietFor, hf])
  have hc : r.cfg = s.cfg := hsent.core.cfg.trans s.released_cfg
  have hlevels : r.levels = s.levels := hsent.inputs.levels.trans s.released_levels
  have hfr : r.faults = q :: rest := by
    rw [hsent.faults, State.released_faults, hf]
    simp [spendFaults, txCost]
  obtain ⟨t, samples, hread, hcard, hdriven, hab⟩ := busRead_aborted n hfr (hc ▸ hq) (hc ▸ hv)
  rw [hc, hlevels] at hdriven
  rw [hc] at hab
  exact ⟨t, samples, by rw [readAfterOpcode, hwrite, Progress.bind_going, hread], hcard, hdriven,
    rawBurst_snd [wordOfByte opc] ▸ hab.afterWrite hwrite hsent⟩

/-- Settles O37: each request runs its transactions up to the pin operation that faults, and raises the error of the
transaction it was in. -/
theorem transactionAbortIsPrecise : Obligations.TransactionAbortIsPrecise := by
  intro s q rest hs
  refine ⟨?_, ?_, ?_, ?_⟩
  · intro mode len words _ hn hf hq hw
    obtain ⟨u, hrun, hin, hab⟩ := busWrite_aborted mode (rawBurst words) hf
      (by rwa [rawBurst_length, suppliedWords_length hn hw])
    rw [rawBurst_snd] at hab
    obtain ⟨hend, hkeep, htold⟩ := hab.raise .busWriteError
    rw [hin.rdWords, hin.levels] at hkeep
    exact ⟨_, (exec_busWrite_of_supplied mode hs hn hw).trans (by rw [hrun]; rfl), hend, hkeep, htold⟩
  · intro k more hm hf hq hv
    obtain ⟨u, samples, hrun, hcard, hdriven, hab⟩ := busRead_aborted (k + 1) hf hq hv
    obtain ⟨t, hlose, _, hab⟩ := hab.loseSamples .busReadError
    obtain ⟨hend, hkeep, hfaults, htold⟩ := hab.raise .busReadError
    exact ⟨_, samples, (exec_busRead_of_stop hs hm).trans (by rw [hrun, hlose]; rfl), hend, hcard, hkeep, hfaults,
      hdriven, htold⟩
  · intro opc len hlen hf hq
    obtain ⟨u, hrun, hin, hab⟩ := busWrite_aborted .command (rawBurst [wordOfByte opc]) hf hq
    rw [rawBurst_snd] at hab
    obtain ⟨t, hlose, hlevels, hab⟩ := hab.loseSamples .busWriteError
    obtain ⟨hend, hkeep, htold⟩ := hab.raise .busWriteError
    rw [hlevels, hin.levels] at hkeep
    exact ⟨_, (execReadCommand_of_someSample opc hs (someSample_of_ne_zero hlen)).trans
      (by rw [readAfterOpcode_of_opcode_raised hrun, hlose]; rfl), hend, hkeep, htold⟩
  · intro opc len hlen hf hq hv
    obtain ⟨u, samples, hrun, hcard, hdriven, hab⟩ := readAfterOpcode_aborted opc len.toNat hf hq hv
    obtain ⟨t, hlose, _, hab⟩ := hab.loseSamples .busReadError
    obtain ⟨hend, hkeep, hfaults, hevents, hlines⟩ := hab.raise .busReadError
    rw [← List.append_assoc] at hevents
    exact ⟨_, samples, (execReadCommand_of_someSample opc hs (someSample_of_ne_zero hlen)).trans
      (by rw [hrun, hlose]; rfl), hend, hcard, hkeep, hfaults, hdriven, hevents, hlines⟩

/-! ## The strobes of a transaction -/

/-- The operations of a transaction that concern no data pin (R111). -/
def strobes (ops : List MicroOp) : List MicroOp := ops.filter fun op => !op.onDataPin

theorem strobes_append (a b : List MicroOp) : strobes (a ++ b) = strobes a ++ strobes b :=
  List.filter_append a b

theorem strobes_eq_nil {ops : List MicroOp} (h : ∀ op ∈ ops, op.onDataPin = true) : strobes ops = [] :=
  List.filter_eq_nil_iff.mpr fun op ho => by simp [h op ho]

/-- Of a word the mark and the write pulse are left. -/
theorem strobes_sendWord (bits : Nat) (kv : Mark × Word) :
    strobes (sendWord bits kv) = [.mark kv.1, .set .wrx false, .set .wrx true] := by
  have hdrive : strobes (driveWord bits kv.2) = [] := by
    refine strobes_eq_nil fun op ho => ?_
    simp only [driveWord, List.mem_flatMap, List.mem_cons, List.not_mem_nil, or_false] at ho
    rcases ho with ⟨i, _, rfl | rfl⟩ <;> rfl
  change strobes ([.mark kv.1] ++ (driveWord bits kv.2 ++ [.set .wrx false, .set .wrx true])) = _
  rw [strobes_append, strobes_append, hdrive]
  rfl

/-- Of a sample the read pulse is left. -/
theorem strobes_readSample (bits : Nat) :
    strobes (readSample bits) = [.set .rdx false, .set .rdx true, .deliver] := by
  have hgets : strobes ((List.range bits).map .get) = [] :=
    strobes_eq_nil (List.forall_mem_map.mpr fun _ _ => rfl)
  change strobes ([.set .rdx false] ++ ((List.range bits).map .get ++ [.set .rdx true, .deliver])) = _
  rw [strobes_append, strobes_append, hgets]
  rfl

theorem strobes_openRead (bits : Nat) : strobes (openRead bits) = openWrite .data := by
  have hinputs : strobes ((List.range bits).map fun i => .mode i .input) = [] :=
    strobes_eq_nil (List.forall_mem_map.mpr fun _ _ => rfl)
  rw [openRead, strobes_append, hinputs]
  rfl

/-- The strobes of a write, the width gone from them (R111). -/
theorem strobes_writeOps {c : Config} (hp : c.isSerial = false) (m : Mode) (burst : List (Mark × Word)) :
    strobes (writeOps c m burst) = if burst.isEmpty then [] else
      openWrite m ++ (burst.flatMap fun kv => [.mark kv.1, .set .wrx false, .set .wrx true]) ++ closeWrite m := by
  have hwords : strobes (burst.flatMap (sendWord c.width.bits)) =
      burst.flatMap fun kv => [.mark kv.1, .set .wrx false, .set .wrx true] := by
    rw [strobes, List.filter_flatMap]
    exact congrArg (burst.flatMap ·) (funext (strobes_sendWord c.width.bits))
  unfold writeOps
  rw [hp]
  split
  · rfl
  · rw [if_neg Bool.false_ne_true, writeWords, strobes_append, strobes_append, hwords]
    rfl

/-- The strobes of a read, the width gone from them (R111). -/
theorem strobes_readOps {c : Config} (hp : c.isSerial = false) (k : Nat) :
    strobes (readOps c k) = .clearSamples ::
      (openWrite .data ++ ((List.replicate k [.set .rdx false, .set .rdx true, .deliver]).flatten ++ closeRead)) := by
  have hsamples : strobes (List.replicate k (readSample c.width.bits)).flatten =
      (List.replicate k [.set .rdx false, .set .rdx true, .deliver]).flatten := by
    rw [strobes, List.filter_flatten, List.map_replicate]
    exact congrArg (fun l => (List.replicate k l).flatten) (strobes_readSample c.width.bits)
  have hsplit : strobes (readOps c k) = .clearSamples :: strobes (openRead c.width.bits ++
      ((List.replicate k (readSample c.width.bits)).flatten ++ closeRead)) :=
    congrArg strobes (readOps_parallel hp k)
  rw [hsplit, strobes_append, strobes_append, strobes_openRead, hsamples]
  rfl

/-- Settles O39: what is left of each transaction does not name the width. -/
theorem strobesAreTheSameForEveryWidth : Obligations.StrobesAreTheSameForEveryWidth := by
  intro c d m burst k hc hd
  exact ⟨(strobes_writeOps hc m burst).trans (strobes_writeOps hd m burst).symm,
    (strobes_readOps hc k).trans (strobes_readOps hd k).symm⟩

end Sys2Proof.Machine

/-! Pixel: the fields of encoded pixels, the rows of the encoder, and the two pixel requests (O40 to O47, O49, O50). -/

namespace Sys2Proof.Machine

/-! ## Channel fields -/

/-- The `n` bits of a channel from bit `src` up, in a bus word from bit `dst` up: what the encoder makes its words of
(R121 to R125). -/
def channelField (c : Byte) (src n dst : Nat) : Word := ((chan c >>> src) &&& lowOnes n) <<< dst

theorem chan_getLsbD (c : Byte) (j : Nat) : (chan c).getLsbD j = c.getLsbD j := by
  rw [chan, BitVec.getLsbD_setWidth]
  by_cases h : j < 32
  · simp [h]
  · simp [BitVec.getLsbD_of_ge c j (by omega)]

theorem channelField_getLsbD (c : Byte) (src n dst j : Nat) :
    (channelField c src n dst).getLsbD j =
      (decide (j < 32) && (decide (dst ≤ j) && decide (j - dst < n)) && c.getLsbD (src + (j - dst))) := by
  simp only [channelField, BitVec.getLsbD_shiftLeft, BitVec.getLsbD_and, BitVec.getLsbD_ushiftRight, lowOnes_getLsbD,
    chan_getLsbD]
  by_cases hj : j < 32
  · by_cases hd : dst ≤ j
    · simp [hj, hd, Nat.not_lt.mpr hd, show j - dst < 32 by omega, Bool.and_comm]
    · simp [hd, Nat.lt_of_not_le hd]
  · simp [hj]

/-- A field stands where it was put. -/
theorem channelField_extract (c : Byte) (src : Nat) {n dst : Nat} (h : dst + n ≤ 32) :
    (channelField c src n dst).extractLsb' dst n = c.extractLsb' src n := by
  apply BitVec.eq_of_getLsbD_eq
  intro j hj
  rw [BitVec.getLsbD_extractLsb', BitVec.getLsbD_extractLsb', channelField_getLsbD]
  simp [hj, show dst + j < 32 by omega]

/-- Outside a field the word is zero. -/
theorem channelField_extract_outside (c : Byte) (src : Nat) {n dst k m : Nat} (h : k + m ≤ dst ∨ dst + n ≤ k) :
    (channelField c src n dst).extractLsb' k m = 0 := by
  apply BitVec.eq_of_getLsbD_eq
  intro j hj
  have hout : ¬ (dst ≤ k + j ∧ k + j - dst < n) := by omega
  have hbits : (decide (dst ≤ k + j) && decide (k + j - dst < n)) = false := by simpa using hout
  rw [BitVec.getLsbD_extractLsb', channelField_getLsbD, hbits]
  simp

theorem channelField_shiftLeft (c : Byte) (src n dst k : Nat) :
    channelField c src n dst <<< k = channelField c src n (dst + k) :=
  (BitVec.shiftLeft_add ..).symm

/-- Two adjoining fields of one channel are one field. -/
theorem channelField_join (c : Byte) (src m n dst : Nat) :
    channelField c (src + m) n (dst + m) ||| channelField c src m dst = channelField c src (m + n) dst := by
  apply BitVec.eq_of_getLsbD_eq
  intro j hj
  simp only [BitVec.getLsbD_or, channelField_getLsbD, hj, decide_true, Bool.true_and]
  by_cases hlow : j < dst + m
  · have h0 : decide (dst + m ≤ j) = false := by simpa using hlow
    by_cases hd : dst ≤ j
    · simp [h0, hd, show j - dst < m by omega, show j - dst < m + n by omega]
    · simp [h0, hd]
  · have hm : ¬ j - dst < m := by omega
    have hn : (j - (dst + m) < n) = (j - dst < m + n) := propext (by omega)
    rw [show src + m + (j - (dst + m)) = src + (j - dst) by omega]
    simp [hm, hn, show dst + m ≤ j by omega, show dst ≤ j by omega]

/-! ## The words of the encoder in fields -/

theorem chan_shiftRight_and_lowOnes (c : Byte) (src n : Nat) :
    (chan c >>> src) &&& lowOnes n = channelField c src n 0 :=
  (BitVec.shiftLeft_zero _).symm

theorem chan_and_lowOnes (c : Byte) (n : Nat) : chan c &&& lowOnes n = channelField c 0 n 0 := by
  rw [← chan_shiftRight_and_lowOnes, BitVec.ushiftRight_zero]

/-- A channel shifted left by 2 and cut to a byte: its low six bits in bits 7 to 2 (R123). -/
theorem chan_shiftLeft_and_byte (c : Byte) : (chan c <<< 2) &&& 0xFF#32 = channelField c 0 6 2 := by
  obtain ⟨-, -, -, h8, -⟩ := masks_are_ones
  apply BitVec.eq_of_getLsbD_eq
  intro j hj
  rw [h8, channelField_getLsbD, BitVec.getLsbD_and, BitVec.getLsbD_shiftLeft, chan_getLsbD, lowOnes_getLsbD, Nat.zero_add]
  have hbelow : (decide (j < 8)) = decide (j - 2 < 6) := decide_eq_decide.2 (by omega)
  by_cases h2 : 2 ≤ j
  · simp [hj, h2, hbelow, Nat.not_lt.2 h2, Bool.and_comm]
  · simp [h2, Nat.lt_of_not_le h2]

/-- The same byte, cut where it is shifted (R123). -/
theorem channelField_eq_shifted_byte (c : Byte) : channelField c 0 6 2 = (c <<< 2).setWidth 32 := by
  rw [← chan_shiftLeft_and_byte]
  apply BitVec.eq_of_getLsbD_eq
  intro j hj
  obtain ⟨-, -, -, h8, -⟩ := masks_are_ones
  rw [h8, BitVec.getLsbD_and, BitVec.getLsbD_shiftLeft, chan_getLsbD, lowOnes_getLsbD, BitVec.getLsbD_setWidth,
    BitVec.getLsbD_shiftLeft]
  simp [hj, Bool.and_comm (decide (j < 8)), Bool.and_assoc]

theorem enc565w8_fields (p : Pixel) : enc565w8 .consistent p =
    [channelField p.r 0 5 3 ||| channelField p.g 3 3 0, channelField p.g 0 3 5 ||| channelField p.b 0 5 0] := by
  obtain ⟨h3, h5, -, -, hE0⟩ := masks_are_ones
  simp only [enc565w8, h3, h5, hE0, ← BitVec.shiftLeft_and_distrib, chan_shiftRight_and_lowOnes, chan_and_lowOnes,
    channelField_shiftLeft, Nat.zero_add]

theorem enc565w16_fields (p : Pixel) : enc565w16 .consistent p =
    [channelField p.r 0 5 11 ||| channelField p.g 0 6 5 ||| channelField p.b 0 5 0] := by
  obtain ⟨-, h5, h6, -, -⟩ := masks_are_ones
  simp only [enc565w16, h5, h6, chan_and_lowOnes, channelField_shiftLeft, Nat.zero_add]

theorem enc666w8_fields (p : Pixel) :
    enc666w8 p = [channelField p.r 0 6 2, channelField p.g 0 6 2, channelField p.b 0 6 2] := by
  simp only [enc666w8, chan_shiftLeft_and_byte]

theorem enc666w16Pair_fields (p q : Pixel) : enc666w16Pair p q =
    [channelField p.r 0 6 10 ||| channelField p.g 0 6 2, channelField p.b 0 6 10 ||| channelField q.r 0 6 2,
      channelField q.g 0 6 10 ||| channelField q.b 0 6 2] := by
  obtain ⟨-, -, h6, -, -⟩ := masks_are_ones
  simp only [enc666w16Pair, h6, chan_and_lowOnes, channelField_shiftLeft, Nat.zero_add]

theorem enc666w18_fields (p : Pixel) :
    enc666w18 p = [channelField p.r 0 6 12 ||| channelField p.g 0 6 6 ||| channelField p.b 0 6 0] := by
  obtain ⟨-, -, h6, -, -⟩ := masks_are_ones
  simp only [enc666w18, h6, chan_and_lowOnes, channelField_shiftLeft, Nat.zero_add]

/-- One pixel is a pair with a zero second pixel, cut to two words (R124). -/
theorem enc666w16_eq_take (p : Pixel) : enc666w16 p = (enc666w16Pair p { r := 0, g := 0, b := 0 }).take 2 := by
  simp [enc666w16, enc666w16Pair, chan]

/-! ## The range of a word -/

theorem toNat_lt_of_busWord {w : Width} {v : Word} (h : busWord w v = v) : v.toNat < 2 ^ w.bits := by
  have hones : (lowOnes w.bits).toNat ≤ 2 ^ w.bits - 1 := by
    rw [lowOnes, BitVec.toNat_ofNat]
    exact Nat.mod_le _ _
  have hmask : v.toNat ≤ (lowOnes w.bits).toNat := by
    rw [← h, busWord, BitVec.toNat_and]
    exact Nat.and_le_right
  have hpos : 0 < 2 ^ w.bits := Nat.two_pow_pos _
  omega

/-- A word of the encoder is a number of `W` bits (R7, R133). -/
theorem encodePixels_toNat_lt {pack : Pack565} {fmt : PixFmt} {w : Width} {p1 : Pixel} {p2 : Option Pixel}
    {ws : List Word} (h : encodePixels pack fmt w p1 p2 = some ws) {v : Word} (hv : v ∈ ws) : v.toNat < 2 ^ w.bits :=
  toNat_lt_of_busWord (encodePixels_fits h v hv)

/-! ## Field by field -/

/-- Settles O40: the fields that `enc565w8_fields` names stand apart in each byte. -/
theorem rgb565OnEightBits : Obligations.Rgb565OnEightBits := by
  intro p
  have he : encodePixels .consistent .rgb565 .w8 p none = _ := congrArg some (enc565w8_fields p)
  refine ⟨_, _, he, ?_, ?_, encodePixels_toNat_lt he (by simp), ?_, ?_, encodePixels_toNat_lt he (by simp)⟩ <;>
    simp [BitVec.extractLsb'_or, channelField_extract, channelField_extract_outside]

/-- Settles O41: the fields that `enc565w16_fields` names stand apart in the word. -/
theorem rgb565OnSixteenBits : Obligations.Rgb565OnSixteenBits := by
  intro p
  have he : encodePixels .consistent .rgb565 .w16 p none = _ := congrArg some (enc565w16_fields p)
  refine ⟨_, he, ?_, ?_, ?_, encodePixels_toNat_lt he (by simp)⟩ <;>
    simp [BitVec.extractLsb'_or, channelField_extract, channelField_extract_outside]

/-- Settles O42: each byte is one field, from bit 2 up. -/
theorem rgb666OnEightBits : Obligations.Rgb666OnEightBits := by
  intro pack p
  have he : encodePixels pack .rgb666 .w8 p none = _ := congrArg some (enc666w8_fields p)
  refine ⟨_, _, _, he, channelField_eq_shifted_byte p.r, channelField_eq_shifted_byte p.g,
    channelField_eq_shifted_byte p.b, fun v c hvc => ?_⟩
  have hv : v = channelField c 0 6 2 := by
    simp only [List.mem_cons, Prod.mk.injEq, List.not_mem_nil, or_false] at hvc
    rcases hvc with ⟨rfl, rfl⟩ | ⟨rfl, rfl⟩ | ⟨rfl, rfl⟩ <;> rfl
  have hmem : v ∈ [channelField p.r 0 6 2, channelField p.g 0 6 2, channelField p.b 0 6 2] :=
    List.mem_map_of_mem (f := Prod.fst) hvc
  exact ⟨hv ▸ channelField_extract c 0 (by decide), hv ▸ channelField_extract_outside c 0 (by decide),
    encodePixels_toNat_lt he hmem⟩

/-- Settles O43: the fields that `enc666w18_fields` names stand apart in the word, and none reaches bit 18. -/
theorem rgb666OnEighteenBits : Obligations.Rgb666OnEighteenBits := by
  intro pack p
  refine ⟨_, congrArg some (enc666w18_fields p), ?_, ?_, ?_, ?_⟩ <;>
    simp [BitVec.extractLsb'_or, channelField_extract, channelField_extract_outside]

/-- Settles O44: the fields that `enc666w16Pair_fields` names stand apart in each word, and between them are zeros. -/
theorem rgb666OnSixteenBits : Obligations.Rgb666OnSixteenBits := by
  intro pack p q
  refine ⟨⟨_, _, _, congrArg some (enc666w16Pair_fields p q), ?_, ?_, ?_, ?_, ?_, ?_, ?_⟩,
    _, rfl, congrArg some (enc666w16_eq_take p)⟩
  case refine_7 =>
    simp only [List.forall_mem_cons]
    simp [BitVec.extractLsb'_or, channelField_extract_outside]
  all_goals simp [BitVec.extractLsb'_or, channelField_extract, channelField_extract_outside]

/-! ## The rows of the encoder -/

/-- Settles O45: in `Rgb565` the two green fields join at bit 8, in `Rgb666` each byte of a pair keeps its place. -/
theorem crossWidthConsistency : Obligations.CrossWidthConsistency := by
  intro p q
  constructor
  · refine ⟨_, _, congrArg some (enc565w8_fields p), congrArg some ((enc565w16_fields p).trans ?_)⟩
    have hgreen : channelField p.g 3 3 8 ||| channelField p.g 0 3 5 = channelField p.g 0 6 5 :=
      channelField_join p.g 0 3 3 5
    rw [BitVec.shiftLeft_or_distrib, channelField_shiftLeft, channelField_shiftLeft, ← hgreen]
    simp only [BitVec.or_assoc]
  · refine ⟨_, _, _, _, _, _, congrArg some (congrArg₂ (· ++ ·) (enc666w8_fields p) (enc666w8_fields q)),
      congrArg some ((enc666w16Pair_fields p q).trans ?_)⟩
    simp only [channelField_shiftLeft]

/-- Only `Rgb565` on 18 bits has no form, for one pixel and for two (R84, R126). -/
theorem encodePixels_eq_none_iff (pack : Pack565) (fmt : PixFmt) (w : Width) (p1 : Pixel) (p2 : Option Pixel) :
    encodePixels pack fmt w p1 p2 = none ↔ fmt = .rgb565 ∧ w = .w18 := by
  constructor
  · intro h
    cases fmt <;> cases w
    case rgb565.w18 => exact ⟨rfl, rfl⟩
    all_goals cases p2 <;> cases h
  · rintro ⟨rfl, rfl⟩
    exact encodePixels_rgb565_w18 pack p1 p2

/-- Where no word is shared a pair is the one pixel and then the other (R126). -/
theorem encodePixels_pair {pack : Pack565} {fmt : PixFmt} {w : Width} {p q : Pixel} {ws ws' : List Word}
    (hp : encodePixels pack fmt w p none = some ws) (hq : encodePixels pack fmt w q none = some ws')
    (hshare : ¬ (fmt = .rgb666 ∧ w = .w16)) : encodePixels pack fmt w p (some q) = some (ws ++ ws') := by
  cases fmt <;> cases w
  case rgb565.w18 => cases hp
  case rgb666.w16 => exact absurd ⟨rfl, rfl⟩ hshare
  all_goals
    cases hp
    cases hq
    rfl

/-- Settles O46: a row of the table for each format and width. -/
theorem encoderRows : Obligations.EncoderRows := by
  intro pack fmt w p q
  exact ⟨encodePixels_eq_none_iff pack fmt w p none, encodePixels_eq_none_iff pack fmt w p (some q),
    fun _ _ => encodePixels_pair, fun _ h => h.elim encodePixels_fits encodePixels_fits⟩

/-! ## WRITE_PIXELS -/

/-- A request whose work goes well ends with OK in the state its work came to. -/
theorem exec_of_going {i : Instr} {s t : State} (hx : exec i s = .next (body i s).settle)
    (hb : body i s = .going t) : exec i s = .next t.finish := by
  rw [hx, hb]
  rfl

/-- WRITE_PIXELS in which nothing faults, from any state: a write pulse that was left half done is completed first (log
17), and the encoded words are one transaction (R127). -/
theorem exec_writePixels_sent {p1 : Pixel} {p2 : Option Pixel} {ws : List Word} {s : State} (hs : s.inited = true)
    (he : encodePixels s.cfg.pack565 s.pixFmt s.cfg.width p1 p2 = some ws)
    (hq : s.quietFor (writeCost s.cfg ws.length)) :
    ∃ t, exec (.writePixels p1 p2) s = .next t.finish ∧ Sent [pixelTx s p2 ws] s.released t ∧
      (s.cfg.isSerial = false → ∀ v, ws.getLast? = some v → AfterWrite .data v t) := by
  obtain ⟨t, hrun, hsent, hrest⟩ := writePixelsOp_sent (s := s.released) (p1 := p1) (p2 := p2) (ws := ws)
    s.released_settled (by simpa using he) (by simpa using hq)
  rw [writePixelsOp_released he hq] at hrun
  rw [pixelTx_congr s.released_pixFmt s.released_cfg] at hsent
  rw [State.released_cfg] at hrest
  exact ⟨t, exec_of_going (if_pos hs) hrun, hsent, hrest⟩

/-- Settles O47: the request is one undisturbed write transaction of the encoder's words, each of which fits the bus. -/
theorem writePixelsSends : Obligations.WritePixelsSends := by
  intro s p1 p2 ws v hs he hv hq
  obtain ⟨t, hx, hsent, hrest⟩ := exec_writePixels_sent hs he hq
  obtain ⟨hend, hkeep, hstream, hevents, _⟩ := hsent.finish
  rw [State.released_cfg, State.released_stream, pixelTx_stream he] at hstream
  rw [State.released_cfg, State.released_events, pixelTx_events he] at hevents
  refine ⟨t.finish, hx, hend, hkeep.of_released, hstream, hevents, fun hser => (hrest hser v hv).rests ?_⟩
  rw [hsent.core.cfg, State.released_cfg]
  exact encodePixels_fits he v (List.mem_of_getLast? hv)

/-! ## WRITE_REPEATED_PIXEL -/

/-- One transaction of `n` equal bursts captures what `n` transactions of one burst capture. -/
theorem txStream_flatten_replicate (w : Width) (m : Mode) (n : Nat) (burst : List (Mark × Word)) :
    txStream w [(m, (List.replicate n burst).flatten)] = txStream w (List.replicate n (m, burst)) := by
  simp [txStream, tagged, List.flatMap_def, List.map_flatten]

theorem tagged_flatten_replicate (m : Mode) (n : Nat) (ws : List Word) :
    tagged m (List.replicate n ws).flatten = (List.replicate n (tagged m ws)).flatten := by
  simp [tagged, List.map_flatten]

/-- The transaction of a WRITE_REPEATED_PIXEL (R129). -/
def repeatTx (s : State) (n : Nat) (ws : List Word) : Transaction :=
  (.data, (List.replicate n (pixelBurst s.pixFmt s.cfg.width none ws)).flatten)

section RepeatTx
variable {p : Pixel} {ws : List Word} {s : State}
  (he : encodePixels s.cfg.pack565 s.pixFmt s.cfg.width p none = some ws)
include he

theorem repeatTx_words (n : Nat) : (repeatTx s n ws).2.map Prod.snd = (List.replicate n ws).flatten := by
  obtain ⟨_, _, hmap, _⟩ := pixelBurst_pixels he
  rw [repeatTx, List.map_flatten, List.map_replicate, hmap]

theorem repeatTx_length (n : Nat) : (repeatTx s n ws).2.length = n * ws.length := by
  rw [burst_length (repeatTx_words he n), List.length_flatten, List.map_replicate, List.sum_replicate, smul_eq_mul]

theorem repeatTx_stream (n : Nat) :
    txStream s.cfg.width [repeatTx s n ws] = tagged .data (List.replicate n ws).flatten := by
  have hone : txStream s.cfg.width [(.data, pixelBurst s.pixFmt s.cfg.width none ws)] = tagged .data ws :=
    pixelTx_stream he
  rw [repeatTx, txStream_flatten_replicate, txStream_replicate, hone, tagged_flatten_replicate]

theorem repeatTx_events (n : Nat) :
    txEvents s.cfg [repeatTx s n ws] = writeEvents s.cfg .data (List.replicate n ws).flatten := by
  rw [← repeatTx_words he n]
  exact List.append_nil _

theorem repeatTx_ne_nil {n : Nat} (hn : n ≠ 0) : (repeatTx s n ws).2 ≠ [] := by
  obtain ⟨_, _, _, hne⟩ := pixelBurst_pixels he
  have hpos : n * ws.length ≠ 0 := Nat.mul_ne_zero hn (mt List.length_eq_zero_iff.1 hne)
  rw [← repeatTx_length he n] at hpos
  exact mt List.length_eq_zero_iff.2 hpos

/-- The last word of `n` pixels is the last word of one. -/
theorem repeatTx_getLast? {n : Nat} (hn : n ≠ 0) {v : Word} (hv : ws.getLast? = some v) :
    ∃ k, (repeatTx s n ws).2.getLast? = some (k, v) := by
  refine burst_getLast? (repeatTx_words he n) ?_
  obtain ⟨n, rfl⟩ := Nat.exists_eq_succ_of_ne_zero hn
  rw [List.replicate_succ', List.flatten_append]
  simp [hv]

/-- WRITE_REPEATED_PIXEL of at least one pixel in which nothing faults, from any state (R129). -/
theorem exec_writeRepeatedPixel_sent {len : BitVec 32} (hs : s.inited = true) (hn : len.toNat ≠ 0)
    (hq : s.quietFor (writeCost s.cfg (len.toNat * ws.length))) :
    ∃ t, exec (.writeRepeatedPixel p len) s = .next t.finish ∧
      Sent [repeatTx s len.toNat ws] ({ s with enc := ws } : State).released t ∧
      (s.cfg.isSerial = false → ∀ v, ws.getLast? = some v → AfterWrite .data v t) := by
  obtain ⟨t, hrun, hsent, hrest⟩ := busWrite_sent_released .data (s := { s with enc := ws }) (repeatTx_ne_nil he hn)
    (by rw [repeatTx_length he]; exact hq)
  have hop : repeatPixelOp p len.toNat s = .going t := by
    rw [repeatPixelOp, he]
    exact hrun
  refine ⟨t, exec_of_going (if_pos hs) hop, hsent, fun hser v hv => ?_⟩
  obtain ⟨k, hk⟩ := repeatTx_getLast? he hn hv
  exact hrest hser (k, v) hk

end RepeatTx

/-- Settles O49: no transaction for count 0, else one of the pixel's words `n` times, from the state with the pixel in
`ENC`. -/
theorem repeatedPixelSends : Obligations.RepeatedPixelSends := by
  intro s p len ws hs he hq
  by_cases hlen : len = 0
  · subst hlen
    obtain ⟨_, hempty⟩ := emptyWritesDoNothing s hs
    refine ⟨_, hempty p ws he, ⟨rfl, rfl, rfl, rfl⟩, ⟨rfl, rfl, rfl, rfl, rfl, rfl, rfl, rfl, rfl⟩, ?_, ?_,
      fun _ h => absurd rfl h⟩
    · change s.stream = _
      simp [tagged]
    · change s.finish.events = s.events ++ [] ++ [.done .ok]
      rw [List.append_nil]
      exact s.complete_events .ok
  · have hn : len.toNat ≠ 0 := fun h => hlen (BitVec.eq_of_toNat_eq h)
    obtain ⟨t, hx, hsent, hrest⟩ := exec_writeRepeatedPixel_sent he hs hn hq
    obtain ⟨hend, hkeep, hstream, hevents, _⟩ := hsent.finish
    rw [State.released_cfg, State.released_stream, repeatTx_stream he] at hstream
    rw [State.released_cfg, State.released_events, repeatTx_events he] at hevents
    rw [if_neg hlen]
    refine ⟨t.finish, hx, hend, hkeep.of_released, hstream, hevents, fun hser _ v hv => (hrest hser v hv).rests ?_⟩
    rw [hsent.core.cfg, State.released_cfg]
    exact encodePixels_fits he v (List.mem_of_getLast? hv)

/-! ## The fast path -/

/-- One transaction opens and closes once for all its words, `n` transactions do so `n` times (R112). -/
theorem writeCost_mul_le (c : Config) (n k : Nat) : writeCost c (n * k) ≤ n * writeCost c k := by
  rcases Nat.eq_zero_or_pos n with rfl | hn
  · simp [writeCost]
  · rcases Nat.eq_zero_or_pos k with rfl | hk
    · simp [writeCost]
    · simp only [writeCost, Nat.mul_eq_zero, hn.ne', hk.ne', or_self, if_false]
      split
      · omega
      · rw [Nat.mul_assoc, Nat.mul_add n 7]
        exact Nat.add_le_add_right (Nat.le_mul_of_pos_left 7 hn) _

/-- The same WRITE_PIXELS request `n` times, in which nothing faults, from any state. -/
theorem execTimes_writePixels_stream {p1 : Pixel} {p2 : Option Pixel} {ws : List Word} (n : Nat) {s : State}
    (hs : s.inited = true) (he : encodePixels s.cfg.pack565 s.pixFmt s.cfg.width p1 p2 = some ws)
    (hq : s.quietFor (n * writeCost s.cfg ws.length)) :
    ∃ u, execTimes (.writePixels p1 p2) n s = .next u ∧
      u.stream = s.stream ++ (if n = 0 then [] else s.leftWord) ++ tagged .data (List.replicate n ws).flatten := by
  induction n generalizing s with
  | zero => exact ⟨s, rfl, by simp [tagged]⟩
  | succ n ih =>
    rw [Nat.succ_mul, Nat.add_comm] at hq
    obtain ⟨t, hx, hsent, _⟩ := exec_writePixels_sent hs he (State.quietFor_mono hq (Nat.le_add_right _ _))
    obtain ⟨_, hkeep, hstream, _⟩ := hsent.finish
    obtain ⟨hcfg, hfmt, hin, _⟩ := hkeep.of_released
    rw [State.released_cfg, State.released_stream, pixelTx_stream he] at hstream
    have hleft : t.finish.leftWord = [] := State.leftWord_of_settled hsent.settled
    have hrest : t.finish.quietFor (n * writeCost t.finish.cfg ws.length) := by
      rw [hcfg]
      refine hsent.quiet ?_
      rw [State.released_quietFor, State.released_cfg, pixelTx_cost he]
      exact hq
    obtain ⟨u, hu, hustream⟩ := ih (hin.trans hs) (by rw [hcfg, hfmt]; exact he) hrest
    refine ⟨u, by rw [execTimes, hx]; exact hu, ?_⟩
    rw [hustream, hstream, hleft, List.replicate_succ, List.flatten_cons]
    simp [tagged]

/-- Settles O50: both sides capture a word left before, and then the pixel's words `n` times. -/
theorem repeatedPixelFastPath : Obligations.RepeatedPixelFastPath := by
  intro s p len ws hs he hq
  obtain ⟨t, ht, _, _, hfast, _⟩ :=
    repeatedPixelSends s p len ws hs he (State.quietFor_mono hq (writeCost_mul_le s.cfg len.toNat ws.length))
  obtain ⟨u, hu, hslow⟩ := execTimes_writePixels_stream len.toNat hs he hq
  have hzero : len = 0 ↔ len.toNat = 0 := BitVec.toNat_inj.symm
  exact ⟨t, u, ht, hu, by rw [hfast, hslow, if_congr hzero rfl rfl]⟩

end Sys2Proof.Machine

/-! Command: the command-protocol requests, the twelve wire commands and CLEAR_SCREEN, in which nothing faults (O17, O24
to O27, O29, O30, O53). -/

namespace Sys2Proof.Machine

/-! ## One wire command -/

/-- A wire command whose parameters are supplied and in which nothing faults, from any state: a write pulse that was
left half done is completed first (log 17), and the command is two transactions (R75, R141). -/
theorem sendCommand_sent_released (opc : Byte) {n : Nat} {elems : List Word} {s : State} (hn : n ≤ elems.length)
    (hq : s.quietFor (wireCost s.cfg n)) :
    ∃ t, sendCommand opc n elems s = .going t ∧ Sent (wireTx opc (elems.take n)) s.released t ∧
      (s.cfg.isSerial = false → ∀ v, (elems.take n).getLast? = some v → AfterWrite .data v t) ∧
      (s.cfg.isSerial = false → n = 0 → AfterWrite .command (wordOfByte opc) t) := by
  have h := sendCommand_sent opc n elems s.released_settled hn (by simpa using hq)
  rwa [sendCommand_released opc n elems (quietFor_wire hq), State.released_cfg] at h

/-- What the monitor holds after a wire command with these parameter bytes that starts no pixel stream before them. -/
def Ghost.afterWire (opc : Byte) (params : List Byte) (g : Ghost) : Ghost :=
  (({ g with mark := .raw } : Ghost).command opc).parameters opc params

/-- State `t` is how a request that does nothing but send this wire command ends, when nothing faults: with OK, with no
register changed, and with the command's events, captured words and lines after those of `s`. -/
structure WireSent (opc : Byte) (params : List Byte) (s t : State) : Prop where
  ended : t.EndedWith .ok
  keeps : s.KeepsRegisters t
  stream : t.stream = s.stream ++ s.leftWord ++ wireStream opc params
  events : t.events = s.events ++ wireEvents s.cfg opc params ++ [.done .ok]
  restsAfterData : s.cfg.isSerial = false → ∀ b, params.getLast? = some b → t.RestsAfterWrite .data (wordOfByte b)
  restsAfterOpcode : s.cfg.isSerial = false → params = [] → t.RestsAfterWrite .command (wordOfByte opc)
  record : opc ≠ 0x2C ∨ params = [] → t.ghost = s.released.ghost.afterWire opc params

/-- A wire command whose elements are these parameter bytes, in which nothing faults, from any state (R75, R141). -/
theorem sendCommand_wireSent (opc : Byte) {n : Nat} {elems : List Word} {params : List Byte} {s : State}
    (hn : n ≤ elems.length) (hp : elems.take n = params.map wordOfByte) (hq : s.quietFor (wireCost s.cfg n)) :
    ∃ t, sendCommand opc n elems s = .going t ∧ WireSent opc params s t.finish := by
  obtain ⟨t, hrun, hsent, hdata, hopcode⟩ := sendCommand_sent_released opc hn hq
  have hcard : params.length = n := by
    rw [← List.length_map (f := wordOfByte), ← hp, List.length_take_of_le hn]
  rw [hp] at hsent hdata
  obtain ⟨hend, hkeep, hstream, hevents, hghost⟩ := hsent.finish
  rw [State.released_stream, wireTx_stream] at hstream
  rw [State.released_events, State.released_cfg, wireTx_events] at hevents
  refine ⟨t, hrun, ⟨hend, hkeep.of_released, hstream, hevents, fun hser b hb => ?_, fun hser h0 => ?_, fun h => ?_⟩⟩
  · exact (hdata hser (wordOfByte b) (by simp [hb])).rests (busWord_wordOfByte _ b)
  · exact (hopcode hser (by rw [← hcard, h0]; rfl)).rests (busWord_wordOfByte _ opc)
  · rw [hghost, noteAll_wire opc params s.released h]
    rfl

theorem sendWire_wireSent (opc : Byte) (params : List Byte) {s : State}
    (hq : s.quietFor (wireCost s.cfg params.length)) :
    ∃ t, sendWire opc params s = .going t ∧ WireSent opc params s t.finish :=
  sendCommand_wireSent opc (by simp) (List.take_of_length_le (by simp)) hq

/-- A request whose whole work is one wire command, in which nothing faults. -/
theorem exec_wireSent {i : Instr} {opc : Byte} {params : List Byte} {s : State}
    (hx : exec i s = .next (sendWire opc params s).settle) (hq : s.quietFor (wireCost s.cfg params.length)) :
    ∃ t, exec i s = .next t ∧ WireSent opc params s t := by
  obtain ⟨t, hrun, hw⟩ := sendWire_wireSent opc params hq
  exact ⟨t.finish, by rw [hx, hrun]; rfl, hw⟩

/-- An instruction presented as a wire command, in which nothing faults (R86, R150 to R161). -/
theorem exec_wireSent_of_encode {i : Instr} {opc : Byte} {params : List Byte} {s : State}
    (henc : encode i = .wire opc params) (hs : s.inited = true) (hq : s.quietFor (wireCost s.cfg params.length)) :
    ∃ t, exec i s = .next t ∧ WireSent opc params s t :=
  exec_wireSent ((exec_of_encode_wire henc s).trans (if_pos hs)) hq

/-! ## The wire commands -/

theorem encode_of_mem_parameterless : ∀ io ∈ parameterless, encode io.1 = .wire io.2 [] := by decide

/-- Settles O26: each of the eight is presented as the wire command of its opcode alone. -/
theorem parameterlessWireCommandsSend : Obligations.ParameterlessWireCommandsSend := by
  intro s io hio hs hq
  obtain ⟨t, hx, hw⟩ := exec_wireSent_of_encode (encode_of_mem_parameterless io hio) hs hq
  have hevents : wireEvents s.cfg io.2 [] = writeEvents s.cfg .command [wordOfByte io.2] := List.append_nil _
  exact ⟨t, hx, hw.ended, hw.keeps, hw.stream, hevents ▸ hw.events, fun hser => hw.restsAfterOpcode hser rfl⟩

/-- Settles O27: each of the four is presented as the wire command of its opcode and its parameter bytes. -/
theorem wireCommandsWithParametersSend : Obligations.WireCommandsWithParametersSend := by
  intro s i opc params hi hs hq
  have henc : encode i = .wire opc params := by
    rcases hi with ⟨a0, a1, rfl, rfl, rfl⟩ | ⟨a0, a1, rfl, rfl, rfl⟩ | ⟨m, rfl, rfl, rfl⟩ | ⟨b, rfl, rfl, rfl⟩ <;> rfl
  obtain ⟨t, hx, hw⟩ := exec_wireSent_of_encode henc hs hq
  exact ⟨t, hx, hw.ended, hw.keeps, hw.stream, hw.events, hw.restsAfterData⟩

/-! ## What the monitor records of them -/

section Recorded
variable {a0 a1 : Coord} {s t : State}

/-- The record of COLUMN_ADDRESS_SET (R35, R156). -/
theorem WireSent.columns_recorded (h : WireSent 0x2A (coordBytes a0 a1) s t) :
    t.ghost.devWin = { s.released.ghost.devWin with c0 := a0, c1 := a1 } ∧ t.ghost.owed = none ∧
      t.ghost.phase = s.released.ghost.phase ∧ t.ghost.devFmt = s.released.ghost.devFmt := by
  rw [h.record (.inl (by decide))]
  exact Machine.columns_recorded { s.released.ghost with mark := .raw } a0 a1

/-- The record of PAGE_ADDRESS_SET (R35, R157). -/
theorem WireSent.pages_recorded (h : WireSent 0x2B (coordBytes a0 a1) s t) :
    t.ghost.devWin = { s.released.ghost.devWin with p0 := a0, p1 := a1 } ∧ t.ghost.owed = none ∧
      t.ghost.phase = s.released.ghost.phase ∧ t.ghost.devFmt = s.released.ghost.devFmt := by
  rw [h.record (.inl (by decide))]
  exact Machine.pages_recorded { s.released.ghost with mark := .raw } a0 a1

/-- The record of MEMORY_ACCESS_CONTROL, whose parameter is neither an address nor a format (R159). -/
theorem WireSent.accessControl_recorded {m : Byte} (h : WireSent 0x36 [m] s t) :
    t.ghost.devWin = s.released.ghost.devWin ∧ t.ghost.phase = s.released.ghost.phase ∧
      t.ghost.devFmt = s.released.ghost.devFmt ∧ t.ghost.owed = none := by
  rw [h.record (.inl (by decide))]
  simp [Ghost.afterWire, Ghost.command, Ghost.parameters, Ghost.parameter, phaseAfter, devWinAfter]

/-- The record of a format command (R33, R34, R161). -/
theorem WireSent.format_recorded {b : Byte} (h : WireSent 0x3A [b] s t) :
    t.ghost.devWin = s.released.ghost.devWin ∧ t.ghost.owed = none ∧ t.ghost.phase = .formatSet ∧
      t.ghost.devFmt = devFmtOf b := by
  rw [h.record (.inl (by decide))]
  exact Machine.format_recorded { s.released.ghost with mark := .raw } b

/-- The record of a wire command without parameters (R33 to R36). -/
theorem WireSent.opcode_recorded {opc : Byte} (h : WireSent opc [] s t) :
    t.ghost.devWin = s.released.ghost.devWin ∧ t.ghost.phase = phaseAfter opc s.released.ghost.phase ∧
      t.ghost.devFmt = (if opc = 0x01 then .unknown else s.released.ghost.devFmt) ∧
      t.ghost.owed = (if opc = 0x2C then some (windowCount s.released.ghost.devWin) else none) := by
  rw [h.record (.inr rfl)]
  exact ⟨rfl, rfl, rfl, rfl⟩

end Recorded

/-- A window in order has the count of R36. -/
theorem windowCount_of_le {w : DevWin} (hc : w.c0.toNat ≤ w.c1.toNat) (hp : w.p0.toNat ≤ w.p1.toNat) :
    windowCount w =
      ((w.c1.toNat : Int) - w.c0.toNat + 1) * ((w.p1.toNat : Int) - w.p0.toNat + 1) := by
  rw [windowCount, if_pos ⟨hc, hp⟩]
  simp only [Nat.cast_mul, Nat.cast_add, Nat.cast_one, Int.natCast_sub hc, Int.natCast_sub hp]

/-- Settles O29: each command is one wire command, and on a settled bus no other word is recorded with it. -/
theorem monitorRecordsWireCommands : Obligations.MonitorRecordsWireCommands := by
  intro s hs hset
  have hrel : s.released = s := State.released_of_settled hset
  refine ⟨fun io hio hq => ?_, fun a0 a1 hq => ?_, fun a0 a1 hq => ?_, fun m hq => ?_, fun b hq => ?_⟩
  · obtain ⟨t, hx, hw⟩ := exec_wireSent_of_encode (encode_of_mem_parameterless io hio) hs hq
    obtain ⟨hwin, hphase, hfmt, howed⟩ := hrel ▸ hw.opcode_recorded
    refine ⟨t, hx, hwin, hphase, hfmt, fun h => howed.trans (if_neg h), fun h hc hp => ?_⟩
    rw [howed, if_pos h, windowCount_of_le hc hp]
  · obtain ⟨t, hx, hw⟩ := exec_wireSent_of_encode (i := .cmdColumnAddressSet a0 a1) rfl hs hq
    obtain ⟨hwin, howed, hphase, hfmt⟩ := hrel ▸ hw.columns_recorded
    exact ⟨t, hx, hwin, hphase, hfmt, howed⟩
  · obtain ⟨t, hx, hw⟩ := exec_wireSent_of_encode (i := .cmdPageAddressSet a0 a1) rfl hs hq
    obtain ⟨hwin, howed, hphase, hfmt⟩ := hrel ▸ hw.pages_recorded
    exact ⟨t, hx, hwin, hphase, hfmt, howed⟩
  · obtain ⟨t, hx, hw⟩ := exec_wireSent_of_encode (i := .cmdMemoryAccessControl m) rfl hs hq
    exact ⟨t, hx, hrel ▸ hw.accessControl_recorded⟩
  · obtain ⟨t, hx, hw⟩ := exec_wireSent_of_encode (i := .cmdInterfacePixelFormat b) rfl hs hq
    obtain ⟨hwin, howed, hphase, hfmt⟩ := hrel ▸ hw.format_recorded
    exact ⟨t, hx, hwin, hphase, hfmt, howed⟩

/-! ## WRITE_COMMAND -/

/-- Settles O24: of each supplied element the low byte is a parameter of the wire command (R71). -/
theorem writeCommandSends : Obligations.WriteCommandSends := by
  intro s opc len hs hn hq
  have hp : (s.plWords.map fun v => wordOfByte (byteOfWord v)).take len.toNat =
      ((s.plWords.take len.toNat).map byteOfWord).map wordOfByte := by
    rw [← List.map_take, List.map_map]
    rfl
  obtain ⟨t, hrun, hw⟩ := sendCommand_wireSent opc (by simpa using hn) hp hq
  refine ⟨t.finish, exec_of_going (if_pos hs) hrun, hw.ended, hw.keeps, hw.stream, hw.events, fun hser v hv => ?_,
    fun hser h0 => ?_⟩
  · exact hw.restsAfterData hser (byteOfWord v) (by rw [List.getLast?_map, hv]; rfl)
  · exact hw.restsAfterOpcode hser (by rw [h0]; rfl)

/-! ## SET_PIXEL_FORMAT -/

/-- A format operand is sent as the byte from which the device learns the stored tag (R77, R161). -/
theorem formatOf_legal {fmt : BitVec 3} {param : Byte} {tag : PixFmt}
    (h : (fmt = 5 ∧ param = 0x55 ∧ tag = .rgb565) ∨ (fmt = 6 ∧ param = 0x66 ∧ tag = .rgb666)) :
    formatOf fmt = some (param, tag) ∧ devFmtOf param = tag.dev := by
  rcases h with ⟨rfl, rfl, rfl⟩ | ⟨rfl, rfl, rfl⟩ <;> exact ⟨rfl, rfl⟩

/-- Settles O17: the format command is one wire command, and its end stores the tag. -/
theorem setPixelFormatTellsThenStores : Obligations.SetPixelFormatTellsThenStores := by
  intro s fmt param tag hlegal hs hq
  obtain ⟨hformat, hdev⟩ := formatOf_legal hlegal
  obtain ⟨t, hrun, hw⟩ := sendWire_wireSent 0x3A [param] hq
  have hbody : setFormat fmt s = .going { t with pixFmt := tag } := by
    simp only [setFormat, hformat, hrun, Progress.bind_going]
  obtain ⟨hcfg, _, hregs⟩ := hw.keeps
  obtain ⟨_, howed, hphase, hfmt⟩ := hw.format_recorded
  exact ⟨_, exec_of_going (if_pos hs) hbody, hw.ended, ⟨hcfg, rfl, hregs⟩, hphase, hfmt.trans hdev, howed, hw.stream,
    hw.events, fun hser => hw.restsAfterData hser param rfl⟩

/-! ## The address requests -/

theorem hiByte_eq_extractLsb' (c : Coord) : hiByte c = c.extractLsb' 8 8 := by
  apply BitVec.eq_of_toNat_eq
  simp [hiByte]

theorem loByte_eq_extractLsb' (c : Coord) : loByte c = c.extractLsb' 0 8 := by
  apply BitVec.eq_of_toNat_eq
  simp [loByte]

/-- The parameter bytes of an address request, most significant first (R58, R78). -/
theorem coordBytes_eq_extractLsb' (a0 a1 : Coord) :
    coordBytes a0 a1 = [a0.extractLsb' 8 8, a0.extractLsb' 0 8, a1.extractLsb' 8 8, a1.extractLsb' 0 8] := by
  simp only [coordBytes, hiByte_eq_extractLsb', loByte_eq_extractLsb']

/-- The bytes of two coordinates on the bus, as bits of their operands (R58). -/
theorem WireSent.coords {opc : Byte} {a0 a1 : Coord} {s t : State} (h : WireSent opc (coordBytes a0 a1) s t) :
    t.stream = s.stream ++ s.leftWord
      ++ wireStream opc [a0.extractLsb' 8 8, a0.extractLsb' 0 8, a1.extractLsb' 8 8, a1.extractLsb' 0 8] ∧
    (s.cfg.isSerial = false → t.RestsAfterWrite .data (wordOfByte (a1.extractLsb' 0 8))) := by
  rw [← coordBytes_eq_extractLsb', ← loByte_eq_extractLsb']
  exact ⟨h.stream, fun hser => h.restsAfterData hser (loByte a1) rfl⟩

/-- Settles O25: each request is one wire command with the four bytes of its operands. -/
theorem addressCommandsSend : Obligations.AddressCommandsSend := by
  intro s a0 a1 hs hq
  constructor
  · obtain ⟨t, hx, hw⟩ := exec_wireSent (i := .columnAddressSet a0 a1) (params := coordBytes a0 a1) (if_pos hs) hq
    obtain ⟨hwin, howed, _⟩ := hw.columns_recorded
    obtain ⟨hstream, hrest⟩ := hw.coords
    exact ⟨t, hx, hw.ended, hw.keeps, by rw [hwin], by rw [hwin], howed,
      fun hset => by rw [hwin, State.released_of_settled hset], hstream, hw.events, hrest⟩
  · obtain ⟨t, hx, hw⟩ := exec_wireSent (i := .pageAddressSet a0 a1) (params := coordBytes a0 a1) (if_pos hs) hq
    obtain ⟨hwin, howed, _⟩ := hw.pages_recorded
    obtain ⟨hstream, hrest⟩ := hw.coords
    exact ⟨t, hx, hw.ended, hw.keeps, by rw [hwin], by rw [hwin], howed,
      fun hset => by rw [hwin, State.released_of_settled hset], hstream, hw.events, hrest⟩

/-! ## READ_COMMAND -/

/-- The opcode of READ_COMMAND in which nothing faults, from any state, with `n` pin operations to come after it. -/
theorem opcode_sent_released (opc : Byte) {n : Nat} {s : State} (hq : s.quietFor (writeCost s.cfg 1 + n)) :
    ∃ r, busWrite .command (rawBurst [wordOfByte opc]) s = .going r ∧
      Sent [(.command, rawBurst [wordOfByte opc])] s.released r ∧ r.quietFor n ∧
      r.stream = s.stream ++ s.leftWord ++ [(.command, wordOfByte opc)] ∧
      r.events = s.events ++ writeEvents s.cfg .command [wordOfByte opc] := by
  obtain ⟨r, hwrite, hsent, _⟩ := busWrite_sent_released .command (opcode_burst opc) (s := s)
    (State.quietFor_mono hq (Nat.le_add_right _ _))
  have hstream := hsent.stream
  have hevents := hsent.events
  rw [State.released_cfg, State.released_stream, rawTx_stream, List.map_singleton, busWord_wordOfByte] at hstream
  rw [State.released_cfg, State.released_events, rawTx_events] at hevents
  exact ⟨r, hwrite, hsent, hsent.quiet (by simpa [txCost] using hq), hstream, hevents⟩

/-- Settles O30: the opcode is one undisturbed write transaction, from the state in which a half-done pulse was
completed, and the samples are those of one undisturbed read transaction after it. -/
theorem readCommandReads : Obligations.ReadCommandReads := by
  intro s opc len hs hlen hv hq
  obtain ⟨r, hwrite, hsent, hquiet, hopcode, hopcodeEvents⟩ := opcode_sent_released opc hq
  have hc : r.cfg = s.cfg := hsent.core.cfg.trans s.released_cfg
  have hlevels : r.levels = s.levels := hsent.inputs.levels.trans s.released_levels
  obtain ⟨t, samples, hread, hcard, hcore, rfl, _, hframe, _, _, hevents, hdriven, hrest⟩ :=
    busRead_quiet len.toNat hsent.settled (hc ▸ hv) (hc ▸ hquiet)
  rw [hc, hlevels] at hdriven
  rw [hc, hopcodeEvents] at hevents
  have hrun : body (.readCommand opc len) s = .going t := by
    rw [body, readAfterOpcode, hwrite, Progress.bind_going, hread]
    rfl
  refine ⟨t.finish, exec_of_going (execReadCommand_of_someSample opc hs (someSample_of_ne_zero hlen)) hrun,
    ⟨rfl, rfl, rfl, rfl⟩, hcard,
    ((s.released_sameCore.1.trans hsent.core).trans hcore).keepsRegisters
      (hframe.resx.trans (hsent.resx.trans s.released_resx)),
    (congrArg List.reverse hframe.captured).trans hopcode,
    (t.complete_events .ok).trans (congrArg (· ++ [Event.done .ok]) hevents), hdriven, fun hser => ?_⟩
  obtain ⟨hcs, hwrx, hrdx, hdcx, hddir⟩ := hrest (hc ▸ hser)
  exact ⟨hcs, hwrx, hrdx, hdcx, hddir⟩

/-! ## CLEAR_SCREEN -/

/-- The work of DRAW_RECT in which nothing faults, from any state: a write pulse that was left half done is completed
first (log 17). -/
theorem fillRectangle_sent_released {x y w h : Coord} {p1 : Pixel} {pair one : List Word} {s : State}
    (hp : encodePixels s.cfg.pack565 s.pixFmt s.cfg.width p1 (some p1) = some pair)
    (h1 : encodePixels s.cfg.pack565 s.pixFmt s.cfg.width p1 none = some one)
    (hq : s.quietFor (windowCost s.cfg + (pixelCount w h / 2 * writeCost s.cfg pair.length
      + pixelCount w h % 2 * writeCost s.cfg one.length))) :
    ∃ t, fillRectangle x y w h p1 s = .going t ∧
      Sent (windowTx x (spanEnd x w) y (spanEnd y h) ++ fillTx s p1 (pixelCount w h) pair one) s.released t := by
  have hfill := fillRectangle_sent (x := x) (y := y) (w := w) (h := h) s.released_settled (by simpa using hp)
    (by simpa using h1) (by simpa using hq)
  have htx : fillTx s.released p1 (pixelCount w h) pair one = fillTx s p1 (pixelCount w h) pair one := by
    simp only [fillTx, pixelTx_congr s.released_pixFmt s.released_cfg]
  rwa [htx, fillRectangle, setWindow_released _ _ _ _ (quietFor_window (State.quietFor_mono hq (Nat.le_add_right _ _))),
    ← fillRectangle] at hfill

/-- An even number of pixels is sent in pairs only (R176). -/
theorem fillTx_even (s : State) (p1 : Pixel) (k : Nat) (pair one : List Word) :
    fillTx s p1 (2 * k) pair one = List.replicate k (pixelTx s (some p1) pair) := by
  simp [fillTx]

/-- Every word of a pair of black pixels is zero, in every format and on every bus. -/
theorem encodePixels_black {pack : Pack565} {fmt : PixFmt} {w : Width} {pair : List Word}
    (h : encodePixels pack fmt w { r := 0, g := 0, b := 0 } (some { r := 0, g := 0, b := 0 }) = some pair) :
    pair = List.replicate pair.length 0 := by
  cases fmt <;> cases w
  case rgb565.w18 => cases h
  all_goals
    cases h
    cases pack <;> rfl

/-- A pixel of which a pair can be encoded can be encoded alone: both depend on the format and the bus only (R84). -/
theorem encodePixels_one_of_pair {pack : Pack565} {fmt : PixFmt} {w : Width} {p q : Pixel} {pair : List Word}
    (h : encodePixels pack fmt w p (some q) = some pair) : ∃ one, encodePixels pack fmt w p none = some one := by
  refine Option.ne_none_iff_exists'.1 fun hnone => ?_
  have hform : fmt = .rgb565 ∧ w = .w18 := (encodePixels_eq_none_iff pack fmt w p none).1 hnone
  cases h.symm.trans ((encodePixels_eq_none_iff pack fmt w p (some q)).2 hform)

/-- Settles O53: the panel is a rectangle of 2 * 76800 pixels, each pair of which is encoded in zero words. -/
theorem clearScreenSends : Obligations.ClearScreenSends := by
  intro s
  refine ⟨rfl, fun pair hs hvalid hp hq => ?_⟩
  obtain ⟨one, hone⟩ := encodePixels_one_of_pair hp
  have ⟨hw, hh, _⟩ := hvalid
  have hcount : pixelCount s.cfg.panelW s.cfg.panelH = 2 * 76800 := by rw [hw, hh]; rfl
  have hx : exec .clearScreen s = .next (body .clearScreen s).settle :=
    exec_of_meaningful rfl (.inl hs) hvalid
  obtain ⟨t, hrun, hsent⟩ := fillRectangle_sent_released (x := 0) (y := 0) (w := s.cfg.panelW) (h := s.cfg.panelH) hp
    hone (by rw [hcount]; simpa using hq)
  have hcolumn : spanEnd 0 s.cfg.panelW = 319 := by rw [hw]; rfl
  have hpage : spanEnd 0 s.cfg.panelH = 479 := by rw [hh]; rfl
  rw [hcount, fillTx_even, hcolumn, hpage] at hsent
  obtain ⟨hend, hkeep, hstream, hevents, _⟩ := hsent.finish
  rw [State.released_cfg, State.released_stream, txStream_append, windowTx_stream, txStream_replicate,
    pixelTx_stream hp, ← tagged_flatten_replicate] at hstream
  rw [State.released_cfg, State.released_events, txEvents_append, windowTx_events, txEvents_replicate,
    pixelTx_events hp] at hevents
  refine ⟨t.finish, exec_of_going hx hrun, hend, hkeep.of_released, fun hset => ?_, ?_⟩
  · have hzero : (List.replicate 76800 pair).flatten = List.replicate (76800 * pair.length) 0 :=
      (congrArg (fun ws => (List.replicate 76800 ws).flatten) (encodePixels_black hp)).trans
        List.flatten_replicate_replicate
    rw [hstream, State.leftWord_of_settled hset, List.append_nil, hzero]
    simp only [List.append_assoc]
  · rw [hevents]
    simp only [List.append_assoc]

end Sys2Proof.Machine

/-! Facade: INIT with a legal format, and the two drawing requests, in which nothing faults (O13, O16, O51, O52). -/

namespace Sys2Proof.Machine

/-! ## INIT, however it ends -/

/-- Micro-operations leave the registers of the block alone, however they end. -/
theorem runOps_sameCore (err : Status) (ops : List MicroOp) (s : State) : SameCore s (runOps err ops s).state :=
  runOps_keeps (fun t f h => h.trans (.withFaults f t)) err ops (fun op _ t h => h.trans (op.effect_sameCore t).1)
    (.refl s)

/-- A wire command leaves the registers of the block alone, however it ends (R150 to R161). -/
theorem sendWire_sameCore (opc : Byte) (params : List Byte) (s : State) : SameCore s (sendWire opc params s).state :=
  sendWire_closed (P := SameCore s)
    { faults := fun t f h => h.trans (.withFaults f t)
      effect := fun t op _ _ h => h.trans (op.effect_sameCore t).1
      lost := fun _ h => h.trans (by constructor <;> rfl) } opc params (.refl s)

/-- A format command that raises an error leaves the registers of the block alone (R146). -/
theorem setFormat_raised_sameCore {fmt : BitVec 3} {s t : State} {e : Status} (h : setFormat fmt s = .raised e t) :
    SameCore s t := by
  unfold setFormat at h
  split at h
  · cases h
    exact .refl s
  · rename_i param tag _
    have hsend : sendWire 0x3A [param] s = .raised e t := Progress.raised_of_bind_going h
    exact Progress.state_of_raised hsend ▸ sendWire_sameCore 0x3A [param] s

/-- INIT that raises an error has cleared `INITED` and changed no other register of the block (R172). -/
theorem initialiseDevice_raised_sameCore {fmt : BitVec 3} {s t : State} {e : Status}
    (h : initialiseDevice fmt s = .raised e t) : SameCore { s with inited := false } t := by
  have hpulse := runOps_sameCore .busWriteError (resetPulse s.cfg) { s with inited := false }
  have hwork := Progress.raised_of_bind_going h
  cases hrun : runOps .busWriteError (resetPulse s.cfg) { s with inited := false } with
  | going u =>
    rw [hrun, Progress.bind_going] at hwork
    rw [hrun] at hpulse
    have hnote : SameCore u u.noteDeviceReset := by constructor <;> rfl
    exact (hpulse.trans hnote).trans (setFormat_raised_sameCore hwork)
  | raised e' u =>
    rw [hrun] at hwork hpulse
    cases hwork
    exact hpulse
  | stalled u =>
    rw [hrun] at hwork
    cases hwork

/-- INIT that goes well to its end has set `INITED` (R172). -/
theorem initialiseDevice_going_inited {fmt : BitVec 3} {s t : State} (h : initialiseDevice fmt s = .going t) :
    t.inited = true := by
  obtain ⟨u, -, hu⟩ := Progress.bind_eq_going h
  cases hu
  rfl

/-- Settles O16: `INITED` is cleared at the start and set only at the end, which no error reaches, and the tag is stored
only after the format command. -/
theorem initInitialisesExactlyWhenOk : Obligations.InitInitialisesExactlyWhenOk := by
  intro s t fmt hx
  have ht : t = (initialiseDevice fmt s).settle := (exec_next hx).1
  cases hp : initialiseDevice fmt s with
  | going u =>
    have hin : u.inited = true := initialiseDevice_going_inited hp
    rw [hp] at ht
    subst ht
    exact ⟨iff_of_true hin rfl, fun h => absurd rfl h⟩
  | raised e u =>
    have hcore := initialiseDevice_raised_sameCore hp
    have hin : ¬ u.inited = true := by simp [hcore.inited]
    have he : e ≠ .ok := by rcases initialiseDevice_raises fmt s e u hp with rfl | rfl <;> decide
    rw [hp] at ht
    subst ht
    exact ⟨iff_of_false hin he, fun _ => hcore.pixFmt⟩
  | stalled u => exact absurd hp (initialiseDevice_ends fmt s u)

/-! ## INIT with a legal format -/

/-- The word that an aborted write left does not depend on the reset line. -/
theorem State.leftWord_of_lines {s t : State} {level : Level} (hc : t.cfg = s.cfg)
    (hl : t.lines = { s.lines with resx := level }) : t.leftWord = s.leftWord := by
  have hcs : t.cs = s.cs := congrArg Lines.cs hl
  have hwrx : t.wrx = s.wrx := congrArg Lines.wrx hl
  have hdcx : t.dcx = s.dcx := congrArg Lines.dcx hl
  have hdout : t.dout = s.dout := congrArg Lines.dout hl
  rw [State.leftWord, State.leftWord, State.pulseHalfDone, State.pulseHalfDone, hc, hcs, hwrx, hdcx, hdout]

/-- The format command with a legal operand stores the tag once the device has been told (R146). -/
theorem setFormat_of_going {fmt : BitVec 3} {param : Byte} {tag : PixFmt} {s t : State}
    (hf : formatOf fmt = some (param, tag)) (h : sendWire 0x3A [param] s = .going t) :
    setFormat fmt s = .going { t with pixFmt := tag } := by
  simp only [setFormat, hf, h, Progress.bind_going]

/-- INIT with a legal operand in which nothing faults: the reset pulse, from whose end on INIT is the format command
(R171). -/
theorem initialiseDevice_sent {fmt : BitVec 3} {param : Byte} {tag : PixFmt} {s : State}
    (hf : formatOf fmt = some (param, tag)) (hq : s.quietFor (2 + wireCost s.cfg 1)) :
    ∃ r t : State, initialiseDevice fmt s = .going { t with pixFmt := tag, inited := true } ∧
      Pulsed true [.set .resx false, .delay s.cfg.tResetLowUs, .set .resx true, .delay s.cfg.tStabUs]
        { s with inited := false } r ∧
      WireSent 0x3A [param] r.noteDeviceReset t.finish := by
  obtain ⟨r, hrun, hfaults, hp⟩ := resetPulse_quiet (s := { s with inited := false })
    (State.quietFor_mono hq (Nat.le_add_right _ _))
  have hquiet : r.noteDeviceReset.quietFor (wireCost r.cfg 1) := by
    rw [hp.core.cfg]
    exact State.quietFor_spend hq hfaults
  obtain ⟨t, hsend, hw⟩ := sendWire_wireSent 0x3A [param] hquiet
  exact ⟨r, t, by rw [initialiseDevice, hrun, Progress.bind_going, setFormat_of_going hf hsend, Progress.bind_going],
    hp, hw⟩

/-- Settles O13: the request is the reset pulse and one wire command, and its end stores the tag and sets `INITED`. -/
theorem initSetsUpTheBlock : Obligations.InitSetsUpTheBlock := by
  intro s fmt param tag hlegal hq
  obtain ⟨hformat, hdev⟩ := formatOf_legal hlegal
  obtain ⟨r, t, hinit, hp, hw⟩ := initialiseDevice_sent hformat hq
  have hc : r.noteDeviceReset.cfg = s.cfg := hp.core.cfg
  have hleft : r.noteDeviceReset.leftWord = s.leftWord := State.leftWord_of_lines hp.core.cfg hp.lines
  have hcaptured : r.noteDeviceReset.stream = s.stream := congrArg List.reverse hp.captured
  obtain ⟨hcfg, -, -, hlat, henc, hresx, hsamples, hlevels, hpending⟩ := hw.keeps
  obtain ⟨-, howed, hphase, hfmt⟩ := hw.format_recorded
  have hstream := hw.stream
  have hevents := hw.events
  rw [hcaptured, hleft] at hstream
  rw [hc, show r.noteDeviceReset.events = _ from hp.events] at hevents
  exact ⟨_, exec_of_going (i := .init fmt) rfl hinit, hw.ended,
    ⟨hcfg.trans hp.core.cfg, rfl, rfl, hlat.trans hp.core.lat, henc.trans hp.core.enc, hresx.trans hp.resx,
      hsamples.trans hp.inputs.rdWords, hlevels.trans hp.inputs.levels, hpending.trans hp.core.pending⟩,
    hphase, hfmt.trans hdev, howed, hstream, hevents, fun hser => hw.restsAfterData (hc ▸ hser) param rfl⟩

/-! ## What the drawing requests share -/

/-- The window and the memory-write command in which nothing faults, from any state (R173, R177; log 17). -/
theorem window_sent_released (c0 c1 p0 p1 : Coord) {s : State} (hq : s.quietFor (windowCost s.cfg)) :
    ∃ t, (setWindow c0 c1 p0 p1 s).bind (sendWire 0x2C []) = .going t ∧ Sent (windowTx c0 c1 p0 p1) s.released t := by
  have h := window_sent c0 c1 p0 p1 s.released_settled (by simpa using hq)
  rwa [setWindow_released c0 c1 p0 p1 (quietFor_window hq)] at h

/-- A request whose work is a window, the memory-write command and then these transactions ends with OK and changes no
register; the monitor notes the transactions after the window. -/
theorem Sent.drawn {c0 c1 p0 p1 : Coord} {txs : List Transaction} {s t : State}
    (h : Sent (windowTx c0 c1 p0 p1 ++ txs) s.released t) :
    t.finish.EndedWith .ok ∧ s.KeepsRegisters t.finish ∧
      t.finish.ghost = (noteAll txs (noteAll (windowTx c0 c1 p0 p1) s.released)).ghost ∧
      t.finish.stream = s.stream ++ s.leftWord ++ windowStream c0 c1 p0 p1 ++ txStream s.cfg.width txs ∧
      t.finish.events = s.events ++ wireEvents s.cfg 0x2A (coordBytes c0 c1) ++ wireEvents s.cfg 0x2B (coordBytes p0 p1)
        ++ wireEvents s.cfg 0x2C [] ++ txEvents s.cfg txs ++ [.done .ok] := by
  obtain ⟨hend, hkeep, hstream, hevents, hghost⟩ := h.finish
  rw [State.released_cfg, State.released_stream, txStream_append, windowTx_stream] at hstream
  rw [State.released_cfg, State.released_events, txEvents_append, windowTx_events] at hevents
  rw [noteAll_append] at hghost
  refine ⟨hend, hkeep.of_released, hghost, ?_, ?_⟩
  · rw [hstream]
    simp only [List.append_assoc]
  · rw [hevents]
    simp only [List.append_assoc]

/-! ## DRAW_PIXEL -/

/-- The record of one WRITE_PIXELS while pixels are owed: it owes as many fewer, and leaves the window (R35, R36). -/
theorem pixelTx_recorded {p1 : Pixel} {p2 : Option Pixel} {ws : List Word} {s : State}
    (he : encodePixels s.cfg.pack565 s.pixFmt s.cfg.width p1 p2 = some ws) {u : State} {k : Int}
    (ho : u.ghost.owed = some k) :
    (noteAll [pixelTx s p2 ws] u).ghost.owed = some (k - pixelNumber p2) ∧
      (noteAll [pixelTx s p2 ws] u).ghost.devWin = u.ghost.devWin := by
  obtain ⟨hall, hcount, -, -⟩ := pixelBurst_pixels he
  exact hcount ▸ captureBurst_pixels _ hall ho

/-- The work of DRAW_PIXEL in which nothing faults, from any state (R174; log 17). -/
theorem drawPixel_sent_released {x y : Coord} {p : Pixel} {ws : List Word} {s : State}
    (he : encodePixels s.cfg.pack565 s.pixFmt s.cfg.width p none = some ws)
    (hq : s.quietFor (windowCost s.cfg + writeCost s.cfg ws.length)) :
    ∃ t, body (.drawPixel x y p) s = .going t ∧ Sent (windowTx x x y y ++ [pixelTx s none ws]) s.released t ∧
      (s.cfg.isSerial = false → ∀ v, ws.getLast? = some v → AfterWrite .data v t) := by
  obtain ⟨r, hwin, hsent⟩ := window_sent_released x x y y (State.quietFor_mono hq (Nat.le_add_right _ _))
  have hc : r.cfg = s.cfg := hsent.core.cfg.trans s.released_cfg
  have hf : r.pixFmt = s.pixFmt := hsent.core.pixFmt.trans s.released_pixFmt
  have hquiet : r.quietFor (writeCost r.cfg ws.length) := by
    rw [hc]
    refine hsent.quiet ?_
    rwa [windowTx_cost, State.released_quietFor, State.released_cfg]
  obtain ⟨t, hpix, hone, hrest⟩ := writePixelsOp_sent hsent.settled (by rw [hc, hf]; exact he) hquiet
  rw [pixelTx_congr hf hc] at hone
  exact ⟨t, by rw [body, hwin, Progress.bind_going, hpix], hsent.trans hone, hc ▸ hrest⟩

/-- Settles O51: the request is the window, the memory-write command and one transaction of the encoder's words. -/
theorem drawPixelSends : Obligations.DrawPixelSends := by
  intro s x y p ws v hs he hv hq
  obtain ⟨t, hrun, hsent, hrest⟩ := drawPixel_sent_released he hq
  obtain ⟨hend, hkeep, hghost, hstream, hevents⟩ := hsent.drawn
  obtain ⟨hwin, howed⟩ := window_recorded x x y y s.released
  rw [pixelTx_stream he] at hstream
  rw [pixelTx_events he] at hevents
  refine ⟨t.finish, exec_of_going (if_pos hs) hrun, hend, hkeep, ?_, hstream, hevents,
    fun hser => (hrest hser v hv).rests ?_⟩
  · rw [hghost, (pixelTx_recorded he howed).2, hwin]
  · rw [hsent.core.cfg, State.released_cfg]
    exact encodePixels_fits he v (List.mem_of_getLast? hv)

/-! ## DRAW_RECT -/

/-- DRAW_RECT of a rectangle that is not empty and ends at these coordinates does its work (R79). -/
theorem exec_drawRect_of_ends {x y w h x1 y1 : Coord} (p : Pixel) {s : State} (hs : s.inited = true) (hw : w ≠ 0)
    (hh : h ≠ 0) (hx : x1.toNat = x.toNat + w.toNat - 1) (hy : y1.toNat = y.toNat + h.toNat - 1) :
    exec (.drawRect x y w h p) s = .next (fillRectangle x y w h p s).settle := by
  have hne : ¬ emptyRect w h = true := mt (emptyRect_iff w h).1 (not_or.2 ⟨hw, hh⟩)
  change drawRectangle x y w h p s = _
  rw [drawRectangle, if_pos hs, if_neg hne, (spanEnd_eq hw hx).2, (spanEnd_eq hh hy).2]
  rfl

/-- Settles O52: the request is the window, the memory-write command and the transactions of the fill. -/
theorem drawRectSends : Obligations.DrawRectSends := by
  intro s x y w h x1 y1 p pair one n hs hw hh hx hy hn hp h1 hq
  obtain rfl : n = pixelCount w h := hn
  obtain ⟨t, hrun, hsent⟩ := fillRectangle_sent_released (x := x) (y := y) hp h1 (by rwa [← Nat.add_assoc])
  rw [(spanEnd_eq hw hx).1, (spanEnd_eq hh hy).1] at hsent
  obtain ⟨hend, hkeep, hghost, hstream, hevents⟩ := hsent.drawn
  obtain ⟨hwin, howed⟩ := window_recorded x x1 y y1 s.released
  rw [fillTx_stream _ hp h1] at hstream
  rw [fillTx_events _ hp h1, ← List.append_assoc] at hevents
  refine ⟨t.finish, exec_of_going (exec_drawRect_of_ends p hs hw hh hx hy) hrun, hend, hkeep, ?_, hstream, hevents⟩
  rw [hghost, (fillTx_recorded _ hp h1 howed).2, hwin]

end Sys2Proof.Machine

/-! Exceptions: the status a request ends with, the drawing requests that cannot encode, and the requests that wait for
ever (O12, O35, O54). -/

namespace Sys2Proof.Machine

/-! ## Which status a request ends with -/

/-- The request may end with the status, and a status that depends on how the block is built is there for that reason
(R190 to R195). -/
structure Caused (i : Instr) (s : State) (st : Status) : Prop where
  named : mayEndWith i st = true
  format : st = .dataFormatNotImplemented → s.pixFmt = .rgb565 ∧ s.cfg.width = .w18
  pins : st = .inputNotAvailable → s.cfg.pinVariant = .outputOnly

section Causes

variable {i : Instr} {s : State} {st : Status}

/-- Four of the six statuses do not depend on how the block is built. -/
theorem Caused.of_named (hm : mayEndWith i st = true) (hf : st ≠ .dataFormatNotImplemented)
    (hp : st ≠ .inputNotAvailable) : Caused i s st := ⟨hm, fun h => absurd h hf, fun h => absurd h hp⟩

theorem Caused.ok (i : Instr) (s : State) : Caused i s .ok :=
  .of_named (by cases i <;> rfl) (by decide) (by decide)

theorem Caused.of_write (hm : mayEndWith i .busWriteError = true) (h : st = .busWriteError) : Caused i s st :=
  h ▸ .of_named hm (by decide) (by decide)

theorem Caused.of_format (hw : mayEndWith i .busWriteError = true) (hm : mayEndWith i .invalidFormatError = true)
    (h : st = .busWriteError ∨ st = .invalidFormatError) : Caused i s st := by
  rcases h with h | rfl
  · exact .of_write hw h
  · exact .of_named hm (by decide) (by decide)

theorem Caused.of_pixels (hw : mayEndWith i .busWriteError = true)
    (hm : mayEndWith i .dataFormatNotImplemented = true) (h : PixelError s st) : Caused i s st := by
  rcases h with h | ⟨rfl, hform⟩
  · exact .of_write hw h
  · exact ⟨hm, fun _ => hform, nofun⟩

theorem Caused.of_read (hr : mayEndWith i .busReadError = true) (hm : mayEndWith i .inputNotAvailable = true)
    (h : st = .busReadError ∨ (st = .inputNotAvailable ∧ s.cfg.pinVariant = .outputOnly)) : Caused i s st := by
  rcases h with rfl | ⟨rfl, hpins⟩
  · exact .of_named hr (by decide) (by decide)
  · exact ⟨hm, nofun, fun _ => hpins⟩

end Causes

theorem drawPixel_raises (x y : Coord) (p1 : Pixel) (s : State) :
    (body (.drawPixel x y p1) s).Raises (PixelError s) :=
  ((window_raises x x y y s).mono fun _ h => .inl h).bind fun _ ht =>
    writePixelsOp_raises_at (window_keepsTag x x y y ht) p1 none

/-- The errors that the work of a request raises have their cause (R191 to R195). -/
theorem body_raises (i : Instr) (s : State) : (body i s).Raises (Caused i s) := by
  cases i with
  | init fmt => exact (initialiseDevice_raises fmt s).mono fun _ => .of_format rfl rfl
  | setPixelFormat fmt => exact (setFormat_raises fmt s).mono fun _ => .of_format rfl rfl
  | readCommand opc len =>
    exact loseSamples_raises ((readAfterOpcode_raises opc len.toNat s).mono fun _ h =>
      h.elim (.of_write rfl) (.of_read rfl rfl))
  | busRead => exact loseSamples_raises ((streamRead_raises s.rdMore s).mono fun _ => .of_read rfl rfl)
  | writePixels p1 p2 => exact (writePixelsOp_raises p1 p2 s).mono fun _ => .of_pixels rfl rfl
  | writeRepeatedPixel p1 len => exact (repeatPixelOp_raises p1 len.toNat s).mono fun _ => .of_pixels rfl rfl
  | drawPixel x y p1 => exact (drawPixel_raises x y p1 s).mono fun _ => .of_pixels rfl rfl
  | drawRect x y w h p1 => exact (fillRectangle_raises x y w h p1 s).mono fun _ => .of_pixels rfl rfl
  | clearScreen => exact (fillRectangle_raises 0 0 _ _ _ s).mono fun _ => .of_pixels rfl rfl
  | writeCommand opc len => exact (sendCommand_raises opc len.toNat _ s).mono fun _ => .of_write rfl
  | busWrite mode len => exact (streamWrite_raises mode len.toNat _ s).mono fun _ => .of_write rfl
  | _ => exact (sendWire_raises _ _ s).mono fun _ => .of_write rfl

/-- A request that clears `BUSY` ended with OK or with an error it raised (R196). -/
theorem Progress.settle_status {E : Status → Prop} {p : Progress} (hr : p.Raises E) (hp : p.state.busy = true)
    (hend : p.settle.busy = false) : p.settle.status = .ok ∨ E p.settle.status := by
  cases p with
  | going u => exact .inl rfl
  | raised e u => exact .inr (hr e u rfl)
  | stalled u => exact absurd (hp.symm.trans hend) (by decide)

/-- Settles O12: the status of a request that ended is OK or an error of its work, and each of those has its cause. -/
theorem everyStatusHasItsCause : Obligations.EveryStatusHasItsCause := by
  intro i s t hb hx hend
  obtain ⟨rfl, -⟩ := exec_next hx
  have hcause : Caused i s (body i s).settle.status := by
    rcases Progress.settle_status (body_raises i s) (body_keeps (busy_invariant i) hb) hend with hok | herr
    · exact hok ▸ Caused.ok i s
    · exact herr
  exact ⟨hcause.named, hcause.format, hcause.pins⟩

/-! ## Drawing requests that cannot encode -/

/-- A request whose work raises an error ends with it in the state its work came to (R196). -/
theorem exec_of_raised {i : Instr} {s t : State} {e : Status} (hx : exec i s = .next (body i s).settle)
    (hb : body i s = .raised e t) : exec i s = .next (t.raise e) := by
  rw [hx, hb]
  rfl

/-- A request that raises an error after the window and the memory-write command has changed no register, and the whole
window is owed (R36, R178). -/
theorem Sent.raisedAfterWindow {c0 c1 p0 p1 : Coord} {s t : State} (h : Sent (windowTx c0 c1 p0 p1) s.released t)
    (e : Status) :
    (t.raise e).EndedWith e ∧ s.KeepsRegisters (t.raise e) ∧
      (t.raise e).stream = s.stream ++ s.leftWord ++ windowStream c0 c1 p0 p1 ∧
      (t.raise e).ghost.owed = some (windowCount { c0 := c0, c1 := c1, p0 := p0, p1 := p1 }) := by
  obtain ⟨-, hkeep, hstream, -, hghost⟩ := h.finish
  rw [State.released_stream, windowTx_stream] at hstream
  exact ⟨⟨rfl, rfl, rfl, rfl⟩, hkeep.of_released, hstream,
    (congrArg Ghost.owed hghost).trans (window_recorded c0 c1 p0 p1 s.released).2⟩

/-- A window of one column and one page is one pixel (R36). -/
theorem windowCount_point (x y : Coord) : windowCount { c0 := x, c1 := x, p0 := y, p1 := y } = 1 := by
  rw [windowCount_of_le le_rfl le_rfl]
  simp

/-- The encoder has no form for a pixel or a pair in the block's format on its bus (R84). -/
def State.CannotEncode (s : State) : Prop := s.pixFmt = .rgb565 ∧ s.cfg.width = .w18

theorem State.CannotEncode.congr {s t : State} (h : s.CannotEncode) (hsame : t.pixFmt = s.pixFmt ∧ t.cfg = s.cfg) :
    t.CannotEncode := by
  rw [State.CannotEncode, hsame.1, hsame.2]
  exact h

theorem writePixelsOp_of_cannotEncode {s : State} (h : s.CannotEncode) (p1 : Pixel) (p2 : Option Pixel) :
    writePixelsOp p1 p2 s = .raised .dataFormatNotImplemented s := by
  obtain ⟨hfmt, hw⟩ := h
  rw [writePixelsOp, hfmt, hw, encodePixels_rgb565_w18]

/-- The fill fails at its first pair, or at the one pixel it has (R175). -/
theorem fillPixels_of_cannotEncode {s : State} (h : s.CannotEncode) (p1 : Pixel) {n : Nat} (hn : n ≠ 0) :
    fillPixels p1 n s = .raised .dataFormatNotImplemented s := by
  rw [fillPixels]
  rcases hk : n / 2 with _ | k
  · have hodd : n % 2 = 1 := by omega
    rw [repeatOp, Progress.bind_going, if_pos hodd, writePixelsOp_of_cannotEncode h]
  · rw [repeatOp, writePixelsOp_of_cannotEncode h, Progress.bind_raised, Progress.bind_raised]

theorem pixelCount_ne_zero {w h : Coord} (hw : w ≠ 0) (hh : h ≠ 0) : pixelCount w h ≠ 0 :=
  Nat.mul_ne_zero (fun h0 => hw (BitVec.eq_of_toNat_eq h0)) fun h0 => hh (BitVec.eq_of_toNat_eq h0)

/-- The work of DRAW_PIXEL stops after the window where the pixel cannot be encoded (R174, R194). -/
theorem drawPixel_of_cannotEncode (x y : Coord) (p : Pixel) {s : State} (h : s.CannotEncode)
    (hq : s.quietFor (windowCost s.cfg)) :
    ∃ t, body (.drawPixel x y p) s = .raised .dataFormatNotImplemented t ∧ Sent (windowTx x x y y) s.released t := by
  obtain ⟨t, hwin, hsent⟩ := window_sent_released x x y y hq
  exact ⟨t, by rw [body, hwin, Progress.bind_going,
    writePixelsOp_of_cannotEncode (h.congr (window_keepsTag x x y y hwin))], hsent⟩

/-- The work of DRAW_RECT stops after the window where no pixel can be encoded (R175, R194). -/
theorem fillRectangle_of_cannotEncode (x y : Coord) {w h : Coord} (p : Pixel) {s : State} (hc : s.CannotEncode)
    (hw : w ≠ 0) (hh : h ≠ 0) (hq : s.quietFor (windowCost s.cfg)) :
    ∃ t, fillRectangle x y w h p s = .raised .dataFormatNotImplemented t ∧
      Sent (windowTx x (spanEnd x w) y (spanEnd y h)) s.released t := by
  obtain ⟨t, hwin, hsent⟩ := window_sent_released x (spanEnd x w) y (spanEnd y h) hq
  exact ⟨t, by rw [fillRectangle, hwin, Progress.bind_going,
    fillPixels_of_cannotEncode (hc.congr (window_keepsTag _ _ _ _ hwin)) p (pixelCount_ne_zero hw hh)], hsent⟩

/-- DRAW_RECT of a rectangle with these ends fails after its window where no pixel can be encoded (R178, R194). -/
theorem exec_drawRect_of_cannotEncode {x y w h x1 y1 : Coord} (p : Pixel) {s : State} (hs : s.inited = true)
    (hc : s.CannotEncode) (hq : s.quietFor (windowCost s.cfg)) (hw : w ≠ 0) (hh : h ≠ 0)
    (hx : x1.toNat = x.toNat + w.toNat - 1) (hy : y1.toNat = y.toNat + h.toNat - 1) :
    ∃ t, exec (.drawRect x y w h p) s = .next t ∧ t.EndedWith .dataFormatNotImplemented ∧ s.KeepsRegisters t ∧
      t.stream = s.stream ++ s.leftWord ++ windowStream x x1 y y1 := by
  obtain ⟨t, hrun, hsent⟩ := fillRectangle_of_cannotEncode x y p hc hw hh hq
  rw [(spanEnd_eq hw hx).1, (spanEnd_eq hh hy).1] at hsent
  obtain ⟨hend, hkeep, hstream, -⟩ := hsent.raisedAfterWindow .dataFormatNotImplemented
  exact ⟨_, exec_of_raised (exec_drawRect_of_ends p hs hw hh hx hy) hrun, hend, hkeep, hstream⟩

/-- Settles O54: the window needs no encoder, and the first pixel after it raises the error. -/
theorem unencodableDrawingFailsAfterTheWindow : Obligations.UnencodableDrawingFailsAfterTheWindow := by
  intro s hs hfmt hwidth hq
  have hc : s.CannotEncode := ⟨hfmt, hwidth⟩
  refine ⟨fun x y p => ?_, fun x y w h p x1 y1 hw hh hx hy => ?_, fun hvalid => ?_⟩
  · obtain ⟨t, hrun, hsent⟩ := drawPixel_of_cannotEncode x y p hc hq
    obtain ⟨hend, hkeep, hstream, howed⟩ := hsent.raisedAfterWindow .dataFormatNotImplemented
    exact ⟨_, exec_of_raised (if_pos hs) hrun, hend, hkeep, hstream, howed.trans (congrArg some (windowCount_point x y))⟩
  · exact exec_drawRect_of_cannotEncode p hs hc hq hw hh hx hy
  · obtain ⟨hpanelW, hpanelH, -⟩ := hvalid
    have hpanel : exec .clearScreen s = exec (.drawRect 0 0 320 480 { r := 0, g := 0, b := 0 }) s := by
      rw [← hpanelW, ← hpanelH]
      rfl
    rw [hpanel]
    exact exec_drawRect_of_cannotEncode _ hs hc hq (by decide) (by decide) rfl rfl

/-! ## Requests that wait for ever -/

/-- Micro-operations none of which faults go on to their end, and the registers and the empty schedule of faults stay. -/
theorem runOps_of_noFaults (err : Status) (ops : List MicroOp) {s : State} (hf : s.faults = [])
    (hv : s.cfg.pinVariant = .bidirectional ∨ ∀ op ∈ ops, op.wantsInput = false) :
    ∃ t, runOps err ops s = .going t ∧ SameCore s t ∧ t.faults = [] := by
  have hrun := runOps_quiet err ops s (State.quietFor_of_noFaults hf _) hv
  exact ⟨_, hrun, Progress.state_of_going hrun ▸ runOps_sameCore err ops s, by rw [hf]; rfl⟩

theorem MicroOp.wantsInput_of_isWrite {op : MicroOp} (h : op.isWrite = true) : op.wantsInput = false := by
  obtain ⟨-, hno⟩ := (Bool.and_eq_true _ _).mp h
  simpa using hno

/-- A write with too few elements does what it can and waits for the next one (R207, R235). -/
theorem streamWrite_of_tooFew (m : Mode) {n : Nat} {elems : List Word} {s : State} (hf : s.faults = [])
    (hn : elems.length < n) : ∃ t, streamWrite m n elems s = .stalled t ∧ SameCore s t := by
  obtain ⟨t, hrun, hcore, -⟩ := runOps_of_noFaults .busWriteError
    (if s.cfg.isSerial then [] else writeWords s.cfg.width.bits m (rawBurst elems)) hf (.inr fun op ho => by
      split at ho
      · cases ho
      · exact MicroOp.wantsInput_of_isWrite (writeWords_kind _ _ _ op ho).1)
  exact ⟨t, by rw [streamWrite, if_neg (Nat.not_le.2 hn), hrun, Progress.bind_going], hcore⟩

/-- A wire command with too few parameters sends its opcode and waits (R207). -/
theorem sendCommand_of_tooFew (opc : Byte) {n : Nat} {elems : List Word} {s : State} (hf : s.faults = [])
    (hn : elems.length < n) : ∃ t, sendCommand opc n elems s = .stalled t ∧ SameCore s t := by
  obtain ⟨r, hopcode, hsent, hr⟩ := runOps_of_noFaults .busWriteError
    (writeOps s.cfg .command (rawBurst [wordOfByte opc])) hf
    (.inr fun op ho => MicroOp.wantsInput_of_isWrite (writeOps_kind _ _ _ op ho).1)
  obtain ⟨t, hwait, hcore⟩ := streamWrite_of_tooFew .data hr hn
  exact ⟨t, by rw [sendCommand, busWrite, hopcode, Progress.bind_going, hwait, noteLost], hsent.trans hcore⟩

/-- Answers that are all "want more" never stop a read (R106, R108). -/
theorem answeredSamples_of_all_true {answers : List Bool} (h : ∀ b ∈ answers, b = true) :
    (answeredSamples answers).2 = false := by
  induction answers with
  | nil => rfl
  | cons b rest ih =>
    obtain ⟨rfl, hrest⟩ := List.forall_mem_cons.1 h
    exact ih hrest

/-- A read that is never told to stop waits for the next answer (R207). -/
theorem streamRead_of_all_true {answers : List Bool} {s : State} (hf : s.faults = [])
    (hv : s.cfg.pinVariant = .bidirectional) (h : ∀ b ∈ answers, b = true) :
    ∃ t, streamRead answers s = .stalled t ∧ SameCore s t := by
  obtain ⟨t, hrun, hcore, -⟩ := runOps_of_noFaults .busReadError
    (.clearSamples :: (if s.cfg.isSerial then [] else readSamples s.cfg.width.bits (answeredSamples answers).1)) hf
    (.inl hv)
  exact ⟨t, by rw [streamRead, answeredSamples_of_all_true h, if_neg Bool.false_ne_true, hrun, Progress.bind_going],
    hcore⟩

/-- A request that waits leaves `BUSY` and `STATUS` as they were, and a block that stays busy takes no step (R207). -/
theorem neverEnds_of_stalled {i : Instr} {s t : State} (hb : s.busy = true)
    (hx : exec i s = .next (body i s).settle) (hbody : body i s = .stalled t) (hcore : SameCore s t) :
    ∃ t, exec i s = .next t ∧ t.busy = true ∧ t.status = s.status ∧ step t = .fault .neverFinishes := by
  have hbusy : t.busy = true := hcore.busy.trans hb
  exact ⟨t, by rw [hx, hbody, Progress.settle], hbusy, hcore.status, step_of_busy hbusy⟩

/-- Settles O35: each of the three requests comes to a stall once the requester's inputs are used up. -/
theorem unansweredRequestsNeverEnd : Obligations.UnansweredRequestsNeverEnd := by
  intro s hs hb hf
  refine ⟨fun opc len hn => ?_, fun mode len hn => ?_, fun hv hmore => ?_⟩
  · obtain ⟨t, hwait, hcore⟩ := sendCommand_of_tooFew opc
      (elems := s.plWords.map fun v => wordOfByte (byteOfWord v)) hf (by rwa [List.length_map])
    exact neverEnds_of_stalled hb (if_pos hs) hwait hcore
  · obtain ⟨t, hwait, hcore⟩ := streamWrite_of_tooFew mode
      (elems := s.plWords.map (busWord s.cfg.width)) hf (by rwa [List.length_map])
    exact neverEnds_of_stalled hb (if_pos hs) hwait hcore
  · obtain ⟨t, hwait, hcore⟩ := streamRead_of_all_true hf hv hmore
    exact neverEnds_of_stalled hb (if_pos hs) (by rw [body, hwait, loseSamples]) hcore

end Sys2Proof.Machine

/-! Facade: a drawing request that ends with OK owes no pixel of its window (O55). -/

namespace Sys2Proof.Machine

/-! ## A request that ends with OK went well to its end -/

/-- No pixel error has the code of OK, so work that never waits has gone on where its request ends with OK. -/
theorem Progress.going_of_settle_ok {s : State} {p : Progress} (hr : p.Raises (PixelError s)) (he : p.Ends)
    (hok : p.settle.status = .ok) : ∃ u, p = .going u := by
  cases p with
  | going u => exact ⟨u, rfl⟩
  | raised e u =>
    obtain rfl : e = .ok := hok
    rcases hr .ok u rfl with h | ⟨h, -⟩ <;> cases h
  | stalled u => exact absurd rfl (he u)

/-- A window and a memory-write command that went well, from any state: the whole window is owed (R36; log 17). -/
theorem window_going_owed {c0 c1 p0 p1 : Coord} {s u : State}
    (h : (setWindow c0 c1 p0 p1 s).bind (sendWire 0x2C []) = .going u) :
    u.Settled ∧ u.ghost.owed = some (windowCount { c0 := c0, c1 := c1, p0 := p0, p1 := p1 }) := by
  have hsent : Sent (windowTx c0 c1 p0 p1) s.released u := window_going s.released_settled (window_going_released h)
  exact ⟨hsent.settled, (congrArg Ghost.owed hsent.monitor.ghost).trans (window_recorded c0 c1 p0 p1 s.released).2⟩

/-! ## The pixels still owed after pixels were written well -/

theorem writePixelsOp_going_owed {p1 : Pixel} {p2 : Option Pixel} {u t : State} {k : Int} (hs : u.Settled)
    (ho : u.ghost.owed = some k) (h : writePixelsOp p1 p2 u = .going t) :
    t.ghost.owed = some (k - pixelNumber p2) := by
  obtain ⟨ws, he, hsent⟩ := writePixelsOp_going hs h
  rw [hsent.monitor.ghost]
  exact (pixelTx_recorded he ho).1

/-- A fill of at least one pixel that went well could encode its pixels, so it owes as many fewer. -/
theorem fillPixels_going_owed {p1 : Pixel} {n : Nat} {u t : State} {k : Int} (hs : u.Settled)
    (ho : u.ghost.owed = some k) (hn : n ≠ 0) (h : fillPixels p1 n u = .going t) : t.ghost.owed = some (k - n) := by
  have hcan : ¬ u.CannotEncode := fun hc => by cases h.symm.trans (fillPixels_of_cannotEncode hc p1 hn)
  obtain ⟨pair, hpair⟩ := Option.ne_none_iff_exists'.1
    (mt (encodePixels_eq_none_iff u.cfg.pack565 u.pixFmt u.cfg.width p1 (some p1)).1 hcan)
  obtain ⟨one, hone⟩ := encodePixels_one_of_pair hpair
  rw [(fillPixels_going n hs hpair hone h).monitor.ghost]
  exact (fillTx_recorded n hpair hone ho).1

/-! ## The window of a rectangle -/

/-- The end coordinate of a span that is not empty and does not overflow (R79). -/
theorem spanEnd_toNat {x w : Coord} (hw : w ≠ 0) (ho : spanOverflows x w = false) :
    (spanEnd x w).toNat = x.toNat + w.toNat - 1 := by
  have hfits : x.toNat + w.toNat - 1 ≤ 0xFFFF :=
    Nat.not_lt.1 (mt (spanOverflows_iff x w).2 (Bool.eq_false_iff.1 ho))
  have hend : (BitVec.ofNat 16 (x.toNat + w.toNat - 1)).toNat = x.toNat + w.toNat - 1 :=
    (BitVec.toNat_ofNat _ 16).trans (Nat.mod_eq_of_lt (Nat.lt_succ_of_le hfits))
  rw [(spanEnd_eq hw hend).1, hend]

/-- The window of a rectangle has as many pixels as the rectangle (R36, R80). -/
theorem windowCount_rectangle {x y w h : Coord} (hw : w ≠ 0) (hh : h ≠ 0) (hx : spanOverflows x w = false)
    (hy : spanOverflows y h = false) :
    windowCount { c0 := x, c1 := spanEnd x w, p0 := y, p1 := spanEnd y h } = pixelCount w h := by
  have hwpos : 0 < w.toNat := Nat.pos_of_ne_zero fun h0 => hw (BitVec.eq_of_toNat_eq h0)
  have hhpos : 0 < h.toNat := Nat.pos_of_ne_zero fun h0 => hh (BitVec.eq_of_toNat_eq h0)
  have hcol : (spanEnd x w).toNat = x.toNat + w.toNat - 1 := spanEnd_toNat hw hx
  have hpage : (spanEnd y h).toNat = y.toNat + h.toNat - 1 := spanEnd_toNat hh hy
  have horder : x.toNat ≤ (spanEnd x w).toNat ∧ y.toNat ≤ (spanEnd y h).toNat := ⟨by omega, by omega⟩
  have hcols : (spanEnd x w).toNat - x.toNat + 1 = w.toNat := by omega
  have hpages : (spanEnd y h).toNat - y.toNat + 1 = h.toNat := by omega
  rw [windowCount, if_pos horder, hcols, hpages, pixelCount]

/-! ## The drawing requests -/

theorem execDrawPixel_ok_owed {x y : Coord} {p1 : Pixel} {s t : State} (hx : execDrawPixel x y p1 s = .next t)
    (hok : t.status = .ok) : t.ghost.owed = some 0 := by
  obtain rfl : t = (body (.drawPixel x y p1) s).settle := (whenInited_next hx).1
  obtain ⟨v, hv⟩ := Progress.going_of_settle_ok (drawPixel_raises x y p1 s)
    ((window_ends x x y y s).bind (writePixelsOp_ends p1 none)) hok
  obtain ⟨u, hwin, hpix⟩ := Progress.bind_eq_going hv
  obtain ⟨hset, howed⟩ := window_going_owed hwin
  rw [windowCount_point] at howed
  rw [hv]
  exact writePixelsOp_going_owed hset howed hpix

theorem drawRectangle_ok_owed {x y w h : Coord} {p1 : Pixel} {s t : State}
    (hx : drawRectangle x y w h p1 s = .next t) (hok : t.status = .ok) : t.ghost.owed = some 0 := by
  obtain ⟨rfl, -, hempty, hcolumns, hpages⟩ := drawRectangle_next hx
  obtain ⟨hw, hh⟩ := not_or.1 (mt (emptyRect_iff w h).2 (Bool.eq_false_iff.1 hempty))
  obtain ⟨v, hv⟩ := Progress.going_of_settle_ok (fillRectangle_raises x y w h p1 s)
    ((window_ends _ _ _ _ s).bind (fillPixels_ends p1 (pixelCount w h))) hok
  obtain ⟨u, hwin, hfill⟩ := Progress.bind_eq_going hv
  obtain ⟨hset, howed⟩ := window_going_owed hwin
  rw [windowCount_rectangle hw hh hcolumns hpages] at howed
  have hrest : v.ghost.owed = some ((pixelCount w h : Int) - pixelCount w h) :=
    fillPixels_going_owed hset howed (pixelCount_ne_zero hw hh) hfill
  rw [sub_self] at hrest
  rw [hv]
  exact hrest

/-- Settles O55: after the window exactly its pixels are owed, and the pixels of a request that ends with OK were all
written; CLEAR_SCREEN is the rectangle of the panel. -/
theorem drawingSendsExactlyTheWindow : Obligations.DrawingSendsExactlyTheWindow := by
  rintro i s t (⟨x, y, p, rfl⟩ | ⟨x, y, w, h, p, rfl⟩ | rfl) - hx hok
  · exact execDrawPixel_ok_owed hx hok
  · exact drawRectangle_ok_owed hx hok
  · exact drawRectangle_ok_owed hx hok

end Sys2Proof.Machine
